-- ==== Sys2Proof/Word.lean ====
section
/-! DEFINITION. The words of the hardware: bytes, 32-bit command and response words, and how a number is placed in a word
(00_scope.md R11, R13). -/

namespace Sys2Proof

/-- A byte, which is also a Symbol: "one byte value (0–255)" (00_scope.md R10, R15). -/
abbrev Byte := BitVec 8

/-- A command word, a response's data word or a register's value (30_encoding.md R100, R106; 20_memory.md R79). -/
abbrev Word := BitVec 32

/-- A number as a 32-bit word. The numbers given to it fit (10_state.md R36). -/
abbrev word (n : Nat) : Word := BitVec.ofNat 32 n

/-- `zext_32` of 00_scope.md R13 for a byte. -/
abbrev zext32 (b : Byte) : Word := BitVec.setWidth 32 b

end Sys2Proof
end

