-- ==== Sys2Proof/Syntax.lean ====
section
/-! DEFINITION. The commands of HCC: one constructor for each row of the opcode map (30_encoding.md R104, opcode_table.json).
Operands have exactly the width of their field (R102), so every value of the type is a value the encoding admits and no
value is shut out. -/

namespace Sys2Proof

/-- A command of HCC (30_encoding.md R104). -/
inductive Instr where
  /-- `NOP` (R131), format C0. -/
  | nop
  /-- `RESET` (R132), format C0. -/
  | reset
  /-- `RD_REG r` (R133), format C8: `r` a register number. -/
  | rdReg (r : BitVec 8)
  /-- `IPUSH b` (R134), format C8: `b` a byte. -/
  | ipush (b : BitVec 8)
  /-- `ICLR` (R135), format C0. -/
  | iclr
  /-- `IRD a` (R136), format C24: `a` an index into `IBUF`. -/
  | ird (a : BitVec 24)
  /-- `ORD a` (R137), format C24: `a` an index into `OBUF`. -/
  | ord (a : BitVec 24)
  /-- `OCLR` (R138), format C0. -/
  | oclr
  /-- `O2I` (R139), format C0. -/
  | o2i
  /-- `FREQ` (R151), format C0. -/
  | freq
  /-- `FT_RD s` (R152), format C8: `s` a symbol. -/
  | ftRd (s : BitVec 8)
  /-- `BUILD` (R166), format C0. -/
  | build
  /-- `TB_INIT` (R164), format C0. -/
  | tbInit
  /-- `TB_STEP` (R165), format C0. -/
  | tbStep
  /-- `PQ_RD k` (R167), format C8: `k` a rank in the queue. -/
  | pqRd (k : BitVec 8)
  /-- `ND_RD_LINK i` (R168), format C9: `i` a node index. -/
  | ndRdLink (i : BitVec 9)
  /-- `ND_RD_FLO i` (R169), format C9: `i` a node index. -/
  | ndRdFlo (i : BitVec 9)
  /-- `ND_RD_FHI i` (R170), format C9: `i` a node index. -/
  | ndRdFhi (i : BitVec 9)
  /-- `GENCODE` (R191), format C0. -/
  | gencode
  /-- `CT_LEN s` (R193), format C8: `s` a symbol. -/
  | ctLen (s : BitVec 8)
  /-- `CT_BITS s, w` (R194), format C11: `s` a symbol, `w` a word number. -/
  | ctBits (s : BitVec 8) (w : BitVec 3)
  /-- `PK_BIT b` (R202), format C1: `b` a bit. -/
  | pkBit (b : BitVec 1)
  /-- `PK_FLUSH` (R203), format C0. -/
  | pkFlush
  /-- `UPK_SET a` (R205), format C24: `a` an index into `IBUF`. -/
  | upkSet (a : BitVec 24)
  /-- `UPK_BIT` (R206), format C0. -/
  | upkBit
  /-- `HDR_WR` (R226), format C0. -/
  | hdrWr
  /-- `HDR_RD` (R227), format C0. -/
  | hdrRd
  /-- `ENC_SYM s` (R240), format C8: `s` a symbol. -/
  | encSym (s : BitVec 8)
  /-- `DEC_SYM` (R242), format C0. -/
  | decSym
  /-- `COMPRESS` (R246), format C0. -/
  | compress
  /-- `DECOMPRESS` (R248), format C0. -/
  | decompress
  deriving DecidableEq, Repr

end Sys2Proof
end

