-- ==== Sys2Proof/WellFormed.lean ====
section
/-! DEFINITION. What makes a word or a command well-formed as far as it can be told from the word or the command alone: the
opcode map as data (30_encoding.md R102, R104), the reserved-bits check of a word (R105 (a), (b); R112 steps (1), (2)), and
the one operand range that depends on no state (R105 (c), 40_system_buffer.md R133). That an operand fits its field is the
type of the operand (Syntax.lean). -/

namespace Sys2Proof

/-- The operand formats of 30_encoding.md R102. -/
inductive Format where
  | c0
  | c1
  | c8
  | c9
  | c11
  | c24
  deriving DecidableEq, Repr

/-- The "mask of fixed bits" column of R102. -/
def Format.mask : Format → Word
  | .c0 => 0xFFFFFFFF#32
  | .c1 => 0xFFFFFFFE#32
  | .c8 => 0xFFFFFF00#32
  | .c9 => 0xFFFFFE00#32
  | .c11 => 0xFFFFF800#32
  | .c24 => 0xFF000000#32

/-- One row of the opcode map of R104. -/
structure Row where
  mnemonic : String
  format : Format
  pattern : Word
  deriving DecidableEq, Repr

/-- "A word `cmd` selects the row when `cmd & mask = match`" (R104). -/
def Row.selects (r : Row) (w : Word) : Bool := w &&& r.format.mask == r.pattern

/-- The rows of R104 whose rules stand in 40_system_buffer.md and 41_frequency_model.md. -/
def opcodeMapLow : List Row :=
  [⟨"NOP", .c0, 0x00000000#32⟩, ⟨"RESET", .c0, 0x01000000#32⟩, ⟨"RD_REG", .c8, 0x02000000#32⟩,
   ⟨"IPUSH", .c8, 0x03000000#32⟩, ⟨"ICLR", .c0, 0x04000000#32⟩, ⟨"IRD", .c24, 0x05000000#32⟩,
   ⟨"ORD", .c24, 0x06000000#32⟩, ⟨"OCLR", .c0, 0x07000000#32⟩, ⟨"O2I", .c0, 0x08000000#32⟩,
   ⟨"FREQ", .c0, 0x10000000#32⟩, ⟨"FT_RD", .c8, 0x11000000#32⟩]

/-- The rows of R104 whose rules stand in 42_tree_builder.md and 43_code_table.md. -/
def opcodeMapMid : List Row :=
  [⟨"BUILD", .c0, 0x20000000#32⟩, ⟨"TB_INIT", .c0, 0x21000000#32⟩, ⟨"TB_STEP", .c0, 0x22000000#32⟩,
   ⟨"PQ_RD", .c8, 0x23000000#32⟩, ⟨"ND_RD_LINK", .c9, 0x24000000#32⟩, ⟨"ND_RD_FLO", .c9, 0x25000000#32⟩,
   ⟨"ND_RD_FHI", .c9, 0x26000000#32⟩, ⟨"GENCODE", .c0, 0x30000000#32⟩, ⟨"CT_LEN", .c8, 0x31000000#32⟩,
   ⟨"CT_BITS", .c11, 0x32000000#32⟩]

/-- The rows of R104 whose rules stand in 44_bit_packer.md, 45_container.md and 46_orchestration.md. -/
def opcodeMapHigh : List Row :=
  [⟨"PK_BIT", .c1, 0x40000000#32⟩, ⟨"PK_FLUSH", .c0, 0x41000000#32⟩, ⟨"UPK_SET", .c24, 0x42000000#32⟩,
   ⟨"UPK_BIT", .c0, 0x43000000#32⟩, ⟨"HDR_WR", .c0, 0x50000000#32⟩, ⟨"HDR_RD", .c0, 0x51000000#32⟩,
   ⟨"ENC_SYM", .c8, 0x60000000#32⟩, ⟨"DEC_SYM", .c0, 0x61000000#32⟩, ⟨"COMPRESS", .c0, 0x62000000#32⟩,
   ⟨"DECOMPRESS", .c0, 0x63000000#32⟩]

/-- The complete opcode map (R104). -/
def opcodeMap : List Row := opcodeMapLow ++ opcodeMapMid ++ opcodeMapHigh

/-- A well-formed command word: it selects a row of R104, so its opcode is defined and its reserved bits are 0 (R112 steps
(1) and (2); the use of the word "well-formed" in R130 and R271). -/
def Word.wellFormed (w : Word) : Bool := opcodeMap.any (·.selects w)

/-- The number of the last register of 10_state.md R41: "register numbers 19 to 255 are reserved". -/
def lastRegister : Nat := 18

/-- The operand of the command is in the legal range its rule states, as far as the range depends on no state (R105 (c)):
only `RD_REG` has such a range. A command that fails this check still decodes; its meaning raises `ILLEGAL_COMMAND`. -/
def Instr.wellFormed : Instr → Bool
  | .rdReg r => r.toNat ≤ lastRegister
  | .nop | .reset | .ipush _ | .iclr | .ird _ | .ord _ | .oclr | .o2i => true
  | .freq | .ftRd _ => true
  | .build | .tbInit | .tbStep | .pqRd _ | .ndRdLink _ | .ndRdFlo _ | .ndRdFhi _ => true
  | .gencode | .ctLen _ | .ctBits _ _ => true
  | .pkBit _ | .pkFlush | .upkSet _ | .upkBit => true
  | .hdrWr | .hdrRd => true
  | .encSym _ | .decSym | .compress | .decompress => true

end Sys2Proof
end

