-- ==== Sys2Proof/Decode.lean ====
section
/-! DEFINITION. Decoding a command word, total and by name where it refuses (30_encoding.md R101 to R105, R112), and the
encoder that follows the same tables. -/

namespace Sys2Proof

/-- Why a word is illegal, in the order R112 checks. -/
inductive Reject where
  /-- R112 step (1): no row of R104 has the opcode. -/
  | undefinedOpcode
  /-- R112 step (2): a reserved bit of the row's format is 1. -/
  | reservedBits
  deriving DecidableEq, Repr

/-- `opcode = cmd[31:24]` (R101). -/
def opcodeOf (w : Word) : BitVec 8 := w.extractLsb' 24 8

/-- `arg = cmd[23:0]` (R101). -/
def argOf (w : Word) : BitVec 24 := w.extractLsb' 0 24

/-- Format C0: every argument bit is reserved (R102). -/
def decodeC0 (a : BitVec 24) (i : Instr) : Except Reject Instr :=
  if a = 0#24 then .ok i else .error .reservedBits

/-- Format C1: operand `cmd[0]`, reserved `cmd[23:1]` (R102). -/
def decodeC1 (a : BitVec 24) (f : BitVec 1 → Instr) : Except Reject Instr :=
  if a.extractLsb' 1 23 = 0#23 then .ok (f (a.extractLsb' 0 1)) else .error .reservedBits

/-- Format C8: operand `cmd[7:0]`, reserved `cmd[23:8]` (R102). -/
def decodeC8 (a : BitVec 24) (f : BitVec 8 → Instr) : Except Reject Instr :=
  if a.extractLsb' 8 16 = 0#16 then .ok (f (a.extractLsb' 0 8)) else .error .reservedBits

/-- Format C9: operand `cmd[8:0]`, reserved `cmd[23:9]` (R102). -/
def decodeC9 (a : BitVec 24) (f : BitVec 9 → Instr) : Except Reject Instr :=
  if a.extractLsb' 9 15 = 0#15 then .ok (f (a.extractLsb' 0 9)) else .error .reservedBits

/-- Format C11: operands `s = cmd[7:0]` and `w = cmd[10:8]`, reserved `cmd[23:11]` (R102). -/
def decodeC11 (a : BitVec 24) (f : BitVec 8 → BitVec 3 → Instr) : Except Reject Instr :=
  if a.extractLsb' 11 13 = 0#13 then .ok (f (a.extractLsb' 0 8) (a.extractLsb' 8 3)) else .error .reservedBits

/-- The instruction a command word stands for, or the reason it is illegal (R104, R112 steps (1) and (2)). -/
def decode (w : Word) : Except Reject Instr :=
  let a := argOf w
  match (opcodeOf w).toNat with
  | 0x00 => decodeC0 a .nop
  | 0x01 => decodeC0 a .reset
  | 0x02 => decodeC8 a .rdReg
  | 0x03 => decodeC8 a .ipush
  | 0x04 => decodeC0 a .iclr
  | 0x05 => .ok (.ird a)
  | 0x06 => .ok (.ord a)
  | 0x07 => decodeC0 a .oclr
  | 0x08 => decodeC0 a .o2i
  | 0x10 => decodeC0 a .freq
  | 0x11 => decodeC8 a .ftRd
  | 0x20 => decodeC0 a .build
  | 0x21 => decodeC0 a .tbInit
  | 0x22 => decodeC0 a .tbStep
  | 0x23 => decodeC8 a .pqRd
  | 0x24 => decodeC9 a .ndRdLink
  | 0x25 => decodeC9 a .ndRdFlo
  | 0x26 => decodeC9 a .ndRdFhi
  | 0x30 => decodeC0 a .gencode
  | 0x31 => decodeC8 a .ctLen
  | 0x32 => decodeC11 a .ctBits
  | 0x40 => decodeC1 a .pkBit
  | 0x41 => decodeC0 a .pkFlush
  | 0x42 => .ok (.upkSet a)
  | 0x43 => decodeC0 a .upkBit
  | 0x50 => decodeC0 a .hdrWr
  | 0x51 => decodeC0 a .hdrRd
  | 0x60 => decodeC8 a .encSym
  | 0x61 => decodeC0 a .decSym
  | 0x62 => decodeC0 a .compress
  | 0x63 => decodeC0 a .decompress
  | _ => .error .undefinedOpcode

/-- The word with the given opcode and argument (R101). -/
def assemble (opcode : BitVec 8) (arg : BitVec 24) : Word := opcode ++ arg

/-- The command word of a command: each operand in its field, every reserved bit 0 (R102, R104). -/
def encode : Instr → Word
  | .nop => assemble 0x00#8 0#24
  | .reset => assemble 0x01#8 0#24
  | .rdReg r => assemble 0x02#8 (0#16 ++ r)
  | .ipush b => assemble 0x03#8 (0#16 ++ b)
  | .iclr => assemble 0x04#8 0#24
  | .ird a => assemble 0x05#8 a
  | .ord a => assemble 0x06#8 a
  | .oclr => assemble 0x07#8 0#24
  | .o2i => assemble 0x08#8 0#24
  | .freq => assemble 0x10#8 0#24
  | .ftRd s => assemble 0x11#8 (0#16 ++ s)
  | .build => assemble 0x20#8 0#24
  | .tbInit => assemble 0x21#8 0#24
  | .tbStep => assemble 0x22#8 0#24
  | .pqRd k => assemble 0x23#8 (0#16 ++ k)
  | .ndRdLink i => assemble 0x24#8 (0#15 ++ i)
  | .ndRdFlo i => assemble 0x25#8 (0#15 ++ i)
  | .ndRdFhi i => assemble 0x26#8 (0#15 ++ i)
  | .gencode => assemble 0x30#8 0#24
  | .ctLen s => assemble 0x31#8 (0#16 ++ s)
  | .ctBits s w => assemble 0x32#8 (0#13 ++ w ++ s)
  | .pkBit b => assemble 0x40#8 (0#23 ++ b)
  | .pkFlush => assemble 0x41#8 0#24
  | .upkSet a => assemble 0x42#8 a
  | .upkBit => assemble 0x43#8 0#24
  | .hdrWr => assemble 0x50#8 0#24
  | .hdrRd => assemble 0x51#8 0#24
  | .encSym s => assemble 0x60#8 (0#16 ++ s)
  | .decSym => assemble 0x61#8 0#24
  | .compress => assemble 0x62#8 0#24
  | .decompress => assemble 0x63#8 0#24

/-- The mnemonic of a command's row in R104. -/
def Instr.mnemonic : Instr → String
  | .nop => "NOP"
  | .reset => "RESET"
  | .rdReg _ => "RD_REG"
  | .ipush _ => "IPUSH"
  | .iclr => "ICLR"
  | .ird _ => "IRD"
  | .ord _ => "ORD"
  | .oclr => "OCLR"
  | .o2i => "O2I"
  | .freq => "FREQ"
  | .ftRd _ => "FT_RD"
  | .build => "BUILD"
  | .tbInit => "TB_INIT"
  | .tbStep => "TB_STEP"
  | .pqRd _ => "PQ_RD"
  | .ndRdLink _ => "ND_RD_LINK"
  | .ndRdFlo _ => "ND_RD_FLO"
  | .ndRdFhi _ => "ND_RD_FHI"
  | .gencode => "GENCODE"
  | .ctLen _ => "CT_LEN"
  | .ctBits _ _ => "CT_BITS"
  | .pkBit _ => "PK_BIT"
  | .pkFlush => "PK_FLUSH"
  | .upkSet _ => "UPK_SET"
  | .upkBit => "UPK_BIT"
  | .hdrWr => "HDR_WR"
  | .hdrRd => "HDR_RD"
  | .encSym _ => "ENC_SYM"
  | .decSym => "DEC_SYM"
  | .compress => "COMPRESS"
  | .decompress => "DECOMPRESS"

/-- The 32-bit command word whose bits, numbered as spec/opcode_table.json numbers them, are the low `nbits` bits of `w`;
every bit above is 0. A command is one word, so bit `k` of the table is bit `k` of the word (R100, R101). -/
def tableWord (nbits w : Nat) : Word := BitVec.ofNat 32 (w % 2 ^ nbits)

/-- What the decoder reads from a row's word of spec/opcode_table.json. -/
def decodeTableWord (nbits w : Nat) : Option Instr :=
  match decode (tableWord nbits w) with
  | .ok i => some i
  | .error _ => none

end Sys2Proof
end

