-- ==== Sys2Proof/Config.lean ====
section
/-! DEFINITION. The implementation parameters of 00_scope.md R9. They are plain data that State carries and no command
changes, so a statement about every state is a statement about every value of an OPEN parameter (log 3). -/

namespace Sys2Proof

/-- `FREQ_BYTE_ORDER`: the byte order of the 4-byte `frequency[i]` field of the container (20_memory.md R78). -/
inductive ByteOrder where
  | little
  | big
  deriving DecidableEq, Repr

/-- The parameters of 00_scope.md R9 that a rule depends on. `PORT_PROTOCOL` and `CMD_LATENCY` are OPEN, "not modelled; no
rule depends on it" (log 13). -/
structure Config where
  /-- `IBUF_CAP`, OPEN, 1 to 2^24. -/
  ibufCap : Nat
  /-- `OBUF_CAP`, OPEN, 1 to 2^24. -/
  obufCap : Nat
  /-- `FREQ_BYTE_ORDER`. -/
  byteOrder : ByteOrder
  /-- `SINGLE_CODE_BIT`: the one-bit code of a one-symbol alphabet. -/
  singleCodeBit : Bool
  /-- `ID_VALUE`. -/
  idValue : Word
  deriving DecidableEq, Repr

/-- The bounds R9 puts on the two capacities. -/
abbrev Config.Bounded (c : Config) : Prop :=
  1 ≤ c.ibufCap ∧ c.ibufCap ≤ 2 ^ 24 ∧ 1 ≤ c.obufCap ∧ c.obufCap ≤ 2 ^ 24

/-- "Value for this hardware" of R9; the two OPEN capacities at their reference value 2^24 (DESIGN CHOICE, log 3). -/
def Config.reference : Config where
  ibufCap := 2 ^ 24
  obufCap := 2 ^ 24
  byteOrder := .little
  singleCodeBit := false
  idValue := 0x48554601#32

end Sys2Proof
end

