-- ==== Sys2Proof/Machine/State.lean ====
section
/-! DEFINITION. The state of HCC as plain data (10_state.md), the state after reset (R45), and the reasons a step can stop.
INVENTORY.md, under State, lists every item with its width, its rule and its reset value. -/

namespace Sys2Proof.Machine

open Sys2Proof

/-- The errors of 60_exceptions.md R268. -/
inductive ErrCode where
  /-- 1: the Tree Builder or the header writer was given the empty table (R261). -/
  | invalidInput
  /-- 2: a header or payload that no valid container has (R262). -/
  | corruptContainer
  /-- 3: a symbol without a code (R263). -/
  | encodingError
  /-- 4: reserved; no rule raises it (R264). -/
  | ioFailure
  /-- 5: an undefined opcode, a 1 in a reserved bit, or an operand out of range (R265). -/
  | illegalCommand
  /-- 6: a stage flag the command tests is 0 (R266). -/
  | sequenceError
  /-- 7: a byte does not fit a buffer (R267). -/
  | bufferOverflow
  deriving DecidableEq, Repr

/-- One entry of the arena (10_state.md R28). A Leaf "holds a Symbol and its frequency"; an Internal holds a combined
frequency and two children's indexes "and never holds a symbol". `freq` has 40 bits and the indexes 9 bits in the hardware;
the numbers here are exact, and that they fit is an invariant (R11, R36; log 6). -/
inductive Node where
  /-- `kind = 0`. -/
  | leaf (sym : Byte) (freq : Nat)
  /-- `kind = 1`. -/
  | internal (freq left right : Nat)
  deriving DecidableEq, Repr

/-- A response: `err` (1 bit) and `data` (32 bits) (30_encoding.md R106). -/
structure Response where
  err : Bool
  data : Word
  deriving DecidableEq, Repr

/-- A finite map from symbols, listed by ascending symbol with no symbol twice, so that equal maps are equal data
(41_frequency_model.md R153; log 7). -/
abbrev Table (α : Type) := List (Byte × α)

/-- The state of HCC with its two ports. -/
structure State where
  /-- The implementation parameters (00_scope.md R9); no command changes them. -/
  cfg : Config
  /-- The command port: words the host has issued and HCC has not taken, next one first (10_state.md R20, R22; log 2). -/
  cmds : List Word
  /-- The response port: every response given so far, oldest first (30_encoding.md R106; log 1). -/
  resps : List Response
  /-- `IBUF[0 .. ILEN-1]` (R24, R46). -/
  ibuf : List Byte
  /-- `OBUF[0 .. OLEN-1]` (R25, R46). -/
  obuf : List Byte
  /-- The Frequency Table `FTV`/`FTF`: `s` is listed with `c` when `FTV[s] = 1` and `FTF[s] = c` (R26). -/
  ft : Table Nat
  /-- The arena `NODE[0 .. NEXTID-1]` (R28, R30, R46). -/
  nodes : List Node
  /-- The members of the priority queue, ascending: the `i` with `INQ[i] = 1` (R32; log 8). -/
  inq : List Nat
  /-- `ROOT`, 9 bits (R33). -/
  root : Nat
  /-- `TOTAL`, 40 bits (R33). -/
  total : Nat
  /-- The Code Table `CTL`/`CTB`: `s` is listed with its code, first step from the root first; an unlisted `s` has
  `CTL[s] = 0` (R34). -/
  ct : Table (List Bool)
  /-- `ACC`, the packer's accumulator (R35). -/
  acc : BitVec 8
  /-- `NACC`, 3 bits: how many bits wait in `ACC` (R35). -/
  nacc : Nat
  /-- `RPOS`, 25 bits (R37). -/
  rpos : Nat
  /-- `BPOS`, 28 bits (R37). -/
  bpos : Nat
  /-- `EMITTED`, 40 bits (R38). -/
  emitted : Nat
  /-- `ERR`: the recorded error, `none` for the code 0 (R39; log 9). -/
  err : Option ErrCode
  /-- `ERRCMD` (R39). -/
  errcmd : Word
  /-- `FT_VALID` (R40). -/
  ftValid : Bool
  /-- `TB_ACTIVE` (R40). -/
  tbActive : Bool
  /-- `TREE_VALID` (R40). -/
  treeValid : Bool
  /-- `CT_VALID` (R40). -/
  ctValid : Bool
  /-- `CUR_VALID` (R40). -/
  curValid : Bool
  /-- `NOTHING` (R40). -/
  nothing : Bool
  deriving DecidableEq, Repr

/-- Every item of R45 at its reset value, for the given parameters and ports. Storage whose reset value is unspecified
(`IBUF`, `OBUF`, `NODE`, `CTB`) holds nothing (R46; log 4). -/
def State.atReset (cfg : Config) (cmds : List Word) (resps : List Response) : State where
  cfg := cfg
  cmds := cmds
  resps := resps
  ibuf := []
  obuf := []
  ft := []
  nodes := []
  inq := []
  root := 0
  total := 0
  ct := []
  acc := 0#8
  nacc := 0
  rpos := 0
  bpos := 0
  emitted := 0
  err := none
  errcmd := 0#32
  ftValid := false
  tbActive := false
  treeValid := false
  ctValid := false
  curValid := false
  nothing := false

/-- The machine right after hardware reset (R45, 70_reset_and_hazards.md R290, R292): no command has been sent. -/
def State.reset : State := State.atReset Config.reference [] []

/-- Why the machine stops with a fault. The spec's own errors are not faults: their entry is a next state (R270). -/
inductive Fault where
  /-- A command needs a node the arena does not hold, or follows links that do not descend. Raised by `TB_STEP`, `PQ_RD`,
  `BUILD`, `GENCODE`, `DEC_SYM`, `COMPRESS` and `DECOMPRESS`, only in states that contradict R31, R44 or R46, which no run
  from reset reaches. Safe: the model stops where the spec gives the storage no value (log 10). -/
  | unwrittenNode
  deriving DecidableEq, Repr

/-- Why the machine refuses an instruction. -/
inductive Refusal where
  /-- The instruction has no meaning in the model. Raised by no arm of `exec` in this model; safe. -/
  | notModelled (mnemonic : String)
  deriving DecidableEq, Repr

end Sys2Proof.Machine
end

