-- ==== Sys2Proof/Machine/Ops.lean ====
section
/-! DEFINITION. The operations that several commands share: the buffers, the tables, the arena and its queue, the packer and
the unpack cursor, the response, error entry and its return, and the gating of commands in the error state. -/

namespace Sys2Proof.Machine

open Sys2Proof

/-! ## How a command's Operation ends -/

/-- What ends an Operation early: a `raise E` (00_scope.md R13), or the model's own fault (log 10). -/
inductive Stop where
  | raise (e : ErrCode)
  | fault (f : Fault)
  deriving DecidableEq, Repr

/-- The end of an Operation or of a part of one. -/
abbrev Op (α : Type) := Except Stop α

/-- `raise E` (R13). -/
abbrev raise {α : Type} (e : ErrCode) : Op α := .error (.raise e)

/-- A node was needed that the arena does not hold (log 10). -/
abbrev noNode {α : Type} : Op α := .error (.fault .unwrittenNode)

/-- `require c else raise E` (R13). -/
def require (c : Bool) (e : ErrCode) : Op Unit := if c then .ok () else raise e

/-! ## The lengths and counters that equal a function of other state (log 5) -/

/-- `ILEN` (10_state.md R24). -/
def State.ilen (s : State) : Nat := s.ibuf.length

/-- `OLEN` (10_state.md R25). -/
def State.olen (s : State) : Nat := s.obuf.length

/-- `NSYM` (10_state.md R27). -/
def State.nsym (s : State) : Nat := s.ft.length

/-- `NEXTID` (10_state.md R29). -/
def State.nextId (s : State) : Nat := s.nodes.length

/-- `PQLEN` (10_state.md R32). -/
def State.pqLen (s : State) : Nat := s.inq.length

/-! ## Finite maps from symbols -/

/-- The value listed with `k`, if any. -/
def Table.find {α : Type} : Table α → Byte → Option α
  | [], _ => none
  | (k', v) :: t, k => if k' = k then some v else Table.find t k

/-- The map with `k` mapped to `v`, whatever it was mapped to before. -/
def Table.put {α : Type} : Table α → Byte → α → Table α
  | [], k, v => [(k, v)]
  | (k', v') :: t, k, v =>
    if k.toNat < k'.toNat then (k, v) :: (k', v') :: t
    else if k = k' then (k, v) :: t
    else (k', v') :: Table.put t k v

/-- The symbols are listed in ascending order, none twice. -/
def Table.wf {α : Type} : Table α → Bool
  | [] => true
  | (k, _) :: t => t.all (fun e => k.toNat < e.1.toNat) && Table.wf t

/-- The symbols 0, 1, ..., 255 in ascending order. -/
def allSymbols : List Byte := (List.range 256).map (BitVec.ofNat 8)

/-- `FTV[s]` (10_state.md R26). -/
def State.ftv (s : State) (b : Byte) : Bool := (s.ft.find b).isSome

/-- `FTF[s]` (10_state.md R26): 0 for a symbol that is no entry. -/
def State.ftf (s : State) (b : Byte) : Nat := (s.ft.find b).getD 0

/-- `CT[s]` (10_state.md R34): the empty sequence for a symbol without a code. -/
def State.ctb (s : State) (b : Byte) : List Bool := (s.ct.find b).getD []

/-- `CTL[s]` (10_state.md R34). -/
def State.ctl (s : State) (b : Byte) : Nat := (s.ctb b).length

/-! ## The byte buffers -/

/-- `MemRead(IBUF, a, 1)` or `MemRead(OBUF, a, 1)`, "defined only for" an index below the length (20_memory.md R71). -/
def Buffer.read (buf : List Byte) (a : Nat) : Option Byte := buf[a]?

/-- A buffer as the list of its (address, byte) pairs, addresses strictly rising; an unlisted address holds no value
(20_memory.md R70, R71; log 4). -/
def Buffer.cellsFrom (base : Nat) : List Byte → List Host.Cell
  | [] => []
  | b :: bs => (base, b) :: Buffer.cellsFrom (base + 1) bs

/-- The pairs of a whole buffer. -/
def Buffer.cells (buf : List Byte) : List Host.Cell := Buffer.cellsFrom 0 buf

/-- The canonical form of a memory given as pairs: addresses strictly rising (so no address twice). No pair equals what an
unlisted address reads as, because an unlisted address reads as nothing. -/
def Memory.wf : List Host.Cell → Bool
  | [] => true
  | (a, _) :: m => m.all (fun c => a < c.1) && Memory.wf m

/-- `out_byte(b)`, "the only way a byte enters `OBUF`" (20_memory.md R76). -/
def outByte (b : Byte) (s : State) : Op State :=
  if s.olen < s.cfg.obufCap then .ok { s with obuf := s.obuf ++ [b] } else raise .bufferOverflow

/-- `out_byte` of each byte in turn. -/
def outBytes : List Byte → State → Op State
  | [], s => .ok s
  | b :: bs, s => do outBytes bs (← outByte b s)

/-! ## The arena and the priority queue -/

/-- `NODE[i].freq` (10_state.md R28). -/
def Node.freq : Node → Nat
  | .leaf _ f => f
  | .internal f _ _ => f

/-- `NODE[i]`: only entries with an index below `NEXTID` hold a value (10_state.md R28, R46). -/
def nodeAt (nodes : List Node) (i : Nat) : Op Node :=
  match nodes[i]? with
  | some n => .ok n
  | none => noNode

/-- `NODE[i].freq` for an index the arena holds. -/
def freqAt (nodes : List Node) (i : Nat) : Nat := (nodes[i]?).elim 0 Node.freq

/-- The queue order: frequency ascending, then creation-order id ascending (42_tree_builder.md R161). -/
def comesBefore (nodes : List Node) (i j : Nat) : Bool :=
  freqAt nodes i < freqAt nodes j || (freqAt nodes i == freqAt nodes j && i < j)

/-- The rank of `m`: how many members of the queue come before it (42_tree_builder.md R161, R167). -/
def rankOf (nodes : List Node) (inq : List Nat) (m : Nat) : Nat := inq.countP (comesBefore nodes · m)

/-- The member of rank `k` (42_tree_builder.md R167). -/
def memberOfRank (nodes : List Node) (inq : List Nat) (k : Nat) : Option Nat :=
  inq.find? (fun m => rankOf nodes inq m == k)

/-- Every member of the queue is a node of the arena (10_state.md R44 (c)). -/
def queueBacked (nodes : List Node) (inq : List Nat) : Bool := inq.all (· < nodes.length)

/-- `pq_extract_min()`: the member that comes before every other member, and the queue without it
(42_tree_builder.md R163). -/
def extractMin (nodes : List Node) (inq : List Nat) : Op (Nat × List Nat) :=
  if queueBacked nodes inq then
    match memberOfRank nodes inq 0 with
    | some m => .ok (m, inq.erase m)
    | none => noNode
  else noNode

/-- `pq_insert(i)` for the node just created, whose id is greater than every member's (42_tree_builder.md R162). -/
def pqInsert (inq : List Nat) (i : Nat) : List Nat := inq ++ [i]

/-! ## The packer and the unpack cursor -/

/-- A bit as a byte value. -/
def bitByte (b : Bool) : BitVec 8 := if b then 1#8 else 0#8

/-- `pack_bit(b)` (44_bit_packer.md R201). -/
def packBit (b : Bool) (s : State) : Op State :=
  let acc := s.acc ||| (bitByte b <<< (7 - s.nacc))
  if s.nacc = 7 then do
    let t ← outByte acc s
    .ok { t with acc := 0#8, nacc := 0 }
  else .ok { s with acc := acc, nacc := s.nacc + 1 }

/-- `pack_bit` of each bit in turn. -/
def packBits : List Bool → State → Op State
  | [], s => .ok s
  | b :: bs, s => do packBits bs (← packBit b s)

/-- `bits_left()` (44_bit_packer.md R207). -/
def State.bitsLeft (s : State) : Nat := 8 * (s.ilen - s.rpos) - s.bpos

/-- Payload bit number `k` (k = 0 first): bit `7 − (k mod 8)` of payload byte `⌊k/8⌋` (20_memory.md R77,
44_bit_packer.md R208). -/
def State.payloadBit (s : State) (k : Nat) : Bool :=
  ((Buffer.read s.ibuf (s.rpos + k / 8)).getD 0#8).getLsbD (7 - k % 8)

/-- `next_bit()`, defined only when `bits_left() > 0`, where the byte it reads is always a byte of `IBUF`
(44_bit_packer.md R208). -/
def nextBit (s : State) : Bool × State := (s.payloadBit s.bpos, { s with bpos := s.bpos + 1 })

/-- The cursor taken away: `RPOS`, `BPOS`, `EMITTED` and `CUR_VALID` cleared (40_system_buffer.md R135, R139). -/
def State.dropCursor (s : State) : State := { s with rpos := 0, bpos := 0, emitted := 0, curValid := false }

/-- The cursor set to byte `a` of `IBUF` (44_bit_packer.md R205, 45_container.md R227). -/
def State.setCursor (s : State) (a : Nat) : State := { s with rpos := a, bpos := 0, emitted := 0, curValid := true }

/-! ## Responses, error entry, the error state -/

/-- The end-of-stream value `EOS` (30_encoding.md R108). -/
def eos : Word := 0x00000100#32

/-- The response of a command, added to the response port (30_encoding.md R106). -/
def State.respond (s : State) (err : Bool) (data : Word) : State := { s with resps := s.resps ++ [⟨err, data⟩] }

/-- The code of an error (60_exceptions.md R268). -/
def ErrCode.code : ErrCode → BitVec 8
  | .invalidInput => 1#8
  | .corruptContainer => 2#8
  | .encodingError => 3#8
  | .ioFailure => 4#8
  | .illegalCommand => 5#8
  | .sequenceError => 6#8
  | .bufferOverflow => 7#8

/-- `ERR` as its 8 bits, 0 when no error is recorded (10_state.md R39). -/
def State.errCode (s : State) : BitVec 8 := s.err.elim 0#8 ErrCode.code

/-- Every item of 10_state.md R45 at its reset value; the parameters and the ports are not items of R45. -/
def State.resetBlock (s : State) : State := State.atReset s.cfg s.cmds s.resps

/-- TAKING AN EXCEPTION: `error_entry(E, cmd)` of 60_exceptions.md R270, with its response. -/
def errorEntry (e : ErrCode) (cmd : Word) (s : State) : State :=
  ({ s.resetBlock with err := some e, errcmd := cmd }).respond true (zext32 e.code)

/-- The return from the error state: what the command `RESET` does to the block (60_exceptions.md R272,
40_system_buffer.md R132). -/
def errorReturn (s : State) : State := s.resetBlock

/-- A gated word: it "changes nothing" and is answered with the recorded code (60_exceptions.md R271,
30_encoding.md R107). -/
def ignored (s : State) : State := s.respond true (zext32 s.errCode)

/-- The end of a command: its response, or error entry with the whole command word (30_encoding.md R106,
60_exceptions.md R269, R270). -/
def conclude (cmd : Word) (s : State) : Op (State × Word) → Host.Outcome State Fault Refusal
  | .ok (t, v) => .next (t.respond false v)
  | .error (.raise e) => .next (errorEntry e cmd s)
  | .error (.fault f) => .fault f

/-- A command that the error state does not let through (60_exceptions.md R271, 40_system_buffer.md R130). -/
def runGated (cmd : Word) (op : State → Op (State × Word)) (s : State) : Host.Outcome State Fault Refusal :=
  match s.err with
  | none => conclude cmd s (op s)
  | some _ => .next (ignored s)

/-- A command that also runs in the error state (60_exceptions.md R271). -/
def runAlways (cmd : Word) (op : State → Op (State × Word)) (s : State) : Host.Outcome State Fault Refusal :=
  conclude cmd s (op s)

/-- An illegal word (30_encoding.md R105 (a), (b), R112): `ILLEGAL_COMMAND` when no error is recorded, ignored otherwise. -/
def runIllegal (cmd : Word) (s : State) : Host.Outcome State Fault Refusal :=
  runGated cmd (fun _ => raise .illegalCommand) s

/-! ## The command port -/

/-- The next word of the command port and the state after taking it (10_state.md R20, R22). -/
def takeCommand (s : State) : Option (Word × State) :=
  match s.cmds with
  | [] => none
  | w :: ws => some (w, { s with cmds := ws })

/-- The state with a word put where `step` takes its next command. -/
def putCommand (w : Word) (s : State) : State := { s with cmds := w :: s.cmds }

end Sys2Proof.Machine
end

