-- ==== Sys2Proof/Machine/Flags.lean ====
section
/-! DEFINITION. The status flags (10_state.md R40): the tests the commands make, the changes several commands share, the
`STATUS` word and the layout of every register (R41). -/

namespace Sys2Proof.Machine

open Sys2Proof

/-! ## Stage-flag tests, each raising `SEQUENCE_ERROR` (60_exceptions.md R266) -/

/-- `require FT_VALID = 1 else raise SEQUENCE_ERROR`. -/
def requireTable (s : State) : Op Unit := require s.ftValid .sequenceError

/-- `require TB_ACTIVE = 1 else raise SEQUENCE_ERROR`. -/
def requireBuild (s : State) : Op Unit := require s.tbActive .sequenceError

/-- `require TREE_VALID = 1 else raise SEQUENCE_ERROR`. -/
def requireTree (s : State) : Op Unit := require s.treeValid .sequenceError

/-- `require CT_VALID = 1 else raise SEQUENCE_ERROR`. -/
def requireCodes (s : State) : Op Unit := require s.ctValid .sequenceError

/-- `require CUR_VALID = 1 else raise SEQUENCE_ERROR`. -/
def requireCursor (s : State) : Op Unit := require s.curValid .sequenceError

/-! ## Shared changes -/

/-- A new table makes every later stage stale: `FT_VALID` set, `TB_ACTIVE`, `TREE_VALID`, `CT_VALID` cleared
(41_frequency_model.md R151, 45_container.md R227, 70_reset_and_hazards.md R295). -/
def State.withTable (s : State) (t : Table Nat) : State :=
  { s with ft := t, ftValid := true, tbActive := false, treeValid := false, ctValid := false }

/-- A build has completed with root `r` of frequency `f`: `ROOT`, `TOTAL` written, `TREE_VALID` set, `TB_ACTIVE` cleared
(42_tree_builder.md R164, R165). -/
def State.completeBuild (s : State) (r f : Nat) : State :=
  { s with root := r, total := f, treeValid := true, tbActive := false }

/-! ## The register map -/

/-- `ERROR`: "`ERR ≠ 0`; not stored, computed from `ERR`" (10_state.md R40). -/
def State.errorFlag (s : State) : Bool := s.err.isSome

/-- A flag in bit `k` of a register. -/
def flagBit (b : Bool) (k : Nat) : Word := if b then 1#32 <<< k else 0#32

/-- A register field of the given width at bit 0; fields not listed read as 0 (10_state.md R41). -/
def lowField (width n : Nat) : Word := BitVec.ofNat 32 (n % 2 ^ width)

/-- `STATUS` (10_state.md R41). -/
def State.status (s : State) : Word :=
  flagBit s.ftValid 0 ||| flagBit s.tbActive 1 ||| flagBit s.treeValid 2 ||| flagBit s.ctValid 3 |||
    flagBit s.curValid 4 ||| flagBit s.nothing 5 ||| flagBit s.errorFlag 6

/-- `PKSTATE`: `ACC` in bits 7:0, `NACC` in bits 10:8 (10_state.md R41). -/
def State.pkState (s : State) : Word := zext32 s.acc ||| (lowField 3 s.nacc <<< 8)

/-- The value of register `r` as R41 lays it out; `none` for the reserved numbers. -/
def State.register (s : State) (r : Nat) : Option Word :=
  match r with
  | 0 => some s.cfg.idValue
  | 1 => some s.status
  | 2 => some (zext32 s.errCode)
  | 3 => some s.errcmd
  | 4 => some (lowField 25 s.ilen)
  | 5 => some (lowField 25 s.olen)
  | 6 => some (lowField 9 s.nsym)
  | 7 => some (lowField 10 s.nextId)
  | 8 => some (lowField 9 s.pqLen)
  | 9 => some (lowField 9 s.root)
  | 10 => some (lowField 32 s.total)
  | 11 => some (lowField 8 (s.total / 2 ^ 32))
  | 12 => some (lowField 25 s.rpos)
  | 13 => some (lowField 28 s.bpos)
  | 14 => some (lowField 32 s.emitted)
  | 15 => some (lowField 8 (s.emitted / 2 ^ 32))
  | 16 => some s.pkState
  | 17 => some (lowField 25 s.cfg.ibufCap)
  | 18 => some (lowField 25 s.cfg.obufCap)
  | _ => none

end Sys2Proof.Machine
end

