-- ==== Sys2Proof/Machine/Operands.lean ====
section
/-! DEFINITION. The operands of commands: every operand is the unsigned value of its field, zero-extended (30_encoding.md
R103), and the legal range a command's rule gives its operand (R105 (c), 60_exceptions.md R265). -/

namespace Sys2Proof.Machine

open Sys2Proof

/-- An operand as the unsigned number it stands for (30_encoding.md R103). -/
def operand {n : Nat} (v : BitVec n) : Nat := v.toNat

/-- The operand of `PK_BIT`: a bit value (30_encoding.md R103). -/
def operandBit (b : BitVec 1) : Bool := b = 1#1

/-- `RD_REG r`: `r ≤ 18` (40_system_buffer.md R133). -/
def registerInRange (r : BitVec 8) : Bool := operand r ≤ lastRegister

/-- `IRD a`: `a < ILEN` (40_system_buffer.md R136). -/
def irdInRange (a : BitVec 24) (s : State) : Bool := operand a < s.ilen

/-- `ORD a`: `a < OLEN` (40_system_buffer.md R137). -/
def ordInRange (a : BitVec 24) (s : State) : Bool := operand a < s.olen

/-- `PQ_RD k`: `k < PQLEN` (42_tree_builder.md R167). -/
def rankInRange (k : BitVec 8) (s : State) : Bool := operand k < s.pqLen

/-- `ND_RD_LINK i`, `ND_RD_FLO i`, `ND_RD_FHI i`: `i < NEXTID` (42_tree_builder.md R168, R169, R170). -/
def nodeInRange (i : BitVec 9) (s : State) : Bool := operand i < s.nextId

/-- `UPK_SET a`: `a ≤ ILEN` (44_bit_packer.md R205). -/
def cursorInRange (a : BitVec 24) (s : State) : Bool := operand a ≤ s.ilen

end Sys2Proof.Machine
end

