-- ==== Sys2Proof/Machine/CodeTable.lean ====
section
/-! DEFINITION. The Code Table Generator (43_code_table.md R190 to R195). -/

namespace Sys2Proof.Machine

open Sys2Proof

/-- `walk(i, PATH)` of R191, from the table filled so far: '0' (false) is appended descending left, '1' (true) descending
right. The first argument bounds the depth; children have smaller ids than their parent (10_state.md R31), so `NEXTID` is
enough (log 11). -/
def walk (nodes : List Node) : Nat → Nat → List Bool → Table (List Bool) → Op (Table (List Bool))
  | 0, _, _, _ => noNode
  | depth + 1, i, path, ct => do
    match ← nodeAt nodes i with
    | .leaf b _ => .ok (ct.put b path)
    | .internal _ l r => do
      let ct ← walk nodes depth l (path ++ [false]) ct
      walk nodes depth r (path ++ [true]) ct

/-- The effect of `GENCODE` (R191); a Leaf at the root gets the one-bit code (R192). -/
def doGencode (s : State) : Op State := do
  requireTree s
  match ← nodeAt s.nodes s.root with
  | .leaf b _ => .ok { s with ct := Table.put [] b [s.cfg.singleCodeBit], ctValid := true }
  | .internal _ _ _ => do
    let ct ← walk s.nodes s.nextId s.root [] []
    .ok { s with ct := ct, ctValid := true }

/-- `GENCODE` (R191). -/
def opGencode (s : State) : Op (State × Word) := do
  let t ← doGencode s
  .ok (t, word t.nsym)

/-- `GENCODE` (R191). -/
def execGencode (s : State) : Host.Outcome State Fault Refusal := runGated (encode .gencode) opGencode s

/-- `CT_LEN s` (R193). -/
def opCtLen (b : BitVec 8) (s : State) : Op (State × Word) := do
  requireCodes s
  .ok (s, lowField 8 (s.ctl b))

/-- `CT_LEN s` (R193). -/
def execCtLen (b : BitVec 8) (s : State) : Host.Outcome State Fault Refusal := runGated (encode (.ctLen b)) (opCtLen b) s

/-- The 32 bits of a code from code bit `32·w` on, code bit `j` in bit `31 − (j mod 32)`, 0 beyond the code's end
(R194). -/
def codeWord (code : List Bool) (w : Nat) : Word :=
  (List.range 32).foldl (fun v j => v ||| flagBit ((code[32 * w + j]?).getD false) (31 - j)) 0#32

/-- `CT_BITS s, w` (R194). -/
def opCtBits (b : BitVec 8) (w : BitVec 3) (s : State) : Op (State × Word) := do
  requireCodes s
  .ok (s, codeWord (s.ctb b) (operand w))

/-- `CT_BITS s, w` (R194). -/
def execCtBits (b : BitVec 8) (w : BitVec 3) (s : State) : Host.Outcome State Fault Refusal :=
  runGated (encode (.ctBits b w)) (opCtBits b w) s

end Sys2Proof.Machine
end

