-- ==== Sys2Proof/Machine/Container.lean ====
section
/-! DEFINITION. The Container Codec: the header's layout, its writer and its parser (45_container.md R220 to R230). -/

namespace Sys2Proof.Machine

open Sys2Proof

/-! ## The layout (R220 to R223) -/

/-- The byte for the number of pairs: `n mod 256`, so that 0 stands for 256 (R221). -/
def sizeByte (n : Nat) : Byte := BitVec.ofNat 8 (n % 256)

/-- The number of pairs a size byte announces (R221, R227). -/
def pairsAnnounced (b : Byte) : Nat := if b = 0#8 then 256 else b.toNat

/-- The four bytes of a count under `FREQ_BYTE_ORDER` (R223, 20_memory.md R78). -/
def countBytesOf (o : ByteOrder) (count : Nat) : List Byte :=
  let f := word count
  let le := [f.extractLsb' 0 8, f.extractLsb' 8 8, f.extractLsb' 16 8, f.extractLsb' 24 8]
  match o with
  | .little => le
  | .big => le.reverse

/-- The 32-bit word of four bytes at rising offsets under `FREQ_BYTE_ORDER` (R223, R227). -/
def countWord (o : ByteOrder) (b0 b1 b2 b3 : Byte) : Word :=
  match o with
  | .little => b3 ++ b2 ++ b1 ++ b0
  | .big => b0 ++ b1 ++ b2 ++ b3

/-- The bytes of the pairs of a table, in ascending symbol order (R225, R226). -/
def pairBytes (o : ByteOrder) (t : Table Nat) : List Byte := t.flatMap (fun e => e.1 :: countBytesOf o e.2)

/-- The bytes of the header of a table (R220, R226). -/
def headerBytes (o : ByteOrder) (t : Table Nat) : List Byte := sizeByte t.length :: pairBytes o t

/-- The length of a header of `n` pairs (R220). -/
def headerLength (n : Nat) : Nat := 1 + 5 * n

/-! ## `HDR_WR` -/

/-- The effect of `HDR_WR` (R226). -/
def doHdrWr (s : State) : Op State := do
  requireTable s
  require (1 ≤ s.nsym) .invalidInput
  outBytes (headerBytes s.cfg.byteOrder s.ft) s

/-- `HDR_WR` (R226): the response is the number of bytes appended. -/
def opHdrWr (s : State) : Op (State × Word) := do
  let t ← doHdrWr s
  .ok (t, word (headerLength t.nsym))

/-- `HDR_WR` (R226). -/
def execHdrWr (s : State) : Host.Outcome State Fault Refusal := runGated (encode .hdrWr) opHdrWr s

/-! ## `HDR_RD` -/

/-- The loop of R227 over `n` pairs: a count with bit 31 set is negative (check (3), R229), a symbol listed twice is refused
(check (4)). The pairs may come in any order (R225). -/
def parsePairs (o : ByteOrder) : Nat → List Byte → Table Nat → Op (Table Nat)
  | 0, _, t => .ok t
  | n + 1, s :: b0 :: b1 :: b2 :: b3 :: rest, t => do
    let f := countWord o b0 b1 b2 b3
    require (!f.getLsbD 31) .corruptContainer
    require (Table.find t s).isNone .corruptContainer
    parsePairs o n rest (Table.put t s (f.extractLsb' 0 31).toNat)
  | _ + 1, _, _ => raise .corruptContainer

/-- The effect of `HDR_RD` (R227): checks (1), (2), (3) and (4), (5), then the table and the cursor. -/
def doHdrRd (s : State) : Op State :=
  match s.ibuf with
  | [] => raise .corruptContainer
  | size :: body => do
    let n := pairsAnnounced size
    require (headerLength n ≤ s.ilen) .corruptContainer
    let t ← parsePairs s.cfg.byteOrder n body []
    require (headerLength n < s.ilen) .corruptContainer
    .ok ((s.withTable t).setCursor (headerLength n))

/-- `HDR_RD` (R227): the response is the header's length. -/
def opHdrRd (s : State) : Op (State × Word) := do
  let t ← doHdrRd s
  .ok (t, word t.rpos)

/-- `HDR_RD` (R227). -/
def execHdrRd (s : State) : Host.Outcome State Fault Refusal := runGated (encode .hdrRd) opHdrRd s

end Sys2Proof.Machine
end

