-- ==== Sys2Proof/Machine/Frequency.lean ====
section
/-! DEFINITION. The Frequency Model (41_frequency_model.md R150 to R153). -/

namespace Sys2Proof.Machine

open Sys2Proof

/-- The Frequency Table of a byte sequence: each symbol that occurs, in ascending order, with its exact count
(R150, R151). -/
def countBytes (bytes : List Byte) : Table Nat :=
  allSymbols.filterMap (fun s => if bytes.count s = 0 then none else some (s, bytes.count s))

/-- The effect of `FREQ` (R151): the whole previous table is replaced. -/
def doFreq (s : State) : State := s.withTable (countBytes s.ibuf)

/-- `FREQ` (R151). -/
def opFreq (s : State) : Op (State × Word) := .ok (doFreq s, word (doFreq s).nsym)

/-- `FREQ` (R151). -/
def execFreq (s : State) : Host.Outcome State Fault Refusal := runGated (encode .freq) opFreq s

/-- The response of `FT_RD`: bit 31 the entry's presence, bits 30:0 its count (R152). -/
def tableEntryWord (present : Bool) (count : Nat) : Word := flagBit present 31 ||| lowField 31 count

/-- `FT_RD s` (R152). -/
def opFtRd (b : BitVec 8) (s : State) : Op (State × Word) := do
  requireTable s
  .ok (s, tableEntryWord (s.ftv b) (s.ftf b))

/-- `FT_RD s` (R152). -/
def execFtRd (b : BitVec 8) (s : State) : Host.Outcome State Fault Refusal := runGated (encode (.ftRd b)) (opFtRd b) s

end Sys2Proof.Machine
end

