-- ==== Sys2Proof/Machine/Packer.lean ====
section
/-! DEFINITION. The Bit Packer and Unpacker (44_bit_packer.md R200 to R209). -/

namespace Sys2Proof.Machine

open Sys2Proof

/-- `PK_BIT b` (R202): the response is the number of bits now waiting. -/
def opPkBit (b : BitVec 1) (s : State) : Op (State × Word) := do
  let t ← packBit (operandBit b) s
  .ok (t, lowField 3 t.nacc)

/-- `PK_BIT b` (R202). -/
def execPkBit (b : BitVec 1) (s : State) : Host.Outcome State Fault Refusal := runGated (encode (.pkBit b)) (opPkBit b) s

/-- The effect of `PK_FLUSH` (R203): nothing at a byte boundary, else the last byte with its zero padding. -/
def doPkFlush (s : State) : Op State :=
  if s.nacc = 0 then .ok s
  else do
    let t ← outByte s.acc s
    .ok { t with acc := 0#8, nacc := 0 }

/-- `PK_FLUSH` (R203): the response is the number of padding bits. -/
def opPkFlush (s : State) : Op (State × Word) := do
  let t ← doPkFlush s
  .ok (t, if s.nacc = 0 then word 0 else word (8 - s.nacc))

/-- `PK_FLUSH` (R203). -/
def execPkFlush (s : State) : Host.Outcome State Fault Refusal := runGated (encode .pkFlush) opPkFlush s

/-- `UPK_SET a` (R205). -/
def opUpkSet (a : BitVec 24) (s : State) : Op (State × Word) := do
  require (cursorInRange a s) .illegalCommand
  .ok (s.setCursor (operand a), word 0)

/-- `UPK_SET a` (R205). -/
def execUpkSet (a : BitVec 24) (s : State) : Host.Outcome State Fault Refusal :=
  runGated (encode (.upkSet a)) (opUpkSet a) s

/-- `UPK_BIT` (R206): `EOS` when no bit is left, which is not an error and changes nothing. -/
def opUpkBit (s : State) : Op (State × Word) := do
  requireCursor s
  if s.bitsLeft = 0 then .ok (s, eos)
  else .ok ((nextBit s).2, flagBit (nextBit s).1 0)

/-- `UPK_BIT` (R206). -/
def execUpkBit (s : State) : Host.Outcome State Fault Refusal := runGated (encode .upkBit) opUpkBit s

end Sys2Proof.Machine
end

