-- ==== Sys2Proof/Machine/Tree.lean ====
section
/-! DEFINITION. The Tree Builder: the priority queue with deterministic tie-break and the node arena
(42_tree_builder.md R160 to R170). -/

namespace Sys2Proof.Machine

open Sys2Proof

/-- The leaves of a table, one for each entry in ascending symbol order; leaf `i` gets id `i` (R164). -/
def leavesOf (t : Table Nat) : List Node := t.map (fun e => .leaf e.1 e.2)

/-- The effect of `TB_INIT` (R164): the previous arena, queue and id counter are discarded. -/
def doTbInit (s : State) : Op State := do
  requireTable s
  require (1 ≤ s.nsym) .invalidInput
  let t := { s with treeValid := false, ctValid := false, nodes := leavesOf s.ft, inq := List.range s.nsym }
  if t.pqLen = 1 then .ok (t.completeBuild 0 (freqAt t.nodes 0)) else .ok { t with tbActive := true }

/-- `TB_INIT` (R164). -/
def opTbInit (s : State) : Op (State × Word) := do
  let t ← doTbInit s
  .ok (t, word t.nsym)

/-- `TB_INIT` (R164). -/
def execTbInit (s : State) : Host.Outcome State Fault Refusal := runGated (encode .tbInit) opTbInit s

/-- The effect of `TB_STEP` (R165): the two minima become the left and right child of a new Internal, the first extracted
on the left; the merge that leaves one node completes the build. -/
def doTbStep (s : State) : Op State := do
  requireBuild s
  let (a, q1) ← extractMin s.nodes s.inq
  let (b, q2) ← extractMin s.nodes q1
  let na ← nodeAt s.nodes a
  let nb ← nodeAt s.nodes b
  let k := s.nextId
  let f := na.freq + nb.freq
  let t := { s with nodes := s.nodes ++ [.internal f a b], inq := pqInsert q2 k }
  if t.pqLen = 1 then .ok (t.completeBuild k f) else .ok t

/-- `TB_STEP` (R165): the response is the new node's id, with bit 31 set when the build is complete. -/
def opTbStep (s : State) : Op (State × Word) := do
  let t ← doTbStep s
  .ok (t, if t.pqLen = 1 then 0x80000000#32 ||| word s.nextId else word s.nextId)

/-- `TB_STEP` (R165). -/
def execTbStep (s : State) : Host.Outcome State Fault Refusal := runGated (encode .tbStep) opTbStep s

/-- `while TB_ACTIVE = 1: perform TB_STEP`, at most `n` times (R166; "the loop runs exactly `NSYM − 1` times"; log 11). -/
def buildLoop : Nat → State → Op State
  | 0, s => .ok s
  | n + 1, s => if s.tbActive then do buildLoop n (← doTbStep s) else .ok s

/-- The effect of `BUILD` (R166). -/
def doBuild (s : State) : Op State := do
  let t ← doTbInit s
  buildLoop (t.nsym - 1) t

/-- `BUILD` (R166). -/
def opBuild (s : State) : Op (State × Word) := do
  let t ← doBuild s
  .ok (t, word t.root)

/-- `BUILD` (R166). -/
def execBuild (s : State) : Host.Outcome State Fault Refusal := runGated (encode .build) opBuild s

/-- `PQ_RD k`: the member for which exactly `k` members come before it (R167). -/
def opPqRd (k : BitVec 8) (s : State) : Op (State × Word) := do
  require (rankInRange k s) .illegalCommand
  if queueBacked s.nodes s.inq then
    match memberOfRank s.nodes s.inq (operand k) with
    | some m => .ok (s, word m)
    | none => noNode
  else noNode

/-- `PQ_RD k` (R167). -/
def execPqRd (k : BitVec 8) (s : State) : Host.Outcome State Fault Refusal := runGated (encode (.pqRd k)) (opPqRd k) s

/-- The response of `ND_RD_LINK`: the symbol of a Leaf; for an Internal bit 31 set, `left` in bits 24:16 and `right` in
bits 8:0 (R168). -/
def linkWord : Node → Word
  | .leaf b _ => zext32 b
  | .internal _ l r => 0x80000000#32 ||| (lowField 9 l <<< 16) ||| lowField 9 r

/-- `ND_RD_LINK i` (R168). -/
def opNdRdLink (i : BitVec 9) (s : State) : Op (State × Word) := do
  require (nodeInRange i s) .illegalCommand
  let n ← nodeAt s.nodes (operand i)
  .ok (s, linkWord n)

/-- `ND_RD_LINK i` (R168). -/
def execNdRdLink (i : BitVec 9) (s : State) : Host.Outcome State Fault Refusal :=
  runGated (encode (.ndRdLink i)) (opNdRdLink i) s

/-- `ND_RD_FLO i`: `freq[31:0]` (R169). -/
def opNdRdFlo (i : BitVec 9) (s : State) : Op (State × Word) := do
  require (nodeInRange i s) .illegalCommand
  let n ← nodeAt s.nodes (operand i)
  .ok (s, lowField 32 n.freq)

/-- `ND_RD_FLO i` (R169). -/
def execNdRdFlo (i : BitVec 9) (s : State) : Host.Outcome State Fault Refusal :=
  runGated (encode (.ndRdFlo i)) (opNdRdFlo i) s

/-- `ND_RD_FHI i`: `freq[39:32]`, zero-extended (R170). -/
def opNdRdFhi (i : BitVec 9) (s : State) : Op (State × Word) := do
  require (nodeInRange i s) .illegalCommand
  let n ← nodeAt s.nodes (operand i)
  .ok (s, lowField 8 (n.freq / 2 ^ 32))

/-- `ND_RD_FHI i` (R170). -/
def execNdRdFhi (i : BitVec 9) (s : State) : Host.Outcome State Fault Refusal :=
  runGated (encode (.ndRdFhi i)) (opNdRdFhi i) s

end Sys2Proof.Machine
end

