-- ==== Sys2Proof/Machine/Orchestration.lean ====
section
/-! DEFINITION. Orchestration: encode and decode of one symbol, and the whole compress and decompress data flows
(46_orchestration.md R240 to R251). -/

namespace Sys2Proof.Machine

open Sys2Proof

/-! ## `ENC_SYM` -/

/-- The effect of `ENC_SYM s` (R240). -/
def doEncSym (b : Byte) (s : State) : Op State := do
  requireCodes s
  require (1 ≤ s.ctl b) .encodingError
  packBits (s.ctb b) s

/-- `ENC_SYM s` (R240): the response is the number of bits pushed. -/
def opEncSym (b : BitVec 8) (s : State) : Op (State × Word) := do
  let t ← doEncSym b s
  .ok (t, lowField 8 (s.ctl b))

/-- `ENC_SYM s` (R240). -/
def execEncSym (b : BitVec 8) (s : State) : Host.Outcome State Fault Refusal := runGated (encode (.encSym b)) (opEncSym b) s

/-! ## `DEC_SYM` -/

/-- The walk of R242 below an Internal with children `l` and `r`, with `bits` the number of payload bits left: no bit left
raises `CORRUPT_CONTAINER` (R245); a 1 bit descends right, a 0 bit left, until a Leaf is reached. -/
def decodeWalk : Nat → Nat → Nat → State → Op (Byte × State)
  | 0, _, _, _ => raise .corruptContainer
  | bits + 1, l, r, s => do
    let (b, t) := nextBit s
    match ← nodeAt t.nodes (if b then r else l) with
    | .leaf sym _ => .ok (sym, t)
    | .internal _ l' r' => decodeWalk bits l' r' t

/-- One symbol taken from the payload (R242); a Leaf at the root takes one bit, which must be the code bit (R244). -/
def takeSymbol (s : State) : Op (Byte × State) := do
  match ← nodeAt s.nodes s.root with
  | .leaf sym _ => do
    require (0 < s.bitsLeft) .corruptContainer
    let (b, t) := nextBit s
    require (b == s.cfg.singleCodeBit) .corruptContainer
    .ok (sym, t)
  | .internal _ l r => decodeWalk s.bitsLeft l r s

/-- The effect of `DEC_SYM` with its response (R242): `EOS` when `TOTAL` symbols have been produced (R243). -/
def opDecSym (s : State) : Op (State × Word) := do
  require (s.treeValid && s.curValid) .sequenceError
  if s.total ≤ s.emitted then .ok (s, eos)
  else do
    let (sym, t) ← takeSymbol s
    let u ← outByte sym t
    .ok ({ u with emitted := u.emitted + 1 }, zext32 sym)

/-- `DEC_SYM` (R242). -/
def execDecSym (s : State) : Host.Outcome State Fault Refusal := runGated (encode .decSym) opDecSym s

/-! ## `COMPRESS` -/

/-- `for a in 0 .. ILEN-1: perform ENC_SYM IBUF[a]` (R246). -/
def encodeAll : List Byte → State → Op State
  | [], s => .ok s
  | b :: bs, s => do encodeAll bs (← doEncSym b s)

/-- The effect of `COMPRESS` (R246); an empty input is not an error and sets `NOTHING` (R247). -/
def doCompress (s : State) : Op State :=
  let s1 := doFreq { s with nothing := false }
  let s2 := { s1 with obuf := [], acc := 0#8, nacc := 0 }
  if s2.ilen = 0 then .ok { s2 with nothing := true }
  else do
    let s3 ← doBuild s2
    let s4 ← doGencode s3
    let s5 ← doHdrWr s4
    let s6 ← encodeAll s5.ibuf s5
    doPkFlush s6

/-- `COMPRESS` (R246): the response is the container's length, 0 for an empty input. -/
def opCompress (s : State) : Op (State × Word) := do
  let t ← doCompress s
  .ok (t, word t.olen)

/-- `COMPRESS` (R246). -/
def execCompress (s : State) : Host.Outcome State Fault Refusal := runGated (encode .compress) opCompress s

/-! ## `DECOMPRESS` -/

/-- `while EMITTED < TOTAL: perform DEC_SYM` (R248), at most `n + 1` times. Each `DEC_SYM` that ends without an error takes
at least one payload bit, so with `n` the number of payload bits the loop never ends early (log 11). -/
def decodeLoop : Nat → State → Op State
  | 0, s => if s.emitted < s.total then do .ok (← opDecSym s).1 else .ok s
  | n + 1, s => if s.emitted < s.total then do decodeLoop n (← opDecSym s).1 else .ok s

/-- The effect of `DECOMPRESS` (R248). -/
def doDecompress (s : State) : Op State := do
  let s1 ← doHdrRd { s with nothing := false }
  let s2 ← doBuild s1
  let s3 := { s2 with obuf := [] }
  decodeLoop s3.bitsLeft s3

/-- `DECOMPRESS` (R248): the response is the length of the output. -/
def opDecompress (s : State) : Op (State × Word) := do
  let t ← doDecompress s
  .ok (t, word t.olen)

/-- `DECOMPRESS` (R248). -/
def execDecompress (s : State) : Host.Outcome State Fault Refusal := runGated (encode .decompress) opDecompress s

end Sys2Proof.Machine
end

