-- ==== Sys2Proof/Machine/System.lean ====
section
/-! DEFINITION. System and buffer-access commands (40_system_buffer.md R130 to R139). Each `op…` is the Operation of a rule;
each `exec…` is the command: the Operation under the gating of 60_exceptions.md R271, with its response or error entry. -/

namespace Sys2Proof.Machine

open Sys2Proof

/-- `NOP` (R131). -/
def opNop (s : State) : Op (State × Word) := .ok (s, word 0)

/-- `NOP` runs also in the error state (R131, R271). -/
def execNop (s : State) : Host.Outcome State Fault Refusal := runAlways (encode .nop) opNop s

/-- `RESET`: every item of 10_state.md R45 to its reset value, `ERR` and `ERRCMD` included (R132). -/
def opReset (s : State) : Op (State × Word) := .ok (errorReturn s, word 0)

/-- `RESET` runs also in the error state and is the only way out of it (R132, R272). -/
def execReset (s : State) : Host.Outcome State Fault Refusal := runAlways (encode .reset) opReset s

/-- `RD_REG r` (R133): no register beyond number 18 exists. -/
def opRdReg (r : BitVec 8) (s : State) : Op (State × Word) := do
  require (registerInRange r) .illegalCommand
  match s.register (operand r) with
  | some v => .ok (s, v)
  | none => raise .illegalCommand

/-- `RD_REG r` with `r ≤ 18` runs also in the error state; with a larger `r` it is ignored there (R133, R271). -/
def execRdReg (r : BitVec 8) (s : State) : Host.Outcome State Fault Refusal :=
  if registerInRange r then runAlways (encode (.rdReg r)) (opRdReg r) s else runGated (encode (.rdReg r)) (opRdReg r) s

/-- `IPUSH b` (R134). -/
def opIpush (b : BitVec 8) (s : State) : Op (State × Word) := do
  require (s.ilen < s.cfg.ibufCap) .bufferOverflow
  let t := { s with ibuf := s.ibuf ++ [b] }
  .ok (t, word t.ilen)

/-- `IPUSH b` (R134). -/
def execIpush (b : BitVec 8) (s : State) : Host.Outcome State Fault Refusal := runGated (encode (.ipush b)) (opIpush b) s

/-- `ICLR` (R135). -/
def opIclr (s : State) : Op (State × Word) := .ok ({ s with ibuf := [] }.dropCursor, word 0)

/-- `ICLR` (R135). -/
def execIclr (s : State) : Host.Outcome State Fault Refusal := runGated (encode .iclr) opIclr s

/-- `IRD a` (R136): a byte at or beyond `ILEN` holds no value and is not read. -/
def opIrd (a : BitVec 24) (s : State) : Op (State × Word) := do
  require (irdInRange a s) .illegalCommand
  match Buffer.read s.ibuf (operand a) with
  | some b => .ok (s, zext32 b)
  | none => raise .illegalCommand

/-- `IRD a` (R136). -/
def execIrd (a : BitVec 24) (s : State) : Host.Outcome State Fault Refusal := runGated (encode (.ird a)) (opIrd a) s

/-- `ORD a` (R137): a byte at or beyond `OLEN` holds no value and is not read. -/
def opOrd (a : BitVec 24) (s : State) : Op (State × Word) := do
  require (ordInRange a s) .illegalCommand
  match Buffer.read s.obuf (operand a) with
  | some b => .ok (s, zext32 b)
  | none => raise .illegalCommand

/-- `ORD a` (R137). -/
def execOrd (a : BitVec 24) (s : State) : Host.Outcome State Fault Refusal := runGated (encode (.ord a)) (opOrd a) s

/-- `OCLR` (R138). -/
def opOclr (s : State) : Op (State × Word) := .ok ({ s with obuf := [] }, word 0)

/-- `OCLR` (R138). -/
def execOclr (s : State) : Host.Outcome State Fault Refusal := runGated (encode .oclr) opOclr s

/-- `O2I` (R139). -/
def opO2i (s : State) : Op (State × Word) := do
  require (s.olen ≤ s.cfg.ibufCap) .bufferOverflow
  let t := { s with ibuf := s.obuf, obuf := [] }.dropCursor
  .ok (t, word t.ilen)

/-- `O2I` (R139). -/
def execO2i (s : State) : Host.Outcome State Fault Refusal := runGated (encode .o2i) opO2i s

end Sys2Proof.Machine
end

