-- ==== Sys2Proof/Machine/Dispatch.lean ====
section
/-! DEFINITION. One arm for each command of 30_encoding.md R104. -/

namespace Sys2Proof.Machine

open Sys2Proof

/-- The meaning of each command. -/
def exec (i : Instr) (s : State) : Host.Outcome State Fault Refusal :=
  match i with
  | .nop => Sys2Proof.Machine.execNop s
  | .reset => Sys2Proof.Machine.execReset s
  | .rdReg r => Sys2Proof.Machine.execRdReg r s
  | .ipush b => Sys2Proof.Machine.execIpush b s
  | .iclr => Sys2Proof.Machine.execIclr s
  | .ird a => Sys2Proof.Machine.execIrd a s
  | .ord a => Sys2Proof.Machine.execOrd a s
  | .oclr => Sys2Proof.Machine.execOclr s
  | .o2i => Sys2Proof.Machine.execO2i s
  | .freq => Sys2Proof.Machine.execFreq s
  | .ftRd b => Sys2Proof.Machine.execFtRd b s
  | .build => Sys2Proof.Machine.execBuild s
  | .tbInit => Sys2Proof.Machine.execTbInit s
  | .tbStep => Sys2Proof.Machine.execTbStep s
  | .pqRd k => Sys2Proof.Machine.execPqRd k s
  | .ndRdLink n => Sys2Proof.Machine.execNdRdLink n s
  | .ndRdFlo n => Sys2Proof.Machine.execNdRdFlo n s
  | .ndRdFhi n => Sys2Proof.Machine.execNdRdFhi n s
  | .gencode => Sys2Proof.Machine.execGencode s
  | .ctLen b => Sys2Proof.Machine.execCtLen b s
  | .ctBits b w => Sys2Proof.Machine.execCtBits b w s
  | .pkBit b => Sys2Proof.Machine.execPkBit b s
  | .pkFlush => Sys2Proof.Machine.execPkFlush s
  | .upkSet a => Sys2Proof.Machine.execUpkSet a s
  | .upkBit => Sys2Proof.Machine.execUpkBit s
  | .hdrWr => Sys2Proof.Machine.execHdrWr s
  | .hdrRd => Sys2Proof.Machine.execHdrRd s
  | .encSym b => Sys2Proof.Machine.execEncSym b s
  | .decSym => Sys2Proof.Machine.execDecSym s
  | .compress => Sys2Proof.Machine.execCompress s
  | .decompress => Sys2Proof.Machine.execDecompress s

end Sys2Proof.Machine
end

