-- ==== Sys2Proof/Machine/Step.lean ====
section
/-! DEFINITION. One step of the machine: the next word of the command port is taken, decoded and run; with no word waiting
the machine holds its state (10_state.md R20, R22; 30_encoding.md R112; 60_exceptions.md R282). -/

namespace Sys2Proof.Machine

open Sys2Proof

/-- One step. -/
def step (s : State) : Host.Outcome State Fault Refusal :=
  match takeCommand s with
  | none => .next s
  | some (w, t) =>
    match decode w with
    | .ok i => exec i t
    | .error _ => runIllegal w t

/-- The state with the table's word put where `step` takes its next command (log 2). -/
def State.withFetchWord (s : State) (nbits w : Nat) : State := putCommand (tableWord nbits w) s

end Sys2Proof.Machine
end

