-- ==== Sys2Proof/Machine/Assembler.lean ====
section
/-! DEFINITION. The assembler of 30_encoding.md R110 and R111: a line's text to its tokens, the tokens to a command or a
pseudo-instruction, and that to command words. No definition of the machine uses this file. -/

namespace Sys2Proof

/-- An operand as R110 writes it. -/
inductive AsmOperand where
  /-- A number, decimal or hexadecimal. -/
  | number (n : Nat)
  /-- A character literal, "standing for its ASCII byte value". -/
  | character (c : Char)
  deriving DecidableEq, Repr

/-- One line: a command of R104 or a pseudo-instruction of R111. -/
inductive AsmLine where
  | command (mnemonic : String) (operands : List AsmOperand)
  /-- `IPUSHS "text"`. -/
  | ipushs (text : List Char)
  /-- `IPUSHB b0 b1 ... bn`. -/
  | ipushb (bytes : List AsmOperand)
  | rdStatus
  | rdErr
  | rdIlen
  | rdOlen
  deriving DecidableEq, Repr

/-- The number an ASCII character stands for; a character outside ASCII is refused. -/
def asciiValue (c : Char) : Option Nat := if c.toNat < 128 then some c.toNat else none

/-- The number an operand stands for. -/
def AsmOperand.value : AsmOperand → Option Nat
  | .number n => some n
  | .character c => asciiValue c

/-- An operand placed in its field, refused when it "does not fit its field" (R110). -/
def AsmOperand.field (width : Nat) (o : AsmOperand) : Option (BitVec width) :=
  match o.value with
  | some n => if n < 2 ^ width then some (BitVec.ofNat width n) else none
  | none => none

/-- The command of a mnemonic and its operands (R104, R110). -/
def assembleCommand (mnemonic : String) (operands : List AsmOperand) : Option Instr :=
  match mnemonic, operands with
  | "NOP", [] => some .nop
  | "RESET", [] => some .reset
  | "RD_REG", [r] => (r.field 8).map .rdReg
  | "IPUSH", [b] => (b.field 8).map .ipush
  | "ICLR", [] => some .iclr
  | "IRD", [a] => (a.field 24).map .ird
  | "ORD", [a] => (a.field 24).map .ord
  | "OCLR", [] => some .oclr
  | "O2I", [] => some .o2i
  | "FREQ", [] => some .freq
  | "FT_RD", [s] => (s.field 8).map .ftRd
  | "BUILD", [] => some .build
  | "TB_INIT", [] => some .tbInit
  | "TB_STEP", [] => some .tbStep
  | "PQ_RD", [k] => (k.field 8).map .pqRd
  | "ND_RD_LINK", [i] => (i.field 9).map .ndRdLink
  | "ND_RD_FLO", [i] => (i.field 9).map .ndRdFlo
  | "ND_RD_FHI", [i] => (i.field 9).map .ndRdFhi
  | "GENCODE", [] => some .gencode
  | "CT_LEN", [s] => (s.field 8).map .ctLen
  | "CT_BITS", [s, w] =>
    match s.field 8, w.field 3 with
    | some s, some w => some (.ctBits s w)
    | _, _ => none
  | "PK_BIT", [b] => (b.field 1).map .pkBit
  | "PK_FLUSH", [] => some .pkFlush
  | "UPK_SET", [a] => (a.field 24).map .upkSet
  | "UPK_BIT", [] => some .upkBit
  | "HDR_WR", [] => some .hdrWr
  | "HDR_RD", [] => some .hdrRd
  | "ENC_SYM", [s] => (s.field 8).map .encSym
  | "DEC_SYM", [] => some .decSym
  | "COMPRESS", [] => some .compress
  | "DECOMPRESS", [] => some .decompress
  | _, _ => none

/-- One `IPUSH` for each operand, in order (R111). -/
def assemblePushes : List AsmOperand → Option (List Instr)
  | [] => some []
  | o :: os =>
    match o.field 8, assemblePushes os with
    | some b, some is => some (.ipush b :: is)
    | _, _ => none

/-- The command words of a parsed line (R110, R111). -/
def assembleLine : AsmLine → Option (List Word)
  | .command m os => (assembleCommand m os).map (fun i => [encode i])
  | .ipushs text => (assemblePushes (text.map .character)).map (·.map encode)
  | .ipushb bytes => (assemblePushes bytes).map (·.map encode)
  | .rdStatus => some [encode (.rdReg 1#8)]
  | .rdErr => some [encode (.rdReg 2#8)]
  | .rdIlen => some [encode (.rdReg 4#8)]
  | .rdOlen => some [encode (.rdReg 5#8)]

/-! ## The text of a line (R110) -/

/-- A piece of a line. -/
inductive AsmToken where
  /-- Characters up to the next space, comma or quote: a mnemonic or a number. -/
  | chars (cs : List Char)
  | comma
  /-- A character literal in single quotes. -/
  | literal (c : Char)
  /-- Text in double quotes. -/
  | text (cs : List Char)
  deriving DecidableEq, Repr

/-- Where the scan of a line stands. -/
inductive AsmScan where
  | between
  | inChars (cs : List Char)
  | inLiteral (c : Option Char)
  | inText (cs : List Char)
  | inComment
  deriving DecidableEq, Repr

/-- The single quote. -/
def asmQuote : Char := Char.ofNat 39

/-- The double quote. -/
def asmDoubleQuote : Char := Char.ofNat 34

/-- The scan outside quotes and comments, `done` being the tokens so far: `;` starts a comment. Which characters count as a
space is the model's choice (log 12). -/
def scanOutside (done : List AsmToken) (c : Char) : AsmScan × List AsmToken :=
  if c = ' ' then (.between, done)
  else if c = ',' then (.between, done ++ [.comma])
  else if c = ';' then (.inComment, done)
  else if c = asmQuote then (.inLiteral none, done)
  else if c = asmDoubleQuote then (.inText [], done)
  else (.inChars [c], done)

/-- One character of the scan; `none` when a literal holds more than one character. That a `;` inside quotes is that
character, that quoted text ends at the first double quote and can hold none, and that there are no escapes and a
control character is itself is the model's choice, where R110 and R111 are silent (DESIGN CHOICE, log 12). -/
def scanChar (done : List AsmToken) (c : Char) : AsmScan → Option (AsmScan × List AsmToken)
  | .between => some (scanOutside done c)
  | .inChars cs =>
    if c = ' ' ∨ c = ',' ∨ c = ';' ∨ c = asmQuote ∨ c = asmDoubleQuote then some (scanOutside (done ++ [.chars cs]) c)
    else some (.inChars (cs ++ [c]), done)
  | .inLiteral none => some (.inLiteral (some c), done)
  | .inLiteral (some c') => if c = asmQuote then some (.between, done ++ [.literal c']) else none
  | .inText cs => if c = asmDoubleQuote then some (.between, done ++ [.text cs]) else some (.inText (cs ++ [c]), done)
  | .inComment => some (.inComment, done)

/-- The tokens of a line; `none` when a quote is left open. -/
def scanLine : List Char → AsmScan → List AsmToken → Option (List AsmToken)
  | [], .between, done => some done
  | [], .inComment, done => some done
  | [], .inChars cs, done => some (done ++ [.chars cs])
  | [], .inLiteral _, _ => none
  | [], .inText _, _ => none
  | c :: cs, m, done =>
    match scanChar done c m with
    | some (m', done') => scanLine cs m' done'
    | none => none

/-- The value of a digit in the given base. -/
def digitValue (base : Nat) (c : Char) : Option Nat :=
  let n := c.toNat
  let v := if 48 ≤ n ∧ n ≤ 57 then n - 48 else if 65 ≤ n ∧ n ≤ 70 then n - 55 else if 97 ≤ n ∧ n ≤ 102 then n - 87 else 16
  if v < base then some v else none

/-- The number a sequence of digits stands for, after a part of value `acc`. -/
def digitsValue (base : Nat) : Nat → List Char → Option Nat
  | acc, [] => some acc
  | acc, c :: cs =>
    match digitValue base c with
    | some v => digitsValue base (base * acc + v) cs
    | none => none

/-- A number: hexadecimal after `0x`, else in the given base (R110); that no digit is no number, that the `x` is a small one
and that digits may be of either case is log 12. -/
def numberValue (base : Nat) : List Char → Option Nat
  | [] => none
  | ['0', 'x'] => none
  | '0' :: 'x' :: cs => digitsValue 16 0 cs
  | cs => digitsValue base 0 cs

/-- The operand a token stands for. -/
def tokenOperand (base : Nat) : AsmToken → Option AsmOperand
  | .chars cs => (numberValue base cs).map .number
  | .literal c => some (.character c)
  | .comma => none
  | .text _ => none

/-- Operands separated by a comma (R110). -/
def commaOperands : List AsmToken → Option (List AsmOperand)
  | [] => some []
  | [t] => (tokenOperand 10 t).map (fun o => [o])
  | t :: .comma :: u :: ts =>
    match tokenOperand 10 t, commaOperands (u :: ts) with
    | some o, some os => some (o :: os)
    | _, _ => none
  | _ => none

/-- Operands separated by spaces: the bytes of `IPUSHB`, hexadecimal as the programs of 95_test_vectors.md write them
(R111; log 12). R111 gives `IPUSHB` only with at least one byte; that it is accepted with none, and then pushes nothing, is the
model's choice (DESIGN CHOICE, log 12). -/
def spaceOperands : List AsmToken → Option (List AsmOperand)
  | [] => some []
  | t :: ts =>
    match tokenOperand 16 t, spaceOperands ts with
    | some o, some os => some (o :: os)
    | _, _ => none

/-- The line its tokens stand for; an empty line or a comment alone is `some none` (log 12). -/
def parseLine : List AsmToken → Option (Option AsmLine)
  | [] => some none
  | [.chars ['I', 'P', 'U', 'S', 'H', 'S'], .text cs] => some (some (.ipushs cs))
  | .chars ['I', 'P', 'U', 'S', 'H', 'B'] :: ts => (spaceOperands ts).map (fun os => some (.ipushb os))
  | [.chars ['R', 'D', '_', 'S', 'T', 'A', 'T', 'U', 'S']] => some (some .rdStatus)
  | [.chars ['R', 'D', '_', 'E', 'R', 'R']] => some (some .rdErr)
  | [.chars ['R', 'D', '_', 'I', 'L', 'E', 'N']] => some (some .rdIlen)
  | [.chars ['R', 'D', '_', 'O', 'L', 'E', 'N']] => some (some .rdOlen)
  | .chars m :: ts => (commaOperands ts).map (fun os => some (.command (String.ofList m) os))
  | _ => none

/-- The command words of one line of text; `none` when the assembler refuses it (R110, R111). -/
def assembleText (line : List Char) : Option (List Word) :=
  match scanLine line .between [] with
  | none => none
  | some ts =>
    match parseLine ts with
    | none => none
    | some none => some []
    | some (some l) => assembleLine l

end Sys2Proof
end

