-- ==== Sys2Proof/Safety.lean ====
section
/-! DEFINITION. What counts as a good state of HCC (10_state.md R31, R36, R44), and the words the statements use about bit
streams and codes. No definition of the machine uses this file. -/

namespace Sys2Proof.Machine

open Sys2Proof

/-! ## The arena as a forest (10_state.md R31) -/

/-- The children of a node, left first. -/
def Node.children : Node → List Nat
  | .leaf _ _ => []
  | .internal _ l r => [l, r]

/-- `kind = 1`. -/
def Node.isInternal : Node → Bool
  | .leaf _ _ => false
  | .internal _ _ _ => true

/-- The sum of all counts of a table (10_state.md R33, 42_tree_builder.md R171 (c)). -/
def countSum (t : Table Nat) : Nat := (t.map (·.2)).sum

/-- The sum of the frequencies of the members of the queue. -/
def queueSum (nodes : List Node) (inq : List Nat) : Nat := (inq.map (freqAt nodes)).sum

/-- R31 in arena terms, and what an Internal's frequency is (R28): the children of an Internal have smaller ids than it and
differ, its frequency is the sum of theirs, and every node is either in the queue or the child of exactly one Internal. -/
structure ArenaOk (nodes : List Node) (inq : List Nat) : Prop where
  descends : ∀ (k f l r : Nat), nodes[k]? = some (Node.internal f l r) → l < k ∧ r < k ∧ l ≠ r
  sums : ∀ (k f l r : Nat), nodes[k]? = some (Node.internal f l r) → f = freqAt nodes l + freqAt nodes r
  owned : (nodes.flatMap Node.children ++ inq).Perm (List.range nodes.length)
  ascending : inq.Pairwise (· < ·)

/-- The arena belongs to the table: first a Leaf for each entry in ascending symbol order, then Internals
(42_tree_builder.md R164, R171 (a)). -/
structure ArenaOf (t : Table Nat) (nodes : List Node) : Prop where
  leaves : nodes.take t.length = leavesOf t
  internals : ∀ n ∈ nodes.drop t.length, n.isInternal = true

/-! ## The invariant -/

/-- What holds after reset and after every command (10_state.md R44), with the widths of R36 and the parts of R26, R31, R33,
R37, R38, R39 and R40 that make it inductive. -/
structure State.Inv (s : State) : Prop where
  /-- 00_scope.md R9. -/
  bounded : s.cfg.Bounded
  /-- R44 (a). -/
  input : s.ilen ≤ s.cfg.ibufCap
  /-- R44 (a). -/
  output : s.olen ≤ s.cfg.obufCap
  /-- R26: entries in the table's one form, counts in 31 bits. -/
  table : s.ft.wf = true
  counts : ∀ e ∈ s.ft, e.2 < 2 ^ 31
  /-- R34, R36 (e). -/
  codes : s.ct.wf = true
  codeLengths : ∀ e ∈ s.ct, 1 ≤ e.2.length ∧ e.2.length ≤ 255
  /-- R44 (c), R31. -/
  arena : ArenaOk s.nodes s.inq
  /-- R36 (d): `NEXTID ≤ 511`. -/
  arenaSize : s.nextId ≤ 511
  /-- R36 (b): frequencies and `TOTAL` in 40 bits, `ROOT` in 9 bits. -/
  freqs : ∀ n ∈ s.nodes, n.freq < 2 ^ 40
  totals : s.total < 2 ^ 40
  roots : s.root < 2 ^ 9
  /-- R44 (d), with what a build in progress has reached. -/
  building : s.tbActive = true → s.ftValid = true ∧ s.treeValid = false ∧ 2 ≤ s.pqLen ∧
    s.nextId + s.pqLen = 2 * s.nsym ∧ ArenaOf s.ft s.nodes ∧ queueSum s.nodes s.inq = countSum s.ft
  /-- R44 (e), R33, R171. -/
  built : s.treeValid = true → s.ftValid = true ∧ s.tbActive = false ∧ 1 ≤ s.nsym ∧ s.nextId = 2 * s.nsym - 1 ∧
    s.root = s.nextId - 1 ∧ s.inq = [s.root] ∧ ArenaOf s.ft s.nodes ∧ s.total = freqAt s.nodes s.root ∧
    s.total = countSum s.ft
  /-- R44 (f). -/
  coded : s.ctValid = true → s.treeValid = true ∧ ∀ b, 1 ≤ s.ctl b ↔ s.ftv b = true
  /-- R40: "`CTL`/`CTB` hold the Code Table of the current tree"; R191 (d). -/
  current : s.ctValid = true → doGencode s = .ok s
  /-- R44 (g). -/
  cursor : s.curValid = true → s.rpos ≤ s.ilen ∧ s.bpos ≤ 8 * (s.ilen - s.rpos)
  /-- R40: what clears `CUR_VALID` clears the cursor. -/
  noCursor : s.curValid = false → s.rpos = 0 ∧ s.bpos = 0 ∧ s.emitted = 0
  /-- R36 (c). -/
  emittedBits : s.emitted ≤ s.bpos
  /-- R44 (h). -/
  packer : s.nacc < 8 ∧ s.acc.toNat % 2 ^ (8 - s.nacc) = 0
  /-- R44 (i). -/
  wiped : s.err ≠ none → s = { s.resetBlock with err := s.err, errcmd := s.errcmd }
  /-- R39: `ERRCMD` is 0 when no error is recorded. -/
  noError : s.err = none → s.errcmd = 0#32
  /-- R264: code 4 is never raised. -/
  noIoFailure : s.err ≠ some .ioFailure

/-! ## Bit streams (20_memory.md R77, 44_bit_packer.md R200, R204, R209) -/

/-- The 8 bits of a byte, most significant bit first. -/
def bitsOfByte (b : Byte) : List Bool := (List.range 8).map (fun j => b.getLsbD (7 - j))

/-- The bit sequence of a byte sequence: each byte's bits, most significant first, in byte order (R77, R204). -/
def bitsOf (bytes : List Byte) : List Bool := bytes.flatMap bitsOfByte

/-- The number of zero bits that complete the last byte of a bit sequence of length `n` (R209). -/
def padCount (n : Nat) : Nat := (8 - n % 8) % 8

/-- A bit sequence right-padded with zero bits to whole bytes (R200, R209). -/
def padded (q : List Bool) : List Bool := q ++ List.replicate (padCount q.length) false

/-- The bits waiting in the packer, oldest first (10_state.md R35). -/
def State.waiting (s : State) : List Bool := (List.range s.nacc).map (fun j => s.acc.getLsbD (7 - j))

/-- The output as a bit sequence: the bits of `OBUF`, then the bits waiting in the packer. -/
def State.outputBits (s : State) : List Bool := bitsOf s.obuf ++ s.waiting

/-- The payload as a bit sequence (44_bit_packer.md R204). -/
def State.payloadBits (s : State) : List Bool := bitsOf (s.ibuf.drop s.rpos)

/-! ## Codes of an input (46_orchestration.md R246, R250) -/

/-- The reset state with a Frequency Table loaded. -/
def State.freshTable (cfg : Config) (t : Table Nat) : State :=
  { State.atReset cfg [] [] with ft := t, ftValid := true }

/-- The Code Table of a Frequency Table: what `BUILD` and `GENCODE` make of it, from the reset state. -/
def codeTableOf (cfg : Config) (t : Table Nat) : Table (List Bool) :=
  match (do doGencode (← doBuild (State.freshTable cfg t))) with
  | .ok u => u.ct
  | .error _ => []

/-- The codes of the bytes of an input, concatenated in input order (45_container.md R224). -/
def codeBits (cfg : Config) (input : List Byte) : List Bool :=
  input.flatMap (fun b => ((codeTableOf cfg (countBytes input)).find b).getD [])

/-- The length of the container of an input (45_container.md R230). -/
def containerLength (cfg : Config) (input : List Byte) : Nat :=
  headerLength (countBytes input).length + ((codeBits cfg input).length + 7) / 8

/-- Neither of two codes is a prefix of the other (43_code_table.md R195). -/
def PrefixFree (t : Table (List Bool)) : Prop :=
  ∀ a b p q, t.find a = some p → t.find b = some q → a ≠ b → ¬ p <+: q

/-! ## Codes as paths (43_code_table.md R190 to R192) -/

/-- `q` is the path from node `i` down to a Leaf of the symbol: '0' (false) descends left, '1' (true) right (R190). -/
def PathTo (nodes : List Node) : Nat → List Bool → Byte → Prop
  | i, [], b => ∃ f, nodes[i]? = some (Node.leaf b f)
  | i, x :: q, b => ∃ f l r, nodes[i]? = some (Node.internal f l r) ∧ PathTo nodes (if x then r else l) q b

/-- `q` is the code the tree gives the symbol: its path from the root, or the one-bit code when the root is its Leaf (R190,
R192). -/
def State.treeCode (s : State) (b : Byte) (q : List Bool) : Prop :=
  ((∃ f, s.nodes[s.root]? = some (Node.leaf b f)) ∧ q = [s.cfg.singleCodeBit]) ∨ (q ≠ [] ∧ PathTo s.nodes s.root q b)

/-! ## Reset, errors, sequences of commands -/

/-- Every item of 10_state.md R45 has its reset value. -/
structure State.IsReset (s : State) : Prop where
  lengths : s.ilen = 0 ∧ s.olen = 0
  table : (∀ b, s.ftv b = false ∧ s.ftf b = 0) ∧ s.nsym = 0
  tree : s.nextId = 0 ∧ s.pqLen = 0 ∧ (∀ i, i ∉ s.inq) ∧ s.root = 0 ∧ s.total = 0
  codes : (∀ b, s.ctl b = 0) ∧ s.ct = []
  packer : s.acc = 0#8 ∧ s.nacc = 0
  cursor : s.rpos = 0 ∧ s.bpos = 0 ∧ s.emitted = 0
  error : s.errCode = 0#8 ∧ s.errcmd = 0#32
  flags : s.ftValid = false ∧ s.tbActive = false ∧ s.treeValid = false ∧ s.ctValid = false ∧ s.curValid = false ∧
    s.nothing = false

/-- The errors a command can raise, by the "raised by" column of 60_exceptions.md R268. -/
def raisable : Instr → List ErrCode
  | .nop | .reset | .iclr | .oclr | .freq => []
  | .rdReg _ | .ird _ | .ord _ | .pqRd _ | .ndRdLink _ | .ndRdFlo _ | .ndRdFhi _ | .upkSet _ => [.illegalCommand]
  | .ipush _ | .o2i | .pkBit _ | .pkFlush | .compress => [.bufferOverflow]
  | .ftRd _ | .tbStep | .gencode | .ctLen _ | .ctBits _ _ | .upkBit => [.sequenceError]
  | .build | .tbInit => [.invalidInput, .sequenceError]
  | .hdrWr => [.invalidInput, .sequenceError, .bufferOverflow]
  | .hdrRd => [.corruptContainer]
  | .encSym _ => [.encodingError, .sequenceError, .bufferOverflow]
  | .decSym => [.corruptContainer, .sequenceError, .bufferOverflow]
  | .decompress => [.corruptContainer, .bufferOverflow]

/-- The state after a sequence of commands, each run from the state the one before left (00_scope.md R14, 20_memory.md
R83). -/
def runCommands : List Instr → State → Option State
  | [], s => some s
  | i :: is, s =>
    match exec i s with
    | .next t => runCommands is t
    | _ => none

/-- The state without the responses given so far, to compare two ways of reaching it. -/
def State.silent (s : State) : State := { s with resps := [] }

end Sys2Proof.Machine
end

