-- ==== Sys2Proof/Certificates/Slice0/Obligations.lean ====
section
/-! DEFINITION. The statements about HCC. Each docstring names the rule of the spec it formalises, or the sections it is
derived from. `exec i s = .next (t.respond false v)` says that the command completes with response (0, `v`) and leaves `t`;
`exec i s = .next (errorEntry e (encode i) s)` says that it raises `e`; `FailingCommandState` says what error entry leaves. -/

open Sys2Proof Sys2Proof.Machine

/-! ## Encoding -/

/-- Decoding the word of a command gives the command back, every operand at every value its field admits (R102 to R104). -/
def Obligations.DecodeEncode : Prop := ∀ i : Instr, decode (encode i) = .ok i

/-- Every one of the 2^32 words either selects exactly one row of the opcode map, the row of the command it decodes to and
the only word of that command, or selects no row and is refused, by its opcode when no row has it (R104, R105, R112). -/
def Obligations.WordsAndRows : Prop :=
  ∀ w : Word,
    (∀ i, decode w = .ok i →
      encode i = w ∧ ∃ r, opcodeMap.filter (·.selects w) = [r] ∧ r.mnemonic = i.mnemonic) ∧
    (∀ e, decode w = .error e →
      opcodeMap.filter (·.selects w) = [] ∧
      (e = .undefinedOpcode ↔ ∀ r ∈ opcodeMap, r.pattern.extractLsb' 24 8 ≠ w.extractLsb' 24 8))

/-- Words written out from the spec's encodings, one for each family and some illegal ones, decode as R104, R105 and R110
say. -/
def Obligations.SpecWords : Prop :=
  decode 0x00000000#32 = .ok .nop ∧ decode 0x03000061#32 = .ok (.ipush 0x61#8) ∧
  decode 0x11000062#32 = .ok (.ftRd 0x62#8) ∧ decode 0x240001FE#32 = .ok (.ndRdLink 510#9) ∧
  decode 0x32000161#32 = .ok (.ctBits 0x61#8 1#3) ∧ decode 0x42FFFFFF#32 = .ok (.upkSet 16777215#24) ∧
  decode 0x50000000#32 = .ok .hdrWr ∧ decode 0x6000007A#32 = .ok (.encSym 0x7A#8) ∧
  decode 0x40000001#32 = .ok (.pkBit 1#1) ∧ decode 0x06000011#32 = .ok (.ord 17#24) ∧
  decode 0x09000000#32 = .error .undefinedOpcode ∧ decode 0x64000000#32 = .error .undefinedOpcode ∧
  decode 0x00000001#32 = .error .reservedBits ∧ decode 0x40000002#32 = .error .reservedBits ∧
  decode 0x32000800#32 = .error .reservedBits ∧ decode 0x24000200#32 = .error .reservedBits

/-- The assembler writes the words of R110's examples, and refuses an operand that does not fit its field (R110). That a
comment alone assembles to nothing is deduced (log 12). -/
def Obligations.AssemblerExamples : Prop :=
  assembleText "IPUSH 'a'".toList = some [0x03000061#32] ∧
  assembleText "CT_BITS 0x61, 0".toList = some [0x32000061#32] ∧
  assembleText "CT_BITS 'a', 1".toList = some [0x32000161#32] ∧
  assembleText "ORD 17".toList = some [0x06000011#32] ∧
  assembleText "IPUSH 256 ; too large".toList = none ∧ assembleText "; a comment".toList = some []

/-- The pseudo-instructions expand as R111 says: `IPUSHS` and `IPUSHB` to one `IPUSH` for each byte, in order, and the four
register reads to `RD_REG` of their register. The two pushes are stated of the parsed line and of the line's text: the quoted
text of any ASCII characters but the quote itself, and any bytes written as two hexadecimal digits after `0x`. The model's
choices here (log 12): a `;` inside the quotes is a character of the text and starts no comment; a backslash is that
character, there being no escapes; a control character is that character too; a double quote cannot be written in the text; a
parsed `IPUSHB` without a byte expands to nothing. -/
def Obligations.PseudoInstructions : Prop :=
  (∀ bytes : List Byte, assembleLine (.ipushb (bytes.map (fun b => .number b.toNat))) =
    some (bytes.map (fun b => 0x03000000#32 ||| zext32 b))) ∧
  (∀ text : List Char, (∀ c ∈ text, c.toNat < 128) → assembleLine (.ipushs text) =
    some (text.map (fun c => 0x03000000#32 ||| word c.toNat))) ∧
  (∀ text : List Char, (∀ c ∈ text, c.toNat < 128 ∧ c ≠ asmDoubleQuote) →
    assembleText ("IPUSHS ".toList ++ asmDoubleQuote :: (text ++ [asmDoubleQuote])) =
      some (text.map (fun c => 0x03000000#32 ||| word c.toNat))) ∧
  (∀ bytes : List Byte, bytes ≠ [] →
    assembleText ("IPUSHB".toList ++ bytes.flatMap (fun b =>
      [' ', '0', 'x', (Nat.digitChar (b.toNat / 16)).toUpper, (Nat.digitChar (b.toNat % 16)).toUpper])) =
      some (bytes.map (fun b => 0x03000000#32 ||| zext32 b))) ∧
  assembleText ("IPUSHS ".toList ++ [asmDoubleQuote, 'a', 'b', asmDoubleQuote]) = some [0x03000061#32, 0x03000062#32] ∧
  assembleText "IPUSHB 0x03 0x63 0xB0".toList = some [0x03000003#32, 0x03000063#32, 0x030000B0#32] ∧
  assembleText "RD_STATUS".toList = some [0x02000001#32] ∧ assembleText "RD_ERR".toList = some [0x02000002#32] ∧
  assembleText "RD_ILEN".toList = some [0x02000004#32] ∧ assembleText "RD_OLEN".toList = some [0x02000005#32]

/-! ## Steps -/

/-- When the next word of the command port decodes to a command, a step is that command's meaning on the state without the
word; in particular for the word of a command put at the head of the port (R20, R22, R112; the port is log 2). -/
def Obligations.StepRunsDecodedCommand : Prop :=
  (∀ (s : State) (w : Word) (ws : List Word) (i : Instr), s.cmds = w :: ws → decode w = .ok i →
    step s = exec i { s with cmds := ws }) ∧
  (∀ (s : State) (i : Instr), decode (encode i) = .ok i → step (s.withFetchWord 32 (encode i).toNat) = exec i s)

/-- An illegal word raises `ILLEGAL_COMMAND` when no error is recorded and is ignored, answered with the recorded code, when
one is; with no word waiting nothing changes (R105, R112, R20). -/
def Obligations.IllegalWords : Prop :=
  (∀ (s : State) (w : Word) (ws : List Word) (r : Reject), s.cmds = w :: ws → decode w = .error r →
    (s.err = none → step s = .next (errorEntry .illegalCommand w { s with cmds := ws })) ∧
    (∀ e, s.err = some e → step s = .next (State.respond { s with cmds := ws } true (zext32 e.code)))) ∧
  (∀ s : State, s.cmds = [] → step s = .next s)

/-- Every command takes one word of the port, leaves the parameters alone and gives exactly one response. A response with
`err = 1` leaves an error state and carries its recorded code; one with `err = 0` leaves no recorded error, or comes from a
`NOP` or `RD_REG` in the error state, which keep the error (R106, R42; 00_scope.md R9; R271, R107). The list of responses
is the model's choice (log 1), and so is the list of words at the port (log 2). -/
def Obligations.OneResponse : Prop :=
  ∀ (s t : State) (w : Word) (ws : List Word), s.cmds = w :: ws → step s = .next t →
    t.cmds = ws ∧ t.cfg = s.cfg ∧
    ∃ r : Response, t.resps = s.resps ++ [r] ∧
      (r.err = true → t.err ≠ none ∧ r.data = zext32 t.errCode) ∧
      (r.err = false → t.err = none ∨ (t.err = s.err ∧ ∃ i, decode w = .ok i ∧ (i = .nop ∨ ∃ n, i = .rdReg n)))

/-! ## Errors -/

/-- What error entry leaves, for every word that raises (a command, or one that decodes to none): every item of R45 at its
reset value, the code in `ERR`, the whole command word in `ERRCMD`, the response (1, code); nothing of the earlier state
(R269, R270). -/
def Obligations.FailingCommandState : Prop :=
  ∀ (s t : State) (w : Word) (ws : List Word) (e : ErrCode), s.err = none → s.cmds = w :: ws → step s = .next t →
    t.err = some e → ∃ u : State, u.IsReset ∧ u.cfg = s.cfg ∧ u.cmds = ws ∧ u.resps = s.resps ∧
      t = State.respond { u with err := some e, errcmd := w } true (zext32 e.code)

/-- The error codes and which commands raise which of them: a command that ends in error entry has raised an error that R268
lists for it, and no command raises `IO_FAILURE` (R268, R264). -/
def Obligations.ErrorCodes : Prop :=
  [ErrCode.invalidInput, .corruptContainer, .encodingError, .ioFailure, .illegalCommand, .sequenceError,
    .bufferOverflow].map ErrCode.code = [1#8, 2#8, 3#8, 4#8, 5#8, 6#8, 7#8] ∧
  (∀ (i : Instr) (s t : State) (e : ErrCode), s.err = none → exec i s = .next t → t.err = some e →
    e ∈ raisable i ∧ e ≠ .ioFailure) ∧
  (∀ (s t : State) (w : Word) (ws : List Word) (r : Reject) (e : ErrCode), s.err = none → s.cmds = w :: ws →
    decode w = .error r → step s = .next t → t.err = some e → e = .illegalCommand)

/-- The error state lets a well-formed `NOP`, `RESET` and `RD_REG r` with `r ≤ 18` through; every other word changes nothing
and is answered (1, `ERR`) (R271, R107). -/
def Obligations.ErrorStateGating : Prop :=
  ∀ (s : State) (e : ErrCode) (w : Word) (ws : List Word), s.err = some e → s.cmds = w :: ws →
    (w = 0x00000000#32 → step s = .next (State.respond { s with cmds := ws } false 0#32)) ∧
    (w = 0x01000000#32 → ∃ t : State, step s = .next (t.respond false 0#32) ∧ t.IsReset ∧ t.cfg = s.cfg ∧ t.cmds = ws ∧
      t.resps = s.resps) ∧
    (∀ r : BitVec 8, r.toNat ≤ 18 → w = (0x02000000#32 ||| zext32 r) →
      ∃ v, s.register r.toNat = some v ∧ step s = .next (State.respond { s with cmds := ws } false v)) ∧
    (w ≠ 0x00000000#32 → w ≠ 0x01000000#32 → (∀ r : BitVec 8, r.toNat ≤ 18 → w ≠ (0x02000000#32 ||| zext32 r)) →
      step s = .next (State.respond { s with cmds := ws } true (zext32 e.code)))

/-- Only the word of `RESET` leaves the error state, for the reset state; every other step keeps `ERR` and `ERRCMD`, so no
second error is recorded over the first (R272, R273). -/
def Obligations.OnlyResetLeavesErrorState : Prop :=
  ∀ (s t : State) (e : ErrCode), s.err = some e → step s = .next t →
    (t.err = some e ∧ t.errcmd = s.errcmd) ∨
    (∃ ws, s.cmds = 0x01000000#32 :: ws ∧ ∃ u : State, t = u.respond false 0#32 ∧ u.IsReset)

/-- A command raises `SEQUENCE_ERROR` while a stage flag it tests is 0 (R266). -/
def Obligations.SequenceErrors : Prop :=
  ∀ s : State, s.err = none →
    (s.ftValid = false → ∀ i : Instr, ((∃ b, i = .ftRd b) ∨ i = .tbInit ∨ i = .build ∨ i = .hdrWr) →
      exec i s = .next (errorEntry .sequenceError (encode i) s)) ∧
    (s.tbActive = false → exec .tbStep s = .next (errorEntry .sequenceError (encode .tbStep) s)) ∧
    (s.treeValid = false → exec .gencode s = .next (errorEntry .sequenceError (encode .gencode) s)) ∧
    (s.ctValid = false → ∀ i : Instr, ((∃ b, i = .ctLen b) ∨ (∃ b w, i = .ctBits b w) ∨ (∃ b, i = .encSym b)) →
      exec i s = .next (errorEntry .sequenceError (encode i) s)) ∧
    (s.curValid = false → exec .upkBit s = .next (errorEntry .sequenceError (encode .upkBit) s)) ∧
    (s.treeValid = false ∨ s.curValid = false →
      exec .decSym s = .next (errorEntry .sequenceError (encode .decSym) s))

/-- What raises `ILLEGAL_COMMAND`: an undefined opcode, a 1 in a reserved bit (a word that is not the word of a command), and
an operand outside its range (R265). -/
def Obligations.IllegalCommandCauses : Prop :=
  ∀ s : State, s.err = none →
    (∀ w ws, s.cmds = w :: ws → w.wellFormed = false →
      step s = .next (errorEntry .illegalCommand w { s with cmds := ws })) ∧
    (∀ r : BitVec 8, 18 < r.toNat → exec (.rdReg r) s = .next (errorEntry .illegalCommand (encode (.rdReg r)) s)) ∧
    (∀ a : BitVec 24, s.ilen ≤ a.toNat → exec (.ird a) s = .next (errorEntry .illegalCommand (encode (.ird a)) s)) ∧
    (∀ a : BitVec 24, s.olen ≤ a.toNat → exec (.ord a) s = .next (errorEntry .illegalCommand (encode (.ord a)) s)) ∧
    (∀ k : BitVec 8, s.pqLen ≤ k.toNat → exec (.pqRd k) s = .next (errorEntry .illegalCommand (encode (.pqRd k)) s)) ∧
    (∀ n : BitVec 9, s.nextId ≤ n.toNat → ∀ i : Instr, (i = .ndRdLink n ∨ i = .ndRdFlo n ∨ i = .ndRdFhi n) →
      exec i s = .next (errorEntry .illegalCommand (encode i) s)) ∧
    (∀ a : BitVec 24, s.ilen < a.toNat → exec (.upkSet a) s = .next (errorEntry .illegalCommand (encode (.upkSet a)) s))

/-- The empty table raises `INVALID_INPUT` in the Tree Builder and the header writer; `COMPRESS` never raises it (R261). -/
def Obligations.InvalidInput : Prop :=
  (∀ s : State, s.err = none → s.ftValid = true → s.nsym = 0 →
    ∀ i : Instr, (i = .tbInit ∨ i = .build ∨ i = .hdrWr) → exec i s = .next (errorEntry .invalidInput (encode i) s)) ∧
  (∀ s t : State, s.err = none → exec .compress s = .next t → t.err ≠ some .invalidInput)

/-- `ENC_SYM` of a symbol without a code raises `ENCODING_ERROR`; inside `COMPRESS` it cannot occur (R263, R241). -/
def Obligations.EncodingError : Prop :=
  (∀ (s : State) (b : Byte), s.err = none → s.ctValid = true → s.ctl b = 0 →
    exec (.encSym b) s = .next (errorEntry .encodingError (encode (.encSym b)) s)) ∧
  (∀ s t : State, s.err = none → exec .compress s = .next t → t.err ≠ some .encodingError)

/-! ## System and buffer commands -/

/-- `NOP`, in any state and also in the error state, changes nothing and responds (0, 0); a word with its opcode and a
reserved bit set raises `ILLEGAL_COMMAND` (R131). -/
def Obligations.NopDoesNothing : Prop :=
  (∀ w : Word, w.extractLsb' 24 8 = 0x00#8 →
    decode w = (if w = 0x00000000#32 then .ok .nop else .error .reservedBits) ∧
    ∀ (s : State) (ws : List Word), w ≠ 0x00000000#32 → s.cmds = w :: ws → s.err = none →
      step s = .next (errorEntry .illegalCommand w { s with cmds := ws })) ∧
  (∀ s : State, exec .nop s = .next (s.respond false 0#32))

/-- `RESET`, in any state and also in the error state, puts every item of R45 at its reset value and responds (0, 0); a word
with its opcode and a reserved bit set raises `ILLEGAL_COMMAND`, or is ignored in the error state; the state after hardware
reset has the same values (R132, R290), with the parameters of 00_scope.md R9 and no word at the port (R292; the port is
log 2). -/
def Obligations.ResetState : Prop :=
  (∀ w : Word, w.extractLsb' 24 8 = 0x01#8 →
    decode w = (if w = 0x01000000#32 then .ok .reset else .error .reservedBits) ∧
    ∀ (s : State) (ws : List Word), w ≠ 0x01000000#32 → s.cmds = w :: ws →
      (s.err = none → step s = .next (errorEntry .illegalCommand w { s with cmds := ws })) ∧
      (∀ e, s.err = some e → step s = .next (State.respond { s with cmds := ws } true (zext32 e.code)))) ∧
  (∀ s : State, ∃ t : State, exec .reset s = .next (t.respond false 0#32) ∧ t.IsReset ∧ t.cfg = s.cfg ∧
    t.cmds = s.cmds ∧ t.resps = s.resps) ∧
  (State.reset.IsReset ∧ State.reset.cmds = [] ∧ State.reset.cfg.idValue = 0x48554601#32 ∧
    State.reset.cfg.byteOrder = .little ∧ State.reset.cfg.singleCodeBit = false)

/-- `RD_REG r` with `r ≤ 18`, in any state and also in the error state, responds with register `r` and changes nothing; with
a larger `r` or a reserved bit set it raises `ILLEGAL_COMMAND`, or is ignored in the error state (R133). -/
def Obligations.ReadRegister : Prop :=
  (∀ w : Word, w.extractLsb' 24 8 = 0x02#8 →
    decode w = (if w.extractLsb' 8 16 = 0#16 then .ok (.rdReg (w.extractLsb' 0 8)) else .error .reservedBits) ∧
    ∀ (s : State) (ws : List Word), w.extractLsb' 8 16 ≠ 0#16 → s.cmds = w :: ws →
      (s.err = none → step s = .next (errorEntry .illegalCommand w { s with cmds := ws })) ∧
      (∀ e, s.err = some e → step s = .next (State.respond { s with cmds := ws } true (zext32 e.code)))) ∧
  (∀ (r : BitVec 8) (s : State),
    (r.toNat ≤ 18 → ∃ v, s.register r.toNat = some v ∧ exec (.rdReg r) s = .next (s.respond false v)) ∧
    (18 < r.toNat → s.err = none → exec (.rdReg r) s = .next (errorEntry .illegalCommand (encode (.rdReg r)) s)) ∧
    (∀ e, 18 < r.toNat → s.err = some e → exec (.rdReg r) s = .next (s.respond true (zext32 e.code))))

/-- What each register holds, bit by bit, its reset value, and that no register beyond number 18 exists (R41). -/
def Obligations.RegisterLayout : Prop :=
  (∀ s : State, s.Inv → ∃ v : Nat → Word, (∀ r ≤ 18, s.register r = some (v r)) ∧
    v 0 = s.cfg.idValue ∧
    ((v 1).getLsbD 0 = s.ftValid ∧ (v 1).getLsbD 1 = s.tbActive ∧ (v 1).getLsbD 2 = s.treeValid ∧
      (v 1).getLsbD 3 = s.ctValid ∧ (v 1).getLsbD 4 = s.curValid ∧ (v 1).getLsbD 5 = s.nothing ∧
      ((v 1).getLsbD 6 = true ↔ s.err ≠ none) ∧ ∀ k, 7 ≤ k → (v 1).getLsbD k = false) ∧
    (v 2).toNat = s.errCode.toNat ∧ v 3 = s.errcmd ∧
    (v 4).toNat = s.ilen ∧ (v 5).toNat = s.olen ∧ (v 6).toNat = s.nsym ∧ (v 7).toNat = s.nextId ∧
    (v 8).toNat = s.pqLen ∧ (v 9).toNat = s.root ∧
    (v 11).toNat < 256 ∧ (v 10).toNat + 2 ^ 32 * (v 11).toNat = s.total ∧
    (v 12).toNat = s.rpos ∧ (v 13).toNat = s.bpos ∧
    (v 15).toNat < 256 ∧ (v 14).toNat + 2 ^ 32 * (v 15).toNat = s.emitted ∧
    (v 16).toNat = s.acc.toNat + 256 * s.nacc ∧
    (v 17).toNat = s.cfg.ibufCap ∧ (v 18).toNat = s.cfg.obufCap) ∧
  (∀ s : State, ∀ r, 18 < r → s.register r = none) ∧
  (State.reset.register 0 = some 0x48554601#32 ∧ ∀ r, 1 ≤ r → r ≤ 16 → State.reset.register r = some 0#32)

/-- `IPUSH b` appends the byte and responds with the new length, or raises `BUFFER_OVERFLOW` when the buffer is full
(R134). -/
def Obligations.InputPush : Prop :=
  ∀ b : BitVec 8, (∀ w, decode w = .ok (.ipush b) ↔ w = (0x03000000#32 ||| zext32 b)) ∧
    ∀ s : State, s.err = none →
      (s.ilen < s.cfg.ibufCap →
        exec (.ipush b) s = .next (State.respond { s with ibuf := s.ibuf ++ [b] } false (word (s.ilen + 1)))) ∧
      (s.cfg.ibufCap ≤ s.ilen → exec (.ipush b) s = .next (errorEntry .bufferOverflow (encode (.ipush b)) s))

/-- `ICLR` empties the input buffer and takes the cursor away; `OCLR` empties the output buffer and leaves the packer and
the counter alone (R135, R138). -/
def Obligations.ClearBuffers : Prop :=
  (∀ w, decode w = .ok .iclr ↔ w = 0x04000000#32) ∧ (∀ w, decode w = .ok .oclr ↔ w = 0x07000000#32) ∧
  ∀ s : State, s.err = none →
    exec .iclr s = .next (State.respond
      { s with ibuf := [], rpos := 0, bpos := 0, emitted := 0, curValid := false } false 0#32) ∧
    exec .oclr s = .next (State.respond { s with obuf := [] } false 0#32)

/-- `IRD a` and `ORD a` respond with the byte at index `a` below the length and change nothing; beyond it they raise
`ILLEGAL_COMMAND` (R136, R137). -/
def Obligations.ReadBuffers : Prop :=
  ∀ a : BitVec 24, (∀ w, decode w = .ok (.ird a) ↔ w = (0x05000000#32 ||| a.setWidth 32)) ∧
    (∀ w, decode w = .ok (.ord a) ↔ w = (0x06000000#32 ||| a.setWidth 32)) ∧
    ∀ s : State, s.err = none →
      (a.toNat < s.ilen → ∃ b, s.ibuf[a.toNat]? = some b ∧ exec (.ird a) s = .next (s.respond false (zext32 b))) ∧
      (s.ilen ≤ a.toNat → exec (.ird a) s = .next (errorEntry .illegalCommand (encode (.ird a)) s)) ∧
      (a.toNat < s.olen → ∃ b, s.obuf[a.toNat]? = some b ∧ exec (.ord a) s = .next (s.respond false (zext32 b))) ∧
      (s.olen ≤ a.toNat → exec (.ord a) s = .next (errorEntry .illegalCommand (encode (.ord a)) s))

/-- `O2I` moves the output buffer into the input buffer, takes the cursor away and responds with the new length, or raises
`BUFFER_OVERFLOW` when it does not fit (R139). -/
def Obligations.OutputToInput : Prop :=
  (∀ w, decode w = .ok .o2i ↔ w = 0x08000000#32) ∧
  ∀ s : State, s.err = none →
    (s.olen ≤ s.cfg.ibufCap → exec .o2i s = .next (State.respond
      { s with ibuf := s.obuf, obuf := [], rpos := 0, bpos := 0, emitted := 0, curValid := false } false
      (word s.olen))) ∧
    (s.cfg.ibufCap < s.olen → exec .o2i s = .next (errorEntry .bufferOverflow (encode .o2i) s))

/-! ## Frequency Model -/

/-- `FREQ` replaces the whole table by the exact counts of the symbols that occur, sets `FT_VALID`, clears the later stages'
flags and responds with the number of symbols (R150, R151). -/
def Obligations.FrequencyCount : Prop :=
  (∀ w, decode w = .ok .freq ↔ w = 0x10000000#32) ∧
  ∀ s : State, s.err = none → ∃ t : Table Nat, t.wf = true ∧
    (∀ b c, t.find b = some c ↔ c = s.ibuf.count b ∧ 1 ≤ c) ∧
    t.length = (List.range 256).countP (fun k => decide (1 ≤ s.ibuf.count (BitVec.ofNat 8 k))) ∧
    exec .freq s = .next (State.respond
      { s with ft := t, ftValid := true, tbActive := false, treeValid := false, ctValid := false } false (word t.length))

/-- `FT_RD s` responds with the entry's presence in bit 31 and its count in bits 30:0 and changes nothing, or raises
`SEQUENCE_ERROR` without a table (R152). -/
def Obligations.FrequencyRead : Prop :=
  ∀ b : BitVec 8, (∀ w, decode w = .ok (.ftRd b) ↔ w = (0x11000000#32 ||| zext32 b)) ∧
    ∀ s : State, s.Inv → s.err = none →
      (s.ftValid = true → ∃ v : Word, exec (.ftRd b) s = .next (s.respond false v) ∧
        v.getLsbD 31 = s.ftv b ∧ (v.extractLsb' 0 31).toNat = s.ftf b) ∧
      (s.ftValid = false → exec (.ftRd b) s = .next (errorEntry .sequenceError (encode (.ftRd b)) s))

/-! ## Tree Builder -/

/-- `TB_INIT` discards the previous tree, creates one leaf for each table entry in the table's (ascending) order and fills
the queue; with one entry that leaf is the root, with more a build is in progress (R164). -/
def Obligations.BuildStart : Prop :=
  (∀ w, decode w = .ok .tbInit ↔ w = 0x21000000#32) ∧
  (∀ s : State, s.Inv → s.ft.Pairwise (fun a b => a.1.toNat < b.1.toNat)) ∧
  ∀ s : State, s.err = none →
    (s.ftValid = false → exec .tbInit s = .next (errorEntry .sequenceError (encode .tbInit) s)) ∧
    (s.ftValid = true → s.nsym = 0 → exec .tbInit s = .next (errorEntry .invalidInput (encode .tbInit) s)) ∧
    (∀ b f, s.ftValid = true → s.ft = [(b, f)] → exec .tbInit s = .next (State.respond
      { s with nodes := [.leaf b f], inq := [0], root := 0, total := f, treeValid := true, tbActive := false,
               ctValid := false } false 1#32)) ∧
    (s.ftValid = true → 2 ≤ s.nsym → exec .tbInit s = .next (State.respond
      { s with nodes := s.ft.map (fun e => .leaf e.1 e.2), inq := List.range s.nsym, treeValid := false,
               tbActive := true, ctValid := false } false (word s.nsym)))

/-- `TB_STEP` extracts the two members that come first in the queue order (frequency, then id), makes them the left and right
child of a new Internal whose frequency is their sum, and puts it in the queue; when two were left the build is complete and
bit 31 of the response is set (R161 to R163, R165). -/
def Obligations.BuildStep : Prop :=
  (∀ w, decode w = .ok .tbStep ↔ w = 0x22000000#32) ∧
  ∀ s : State, s.Inv → s.err = none →
    (s.tbActive = false → exec .tbStep s = .next (errorEntry .sequenceError (encode .tbStep) s)) ∧
    (s.tbActive = true → ∃ a b : Nat, a ∈ s.inq ∧ b ∈ s.inq ∧ a ≠ b ∧
      (∀ j ∈ s.inq, j ≠ a → freqAt s.nodes a < freqAt s.nodes j ∨ (freqAt s.nodes a = freqAt s.nodes j ∧ a < j)) ∧
      (∀ j ∈ s.inq, j ≠ a → j ≠ b →
        freqAt s.nodes b < freqAt s.nodes j ∨ (freqAt s.nodes b = freqAt s.nodes j ∧ b < j)) ∧
      (s.pqLen = 2 → exec .tbStep s = .next (State.respond
        { s with nodes := s.nodes ++ [.internal (freqAt s.nodes a + freqAt s.nodes b) a b], inq := [s.nextId],
                 root := s.nextId, total := freqAt s.nodes a + freqAt s.nodes b, treeValid := true,
                 tbActive := false } false (0x80000000#32 ||| word s.nextId))) ∧
      (s.pqLen ≠ 2 → exec .tbStep s = .next (State.respond
        { s with nodes := s.nodes ++ [.internal (freqAt s.nodes a + freqAt s.nodes b) a b],
                 inq := s.inq.filter (fun j => j ≠ a ∧ j ≠ b) ++ [s.nextId] } false (word s.nextId))))

/-- `BUILD` is equal in effect to `TB_INIT` followed by `NSYM − 1` times `TB_STEP`, responds with the root, and raises what
`TB_INIT` raises (R166). -/
def Obligations.BuildEqualsSteps : Prop :=
  (∀ w, decode w = .ok .build ↔ w = 0x20000000#32) ∧
  ∀ s : State, s.err = none →
    (s.ftValid = false → exec .build s = .next (errorEntry .sequenceError (encode .build) s)) ∧
    (s.ftValid = true → s.nsym = 0 → exec .build s = .next (errorEntry .invalidInput (encode .build) s)) ∧
    (s.ftValid = true → 1 ≤ s.nsym → ∃ t u : State, exec .build s = .next (t.respond false (word t.root)) ∧
      runCommands (.tbInit :: List.replicate (s.nsym - 1) .tbStep) s = some u ∧ t.silent = u.silent ∧
      t.treeValid = true ∧ t.tbActive = false ∧ t.ctValid = false)

/-- The tree `BUILD` leaves for a table of `n ≥ 1` entries: `2n − 1` nodes, the leaves first in the table's order, then
Internals, each with two distinct older children and their sum as frequency; the root is the last node and alone in the
queue, its frequency is `TOTAL`, the sum of all counts; every other node is the child of exactly one Internal. Nothing else
of the state changes (R171). -/
def Obligations.BuiltTree : Prop :=
  ∀ s : State, s.err = none → s.ftValid = true → 1 ≤ s.nsym → ∃ t : State,
    exec .build s = .next (t.respond false (word t.root)) ∧
    t.nextId = 2 * s.nsym - 1 ∧ t.root = 2 * s.nsym - 2 ∧ t.inq = [t.root] ∧
    (∀ (k : Nat) (b : Byte) (f : Nat), s.ft[k]? = some (b, f) → t.nodes[k]? = some (.leaf b f)) ∧
    (∀ k, s.nsym ≤ k → k < t.nextId → ∃ f l r, t.nodes[k]? = some (.internal f l r) ∧ l < k ∧ r < k ∧ l ≠ r ∧
      f = freqAt t.nodes l + freqAt t.nodes r) ∧
    (∀ j, (t.nodes.flatMap Node.children).count j = if j < t.root then 1 else 0) ∧
    t.total = freqAt t.nodes t.root ∧ t.total = (s.ft.map (·.2)).sum ∧
    t = { s with nodes := t.nodes, inq := t.inq, root := t.root, total := t.total, treeValid := true, tbActive := false,
                 ctValid := false }

/-- The tree is a function of the Frequency Table alone: two builds from the same table leave the same arena, entry for
entry, whatever happened before (R172). -/
def Obligations.TreeOfTable : Prop :=
  ∀ s s' t t' : State, s.err = none → s'.err = none → s.ftValid = true → s'.ftValid = true → s.ft = s'.ft →
    exec .build s = .next t → exec .build s' = .next t' →
    t.nodes = t'.nodes ∧ t.inq = t'.inq ∧ (t.err = none → t.root = t'.root ∧ t.total = t'.total) ∧ t.err = t'.err

/-- `PQ_RD k` responds with the member of the queue that exactly `k` members come before, and changes nothing; beyond the
queue's length it raises `ILLEGAL_COMMAND` (R167, R161). -/
def Obligations.QueueRead : Prop :=
  ∀ k : BitVec 8, (∀ w, decode w = .ok (.pqRd k) ↔ w = (0x23000000#32 ||| zext32 k)) ∧
    ∀ s : State, s.Inv → s.err = none →
      (k.toNat < s.pqLen → ∃ m ∈ s.inq, exec (.pqRd k) s = .next (s.respond false (word m)) ∧
        (s.inq.filter (fun j => freqAt s.nodes j < freqAt s.nodes m ∨
          (freqAt s.nodes j = freqAt s.nodes m ∧ j < m))).length = k.toNat) ∧
      (s.pqLen ≤ k.toNat → exec (.pqRd k) s = .next (errorEntry .illegalCommand (encode (.pqRd k)) s))

/-- `ND_RD_LINK`, `ND_RD_FLO` and `ND_RD_FHI` respond with the node's symbol or children and with the low 32 and the high 8
bits of its frequency, and change nothing; beyond `NEXTID` they raise `ILLEGAL_COMMAND` (R168 to R170). -/
def Obligations.NodeReads : Prop :=
  ∀ n : BitVec 9, (∀ w, decode w = .ok (.ndRdLink n) ↔ w = (0x24000000#32 ||| n.setWidth 32)) ∧
    (∀ w, decode w = .ok (.ndRdFlo n) ↔ w = (0x25000000#32 ||| n.setWidth 32)) ∧
    (∀ w, decode w = .ok (.ndRdFhi n) ↔ w = (0x26000000#32 ||| n.setWidth 32)) ∧
    ∀ s : State, s.Inv → s.err = none →
      (∀ b f, s.nodes[n.toNat]? = some (.leaf b f) → exec (.ndRdLink n) s = .next (s.respond false (zext32 b))) ∧
      (∀ f l r, s.nodes[n.toNat]? = some (.internal f l r) → ∃ v : Word,
        exec (.ndRdLink n) s = .next (s.respond false v) ∧ v.toNat = 2 ^ 31 + 2 ^ 16 * l + r ∧ l < 2 ^ 9 ∧ r < 2 ^ 9) ∧
      (∀ x, s.nodes[n.toNat]? = some x → ∃ lo hi : Word, exec (.ndRdFlo n) s = .next (s.respond false lo) ∧
        exec (.ndRdFhi n) s = .next (s.respond false hi) ∧ hi.toNat < 2 ^ 8 ∧ lo.toNat + 2 ^ 32 * hi.toNat = x.freq) ∧
      (s.nextId ≤ n.toNat → ∀ i : Instr, (i = .ndRdLink n ∨ i = .ndRdFlo n ∨ i = .ndRdFhi n) →
        exec i s = .next (errorEntry .illegalCommand (encode i) s)) ∧
      (n.toNat < s.nextId → ∃ x, s.nodes[n.toNat]? = some x)

/-! ## Code Table Generator -/

/-- `GENCODE` replaces the Code Table by the one that gives each symbol of the alphabet its root-to-leaf path ('0' left, '1'
right), or the one-bit code in the one-symbol case, and no other symbol a code; it sets `CT_VALID` and responds with
`NSYM`, or raises `SEQUENCE_ERROR` without a tree (R190 to R192). -/
def Obligations.GenerateCodes : Prop :=
  (∀ w, decode w = .ok .gencode ↔ w = 0x30000000#32) ∧
  ∀ s : State, s.Inv → s.err = none →
    (s.treeValid = false → exec .gencode s = .next (errorEntry .sequenceError (encode .gencode) s)) ∧
    (s.treeValid = true → ∃ ct : Table (List Bool), ct.wf = true ∧
      (∀ b q, ct.find b = some q ↔ s.treeCode b q) ∧ (∀ b, (ct.find b).isSome = s.ftv b) ∧
      exec .gencode s = .next (State.respond { s with ct := ct, ctValid := true } false (word s.nsym)))

/-- The codes of a Code Table: neither of two codes is a prefix of the other, a code is the path of its leaf (its length the
leaf's depth) for an alphabet of at least two symbols and one bit otherwise, and for at least two symbols the codes are
complete (R195 (a), (b), (d)). -/
def Obligations.PrefixFreeCodes : Prop :=
  ∀ s : State, s.Inv → s.ctValid = true →
    PrefixFree s.ct ∧
    (2 ≤ s.nsym → (∀ b q, s.ct.find b = some q → PathTo s.nodes s.root q b) ∧
      (s.ct.map (fun e => 2 ^ (255 - e.2.length))).sum = 2 ^ 255) ∧
    (s.nsym = 1 → ∀ b q, s.ct.find b = some q → PathTo s.nodes s.root [] b ∧ q.length = 1)

/-- `CT_LEN s` responds with the code's length (0 without a code), `CT_BITS s, w` with its bits `32w` to `32w + 31`, the
first in bit 31 and 0 beyond the code's end; both change nothing, and raise `SEQUENCE_ERROR` without a code table
(R193, R194). -/
def Obligations.CodeReads : Prop :=
  ∀ (b : BitVec 8) (n : BitVec 3), (∀ w, decode w = .ok (.ctLen b) ↔ w = (0x31000000#32 ||| zext32 b)) ∧
    (∀ w, decode w = .ok (.ctBits b n) ↔ w = (0x32000000#32 ||| (n.setWidth 32 <<< 8) ||| zext32 b)) ∧
    ∀ s : State, s.Inv → s.err = none →
      (s.ctValid = true → ∃ len v : Word, exec (.ctLen b) s = .next (s.respond false len) ∧ len.toNat = s.ctl b ∧
        exec (.ctBits b n) s = .next (s.respond false v) ∧
        ∀ j < 32, v.getLsbD (31 - j) = ((s.ctb b)[32 * n.toNat + j]?).getD false) ∧
      (s.ctValid = false → exec (.ctLen b) s = .next (errorEntry .sequenceError (encode (.ctLen b)) s) ∧
        exec (.ctBits b n) s = .next (errorEntry .sequenceError (encode (.ctBits b n)) s))

/-! ## Bit Packer and Unpacker -/

/-- `PK_BIT b` puts the bit at position `7 − NACC` of the accumulator and responds with the number of bits waiting; the
eighth bit emits the byte, or raises `BUFFER_OVERFLOW` when the output is full (R201, R202). -/
def Obligations.PackBit : Prop :=
  ∀ b : BitVec 1, (∀ w, decode w = .ok (.pkBit b) ↔ w = (0x40000000#32 ||| b.setWidth 32)) ∧
    ∀ s : State, s.err = none →
      (s.nacc < 7 → exec (.pkBit b) s = .next (State.respond
        { s with acc := s.acc ||| (b.setWidth 8 <<< (7 - s.nacc)), nacc := s.nacc + 1 } false (word (s.nacc + 1)))) ∧
      (s.nacc = 7 → s.olen < s.cfg.obufCap → exec (.pkBit b) s = .next (State.respond
        { s with obuf := s.obuf ++ [s.acc ||| b.setWidth 8], acc := 0#8, nacc := 0 } false 0#32)) ∧
      (s.nacc = 7 → s.cfg.obufCap ≤ s.olen →
        exec (.pkBit b) s = .next (errorEntry .bufferOverflow (encode (.pkBit b)) s))

/-- `PK_FLUSH` emits the accumulator with its zero padding and responds with the number of padding bits; at a byte boundary
it emits nothing and responds 0 (R203). -/
def Obligations.PackFlush : Prop :=
  (∀ w, decode w = .ok .pkFlush ↔ w = 0x41000000#32) ∧
  ∀ s : State, s.err = none →
    (s.nacc = 0 → exec .pkFlush s = .next (s.respond false 0#32)) ∧
    (s.nacc ≠ 0 → s.olen < s.cfg.obufCap → exec .pkFlush s = .next (State.respond
      { s with obuf := s.obuf ++ [s.acc], acc := 0#8, nacc := 0 } false (word (8 - s.nacc)))) ∧
    (s.nacc ≠ 0 → s.cfg.obufCap ≤ s.olen → exec .pkFlush s = .next (errorEntry .bufferOverflow (encode .pkFlush) s))

/-- Packing a bit sequence and unpacking the bytes gives the sequence followed by `(8 − n mod 8) mod 8` zero bits, then
`EOS`: first bit first, most significant bit first (R200, R204, R209, R77). -/
def Obligations.PackThenUnpack : Prop :=
  ∀ (s : State) (q : List Bool), s.err = none → s.obuf = [] → s.acc = 0#8 → s.nacc = 0 →
    (q.length + 7) / 8 ≤ s.cfg.obufCap → (q.length + 7) / 8 ≤ s.cfg.ibufCap →
    ∃ t u : State,
      runCommands (q.map (fun b => .pkBit (if b then 1#1 else 0#1)) ++ [.pkFlush, .o2i, .upkSet 0#24]) s = some t ∧
      runCommands (List.replicate (q.length + (8 - q.length % 8) % 8 + 1) .upkBit) t = some u ∧
      u.resps = t.resps ++ (q ++ List.replicate ((8 - q.length % 8) % 8) false).map
        (fun b => ⟨false, if b then 1#32 else 0#32⟩) ++ [⟨false, 0x00000100#32⟩]

/-- `UPK_SET a` with `a ≤ ILEN` makes `IBUF[a .. ILEN−1]` the payload and rewinds the cursor; beyond it raises
`ILLEGAL_COMMAND` (R205). -/
def Obligations.UnpackSet : Prop :=
  ∀ a : BitVec 24, (∀ w, decode w = .ok (.upkSet a) ↔ w = (0x42000000#32 ||| a.setWidth 32)) ∧
    ∀ s : State, s.err = none →
      (a.toNat ≤ s.ilen → exec (.upkSet a) s = .next (State.respond
        { s with rpos := a.toNat, bpos := 0, emitted := 0, curValid := true } false 0#32)) ∧
      (s.ilen < a.toNat → exec (.upkSet a) s = .next (errorEntry .illegalCommand (encode (.upkSet a)) s))

/-- `UPK_BIT` responds with payload bit number `BPOS`, most significant bit of a byte first, and advances `BPOS`; at the end
of the payload it responds `EOS` and changes nothing; without a cursor it raises `SEQUENCE_ERROR` (R206 to R208). -/
def Obligations.UnpackBit : Prop :=
  (∀ w, decode w = .ok .upkBit ↔ w = 0x43000000#32) ∧
  ∀ s : State, s.Inv → s.err = none →
    (s.curValid = false → exec .upkBit s = .next (errorEntry .sequenceError (encode .upkBit) s)) ∧
    (s.curValid = true → s.bpos = 8 * (s.ilen - s.rpos) → exec .upkBit s = .next (s.respond false 0x00000100#32)) ∧
    (s.curValid = true → s.bpos ≠ 8 * (s.ilen - s.rpos) → ∃ b : Byte, s.ibuf[s.rpos + s.bpos / 8]? = some b ∧
      exec .upkBit s = .next (State.respond { s with bpos := s.bpos + 1 } false
        (if b.getLsbD (7 - s.bpos % 8) then 1#32 else 0#32)))

/-! ## Container Codec -/

/-- `HDR_WR` appends the header of the table and responds with its length; it raises `SEQUENCE_ERROR` without a table,
`INVALID_INPUT` for the empty one and `BUFFER_OVERFLOW` when the header does not fit (R226; `HeaderLayout` says what the bytes
are). -/
def Obligations.HeaderWrite : Prop :=
  (∀ w, decode w = .ok .hdrWr ↔ w = 0x50000000#32) ∧
  ∀ s : State, s.err = none →
    (s.ftValid = false → exec .hdrWr s = .next (errorEntry .sequenceError (encode .hdrWr) s)) ∧
    (s.ftValid = true → s.nsym = 0 → exec .hdrWr s = .next (errorEntry .invalidInput (encode .hdrWr) s)) ∧
    (s.ftValid = true → 1 ≤ s.nsym → s.olen + (1 + 5 * s.nsym) ≤ s.cfg.obufCap → exec .hdrWr s = .next (State.respond
      { s with obuf := s.obuf ++ headerBytes s.cfg.byteOrder s.ft } false (word (1 + 5 * s.nsym)))) ∧
    (s.ftValid = true → 1 ≤ s.nsym → s.olen ≤ s.cfg.obufCap → s.cfg.obufCap < s.olen + (1 + 5 * s.nsym) →
      exec .hdrWr s = .next (errorEntry .bufferOverflow (encode .hdrWr) s))

/-- The bytes of a header of `n` pairs: `n mod 256` at offset 0, symbol `i` at offset `1 + 5i`, its count in the four bytes
from offset `2 + 5i`, low byte first for `little` and high byte first for `big`; `1 + 5n` bytes in all (R220 to R223, R78). -/
def Obligations.HeaderLayout : Prop :=
  ∀ (o : ByteOrder) (t : List (Byte × Nat)), 1 ≤ t.length → t.length ≤ 256 → (∀ e ∈ t, e.2 < 2 ^ 31) →
    (headerBytes o t).length = 1 + 5 * t.length ∧ (headerBytes o t)[0]? = some (BitVec.ofNat 8 (t.length % 256)) ∧
    ∀ (i : Nat) (b : Byte) (f : Nat), t[i]? = some (b, f) → (headerBytes o t)[1 + 5 * i]? = some b ∧
      ∀ j < 4, (headerBytes o t)[2 + 5 * i + j]? =
        some (BitVec.ofNat 8 (f / 256 ^ (match o with | .little => j | .big => 3 - j)))

/-- `HDR_RD` reads the pairs in any order into the table, sets the cursor behind them and responds with the header's length;
it raises `CORRUPT_CONTAINER` when no byte, fewer bytes than the pairs need, a count with bit 31 set, a symbol listed twice, or
no payload byte is there (R227, R229, R225). -/
def Obligations.HeaderRead : Prop :=
  (∀ w, decode w = .ok .hdrRd ↔ w = 0x51000000#32) ∧
  ∀ s : State, s.err = none →
    (s.ibuf = [] → exec .hdrRd s = .next (errorEntry .corruptContainer (encode .hdrRd) s)) ∧
    (∀ n body, s.ibuf = n :: body → s.ilen < 1 + 5 * (if n = 0#8 then 256 else n.toNat) →
      exec .hdrRd s = .next (errorEntry .corruptContainer (encode .hdrRd) s)) ∧
    (∀ (ps : List (Byte × Nat)) (payload : List Byte), 1 ≤ ps.length → ps.length ≤ 256 → (∀ e ∈ ps, e.2 < 2 ^ 32) →
      s.ibuf = headerBytes s.cfg.byteOrder ps ++ payload →
      (((∃ e ∈ ps, 2 ^ 31 ≤ e.2) ∨ ¬ (ps.map (·.1)).Nodup ∨ payload = []) →
        exec .hdrRd s = .next (errorEntry .corruptContainer (encode .hdrRd) s)) ∧
      ((∀ e ∈ ps, e.2 < 2 ^ 31) → (ps.map (·.1)).Nodup → payload ≠ [] → ∃ t : Table Nat, t.wf = true ∧ t.Perm ps ∧
        exec .hdrRd s = .next (State.respond
          { s with ft := t, ftValid := true, tbActive := false, treeValid := false, ctValid := false,
                   rpos := 1 + 5 * ps.length, bpos := 0, emitted := 0, curValid := true } false
          (word (1 + 5 * ps.length)))))

/-! ## Orchestration -/

/-- `ENC_SYM s` pushes the bits of the symbol's code, first step from the root first, into the packer and responds with their
number; it raises `SEQUENCE_ERROR` without a code table, `ENCODING_ERROR` for a symbol without a code and `BUFFER_OVERFLOW` when
a completed byte does not fit (R240). -/
def Obligations.EncodeSymbol : Prop :=
  ∀ b : BitVec 8, (∀ w, decode w = .ok (.encSym b) ↔ w = (0x60000000#32 ||| zext32 b)) ∧
    ∀ s : State, s.Inv → s.err = none →
      (s.ctValid = false → exec (.encSym b) s = .next (errorEntry .sequenceError (encode (.encSym b)) s)) ∧
      (s.ctValid = true → s.ctl b = 0 → exec (.encSym b) s = .next (errorEntry .encodingError (encode (.encSym b)) s)) ∧
      (s.ctValid = true → 1 ≤ s.ctl b → s.olen + (s.nacc + s.ctl b) / 8 ≤ s.cfg.obufCap → ∃ t : State,
        exec (.encSym b) s = .next (t.respond false (word (s.ctl b))) ∧ t.outputBits = s.outputBits ++ s.ctb b ∧
        t.nacc = (s.nacc + s.ctl b) % 8 ∧ t.olen = s.olen + (s.nacc + s.ctl b) / 8 ∧
        t.acc.toNat % 2 ^ (8 - t.nacc) = 0 ∧ t = { s with obuf := t.obuf, acc := t.acc, nacc := t.nacc }) ∧
      (s.ctValid = true → 1 ≤ s.ctl b → s.cfg.obufCap < s.olen + (s.nacc + s.ctl b) / 8 →
        exec (.encSym b) s = .next (errorEntry .bufferOverflow (encode (.encSym b)) s))

/-- `DEC_SYM` decodes the symbol whose code comes next in the payload, appends it to the output and advances the cursor by
exactly the code's bits; after `TOTAL` symbols it responds `EOS` and changes nothing; it raises `CORRUPT_CONTAINER` when no code
comes next (the payload ends before a leaf is reached, or the bit of a one-symbol payload is not the code bit) and
`BUFFER_OVERFLOW` when the output is full (R242 to R245). -/
def Obligations.DecodeSymbol : Prop :=
  (∀ w, decode w = .ok .decSym ↔ w = 0x61000000#32) ∧
  ∀ s : State, s.Inv → s.err = none →
    (s.treeValid = false ∨ s.curValid = false →
      exec .decSym s = .next (errorEntry .sequenceError (encode .decSym) s)) ∧
    (s.treeValid = true → s.curValid = true →
      (s.total ≤ s.emitted → exec .decSym s = .next (s.respond false 0x00000100#32)) ∧
      (∀ b q, s.emitted < s.total → s.treeCode b q → q <+: s.payloadBits.drop s.bpos →
        (s.olen < s.cfg.obufCap → exec .decSym s = .next (State.respond
          { s with obuf := s.obuf ++ [b], bpos := s.bpos + q.length, emitted := s.emitted + 1 } false (zext32 b))) ∧
        (s.cfg.obufCap ≤ s.olen → exec .decSym s = .next (errorEntry .bufferOverflow (encode .decSym) s))) ∧
      (s.emitted < s.total → (∀ b q, s.treeCode b q → ¬ q <+: s.payloadBits.drop s.bpos) →
        exec .decSym s = .next (errorEntry .corruptContainer (encode .decSym) s)))

/-- `COMPRESS` leaves in the output the container of the input: the header of its exact counts, then the codes of its bytes in
input order, packed and padded with zero bits, and responds with the length; it raises `BUFFER_OVERFLOW` when that does not fit
and nothing else; the empty input is no error (R246, R247, R224, R230). -/
def Obligations.CompressContainer : Prop :=
  (∀ w, decode w = .ok .compress ↔ w = 0x62000000#32) ∧
  ∀ s : State, s.err = none →
    (s.ibuf = [] → exec .compress s = .next (State.respond
      { s with obuf := [], acc := 0#8, nacc := 0, ft := [], ftValid := true, tbActive := false, treeValid := false,
               ctValid := false, nothing := true } false 0#32)) ∧
    (s.ibuf ≠ [] → containerLength s.cfg s.ibuf ≤ s.cfg.obufCap → ∃ (t : State) (payload : List Byte),
      exec .compress s = .next (t.respond false (word (containerLength s.cfg s.ibuf))) ∧
      t.ft.wf = true ∧ (∀ b c, t.ft.find b = some c ↔ c = s.ibuf.count b ∧ 1 ≤ c) ∧
      (∀ b q, t.ct.find b = some q ↔ t.treeCode b q) ∧ t.ct = codeTableOf s.cfg t.ft ∧
      t.obuf = headerBytes s.cfg.byteOrder t.ft ++ payload ∧ bitsOf payload = padded (s.ibuf.flatMap t.ctb) ∧
      t.olen = containerLength s.cfg s.ibuf ∧
      (s.ibuf.flatMap t.ctb).length = (t.ft.map (fun e => e.2 * t.ctl e.1)).sum ∧
      t = { s with obuf := t.obuf, ft := t.ft, nodes := t.nodes, inq := t.inq, root := t.root, total := t.total,
                   ct := t.ct, acc := 0#8, nacc := 0, ftValid := true, treeValid := true, ctValid := true,
                   tbActive := false, nothing := false }) ∧
    (s.ibuf ≠ [] → s.cfg.obufCap < containerLength s.cfg s.ibuf →
      exec .compress s = .next (errorEntry .bufferOverflow (encode .compress) s))

/-- `COMPRESS` of a non-empty input whose container fits does what the commands it performs do one after another: `FREQ`,
`BUILD`, `GENCODE`, `HDR_WR`, `ENC_SYM` of each byte, `PK_FLUSH`, on an emptied output and packer (R246). -/
def Obligations.CompressEqualsCommands : Prop :=
  ∀ s : State, s.err = none → s.ibuf ≠ [] → containerLength s.cfg s.ibuf ≤ s.cfg.obufCap → ∃ t u : State,
    exec .compress s = .next (t.respond false (word t.olen)) ∧
    runCommands ([.freq, .build, .gencode, .hdrWr] ++ s.ibuf.map .encSym ++ [.pkFlush])
      { s with nothing := false, obuf := [], acc := 0#8, nacc := 0 } = some u ∧
    t.silent = u.silent

/-- `DECOMPRESS` of a header (its pairs in any order) and a payload that starts with the codes of `TOTAL` symbols leaves those
symbols in the output, responds with their number and ignores what follows (R248, R243). -/
def Obligations.DecompressOutput : Prop :=
  (∀ w, decode w = .ok .decompress ↔ w = 0x63000000#32) ∧
  ∀ (s : State) (ps : List (Byte × Nat)) (t : Table Nat) (payload xs : List Byte) (rest : List Bool),
    s.err = none → s.ibuf = headerBytes s.cfg.byteOrder ps ++ payload → 1 ≤ ps.length → ps.length ≤ 256 →
    (∀ e ∈ ps, e.2 < 2 ^ 31) → payload ≠ [] → t.wf = true → t.Perm ps →
    (∀ x ∈ xs, (t.find x).isSome = true) →
    bitsOf payload = xs.flatMap (fun x => ((codeTableOf s.cfg t).find x).getD []) ++ rest →
    xs.length = (ps.map (·.2)).sum → xs.length ≤ s.cfg.obufCap →
    ∃ u : State, exec .decompress s = .next (u.respond false (word xs.length)) ∧ u.obuf = xs ∧ u.ft = t ∧
      u.total = xs.length ∧ u.emitted = xs.length ∧ u.rpos = 1 + 5 * ps.length ∧ u.bpos + rest.length = 8 * payload.length ∧
      u = { s with obuf := u.obuf, ft := u.ft, nodes := u.nodes, inq := u.inq, root := u.root, total := u.total,
                   rpos := u.rpos, bpos := u.bpos, emitted := u.emitted, ftValid := true, treeValid := true,
                   curValid := true, ctValid := false, tbActive := false, nothing := false }

/-- Where `DECOMPRESS` fails, the pairs of the header in any order: with `CORRUPT_CONTAINER` when `HDR_RD` would, or when after
some symbols no code comes next while fewer than `TOTAL` are out; with `BUFFER_OVERFLOW` when one more symbol comes next and
the output is full (R248, R243, R245, R225). -/
def Obligations.DecompressErrors : Prop :=
  (∀ s : State, s.err = none → exec .hdrRd s = .next (errorEntry .corruptContainer (encode .hdrRd) s) →
    exec .decompress s = .next (errorEntry .corruptContainer (encode .decompress) s)) ∧
  ∀ (s : State) (ps : List (Byte × Nat)) (t : Table Nat) (payload xs : List Byte) (rest : List Bool),
    s.err = none → s.ibuf = headerBytes s.cfg.byteOrder ps ++ payload → 1 ≤ ps.length → ps.length ≤ 256 →
    (∀ e ∈ ps, e.2 < 2 ^ 31) → payload ≠ [] → t.wf = true → t.Perm ps →
    (∀ x ∈ xs, (t.find x).isSome = true) →
    bitsOf payload = xs.flatMap (fun x => ((codeTableOf s.cfg t).find x).getD []) ++ rest →
    xs.length < (ps.map (·.2)).sum → xs.length ≤ s.cfg.obufCap →
    ((∀ b q, (codeTableOf s.cfg t).find b = some q → ¬ q <+: rest) →
      exec .decompress s = .next (errorEntry .corruptContainer (encode .decompress) s)) ∧
    ((∃ b q, (codeTableOf s.cfg t).find b = some q ∧ q <+: rest) → xs.length = s.cfg.obufCap →
      exec .decompress s = .next (errorEntry .bufferOverflow (encode .decompress) s))

/-- Round trip: loading `B` with `IPUSH`, then `COMPRESS`, `O2I`, `DECOMPRESS`, ends without an error and with `B` in the output,
for every non-empty `B` that fits, as its container does (R249). -/
def Obligations.RoundTrip : Prop :=
  ∀ (s : State) (B : List Byte), s.err = none → s.ibuf = [] → s.cfg.Bounded → B ≠ [] →
    B.length ≤ s.cfg.ibufCap → B.length ≤ s.cfg.obufCap →
    containerLength s.cfg B ≤ s.cfg.ibufCap → containerLength s.cfg B ≤ s.cfg.obufCap →
    ∃ t : State, runCommands (B.map .ipush ++ [.compress, .o2i, .decompress]) s = some t ∧
      t.err = none ∧ t.olen = B.length ∧ t.obuf = B

/-- The output of a successful `COMPRESS` is a function of the input, the byte order and the code bit alone (R250). -/
def Obligations.CompressDeterminism : Prop :=
  ∀ s s' t t' : State, s.err = none → s'.err = none → s.ibuf = s'.ibuf → s.cfg.byteOrder = s'.cfg.byteOrder →
    s.cfg.singleCodeBit = s'.cfg.singleCodeBit → exec .compress s = .next t → exec .compress s' = .next t' →
    t.err = none → t'.err = none → t.obuf = t'.obuf

/-! ## Invariants -/

/-- The invariant holds after reset (R44). -/
def Obligations.InvariantAtReset : Prop := State.reset.Inv

/-- Every step keeps the invariant, from every state that meets it, so every stored field stays within its width (R44, R36). -/
def Obligations.InvariantKept : Prop := ∀ s t : State, s.Inv → step s = .next t → t.Inv

/-- From every state that meets the invariant a step completes: no behaviour is stuck (R130, R105, R304). -/
def Obligations.StepsComplete : Prop := ∀ s : State, s.Inv → ∃ t : State, step s = .next t

/-! ## Frames and whole-machine rules -/

/-- A read that succeeds changes no state but gives its response, and may be repeated with the same result; one that fails
performs error entry (R80). -/
def Obligations.ReadsChangeNothing : Prop :=
  ∀ (i : Instr) (s t : State), s.err = none → exec i s = .next t →
    ((∃ r, i = .rdReg r) ∨ (∃ a, i = .ird a) ∨ (∃ a, i = .ord a) ∨ (∃ b, i = .ftRd b) ∨ (∃ k, i = .pqRd k) ∨
      (∃ n, i = .ndRdLink n) ∨ (∃ n, i = .ndRdFlo n) ∨ (∃ n, i = .ndRdFhi n) ∨ (∃ b, i = .ctLen b) ∨
      (∃ b w, i = .ctBits b w)) →
    (∃ v, t = s.respond false v ∧ exec i t = .next (t.respond false v)) ∨ (∃ e, t = errorEntry e (encode i) s)

/-- Frame of `IPUSH`, `ICLR`, `OCLR`, `O2I`, `UPK_SET` and `UPK_BIT` when they complete: `IPUSH` stores one byte of `IBUF`, at
index `ILEN`; the two clears and `O2I` change the buffers and the cursor only as said; `UPK_SET` and `UPK_BIT` store nothing
and change the cursor alone (R71, R130, R134, R135, R138, R139, R205, R206). -/
def Obligations.BufferFrame : Prop :=
  ∀ s t : State, s.err = none → t.err = none →
    (∀ b, exec (.ipush b) s = .next t → t = { s with ibuf := t.ibuf, resps := t.resps } ∧
      ∀ a, a ≠ s.ilen → Buffer.read t.ibuf a = Buffer.read s.ibuf a) ∧
    (exec .iclr s = .next t → t =
        { s with ibuf := t.ibuf, rpos := t.rpos, bpos := t.bpos, emitted := t.emitted, curValid := t.curValid,
                 resps := t.resps }) ∧
    (exec .oclr s = .next t → t = { s with obuf := t.obuf, resps := t.resps }) ∧
    (exec .o2i s = .next t → t =
        { s with ibuf := t.ibuf, obuf := t.obuf, rpos := t.rpos, bpos := t.bpos, emitted := t.emitted,
                 curValid := t.curValid, resps := t.resps } ∧
      ∀ a, Buffer.read t.ibuf a = Buffer.read s.obuf a ∧ Buffer.read t.obuf a = none) ∧
    (∀ n, exec (.upkSet n) s = .next t → t =
        { s with rpos := t.rpos, bpos := t.bpos, emitted := t.emitted, curValid := t.curValid, resps := t.resps }) ∧
    (exec .upkBit s = .next t → t = { s with bpos := t.bpos, resps := t.resps })

/-- Frame of the commands that store to `OBUF`, when they complete: `PK_BIT`, `PK_FLUSH` and `ENC_SYM` change the packer,
`DEC_SYM` the cursor, `HDR_WR` neither; each stores only at the indexes from `OLEN` on, every other byte reads as before, and
every byte of `IBUF` too (R71, R76, R130). -/
def Obligations.OutputFrame : Prop :=
  ∀ (i : Instr) (s t : State), s.err = none → exec i s = .next t → t.err = none →
    (((∃ b, i = .pkBit b) ∨ i = .pkFlush ∨ ∃ b, i = .encSym b) →
      t =
        { s with obuf := t.obuf, acc := t.acc, nacc := t.nacc, resps := t.resps }) ∧
    (i = .hdrWr → t = { s with obuf := t.obuf, resps := t.resps }) ∧
    (i = .decSym → t =
        { s with obuf := t.obuf, bpos := t.bpos, emitted := t.emitted, resps := t.resps }) ∧
    (((∃ b, i = .pkBit b) ∨ i = .pkFlush ∨ (∃ b, i = .encSym b) ∨ i = .hdrWr ∨ i = .decSym) →
      s.olen ≤ t.olen ∧ ∀ a, (a < s.olen ∨ t.olen ≤ a) → Buffer.read t.obuf a = Buffer.read s.obuf a)

/-- Frame of the stage commands and the sequencers, when they complete: what each may change; none of `FREQ`, `TB_INIT`,
`TB_STEP`, `BUILD`, `GENCODE`, `HDR_RD` stores a byte of a buffer, and the sequencers do not change `IBUF` (R130, R151,
R164 to R166, R191, R227 (g), R246 (a), R248 (b)). -/
def Obligations.StageFrame : Prop :=
  ∀ (i : Instr) (s t : State), s.err = none → exec i s = .next t → t.err = none →
    (i = .freq → t =
        { s with ft := t.ft, ftValid := t.ftValid, tbActive := t.tbActive, treeValid := t.treeValid,
                 ctValid := t.ctValid, resps := t.resps }) ∧
    ((i = .tbInit ∨ i = .tbStep ∨ i = .build) → t =
        { s with nodes := t.nodes, inq := t.inq, root := t.root, total := t.total, tbActive := t.tbActive,
                 treeValid := t.treeValid, ctValid := t.ctValid, resps := t.resps }) ∧
    (i = .gencode → t =
        { s with ct := t.ct, ctValid := t.ctValid, resps := t.resps }) ∧
    (i = .hdrRd → t =
        { s with ft := t.ft, ftValid := t.ftValid, tbActive := t.tbActive, treeValid := t.treeValid,
                 ctValid := t.ctValid, rpos := t.rpos, bpos := t.bpos, emitted := t.emitted,
                 curValid := t.curValid, resps := t.resps }) ∧
    (i = .compress → t =
        { s with obuf := t.obuf, ft := t.ft, nodes := t.nodes, inq := t.inq, root := t.root, total := t.total,
                 ct := t.ct, acc := t.acc, nacc := t.nacc, ftValid := t.ftValid, tbActive := t.tbActive,
                 treeValid := t.treeValid, ctValid := t.ctValid, nothing := t.nothing, resps := t.resps }) ∧
    (i = .decompress → t =
        { s with obuf := t.obuf, ft := t.ft, nodes := t.nodes, inq := t.inq, root := t.root, total := t.total,
                 rpos := t.rpos, bpos := t.bpos, emitted := t.emitted, ftValid := t.ftValid,
                 tbActive := t.tbActive, treeValid := t.treeValid, ctValid := t.ctValid, curValid := t.curValid,
                 nothing := t.nothing, resps := t.resps }) ∧
    ((i = .freq ∨ i = .tbInit ∨ i = .tbStep ∨ i = .build ∨ i = .gencode ∨ i = .hdrRd) →
      ∀ a, Buffer.read t.ibuf a = Buffer.read s.ibuf a ∧ Buffer.read t.obuf a = Buffer.read s.obuf a)

/-- Which commands set and which clear each status flag, of those that complete outside the error state; the sequencers set
and clear what the commands they perform do (R40). -/
def Obligations.FlagChanges : Prop :=
  ∀ (i : Instr) (s t : State), s.err = none → i ≠ .reset → exec i s = .next t → t.err = none →
    (s.ftValid = true → t.ftValid = true) ∧
    (s.ftValid = false → t.ftValid = true → i ∈ [.freq, .hdrRd, .compress, .decompress]) ∧
    (s.tbActive = false → t.tbActive = true → i = .tbInit ∧ 2 ≤ s.nsym) ∧
    (s.tbActive = true → t.tbActive = false →
      i ∈ [.tbInit, .tbStep, .build, .freq, .hdrRd, .compress, .decompress]) ∧
    (s.treeValid = false → t.treeValid = true → i ∈ [.tbInit, .tbStep, .build, .compress, .decompress]) ∧
    (s.treeValid = true → t.treeValid = false → i ∈ [.tbInit, .freq, .hdrRd, .compress]) ∧
    (s.ctValid = false → t.ctValid = true → i ∈ [.gencode, .compress]) ∧
    (s.ctValid = true → t.ctValid = false →
      i ∈ [.tbInit, .build, .freq, .hdrRd, .compress, .decompress]) ∧
    (s.curValid = false → t.curValid = true → (∃ a, i = .upkSet a) ∨ i ∈ [.hdrRd, .decompress]) ∧
    (s.curValid = true → t.curValid = false → i ∈ [.iclr, .o2i]) ∧
    (s.nothing = false → t.nothing = true → i = .compress ∧ s.ibuf = []) ∧
    (s.nothing = true → t.nothing = false → (i = .compress ∧ s.ibuf ≠ []) ∨ i = .decompress)
end

