-- ==== Sys2Proof/Laws/Assembler.lean ====
section
/-! SUPPORT. The text of the pseudo-instructions (30_encoding.md R110, R111): what the scan makes of quoted text and of a
chunk of plain characters, and what one `IPUSH` for each operand assembles to. -/

namespace Sys2Proof

/-- Characters without a double quote are taken into the text, whatever they are, up to the closing quote. -/
theorem scanLine_text (text : List Char) (h : ∀ c ∈ text, c ≠ asmDoubleQuote) (cs : List Char) (done : List AsmToken) :
    scanLine (text ++ [asmDoubleQuote]) (.inText cs) done = some (done ++ [.text (cs ++ text)]) := by
  induction text generalizing cs with
  | nil => simp [scanLine, scanChar]
  | cons c text ih =>
    have hc : c ≠ asmDoubleQuote := h c List.mem_cons_self
    have := ih (fun d hd => h d (List.mem_cons_of_mem _ hd)) (cs ++ [c])
    simp [scanLine, scanChar, hc, this]

/-- A character that ends no chunk of plain characters. -/
def Plain (c : Char) : Prop := c ≠ ' ' ∧ c ≠ ',' ∧ c ≠ ';' ∧ c ≠ asmQuote ∧ c ≠ asmDoubleQuote

/-- Plain characters are taken into the chunk that has begun. -/
theorem scanLine_plain (new rest : List Char) (h : ∀ c ∈ new, Plain c) (cs : List Char) (done : List AsmToken) :
    scanLine (new ++ rest) (.inChars cs) done = scanLine rest (.inChars (cs ++ new)) done := by
  induction new generalizing cs with
  | nil => simp
  | cons c new ih =>
    obtain ⟨h1, h2, h3, h4, h5⟩ := h c List.mem_cons_self
    have := ih (fun d hd => h d (List.mem_cons_of_mem _ hd)) (cs ++ [c])
    simp [scanLine, scanChar, h1, h2, h3, h4, h5, this]

/-- Chunks of plain characters, each after one space, are one token each. -/
theorem scanLine_chunks (chunks : List (List Char)) (h : ∀ k ∈ chunks, k ≠ [] ∧ ∀ c ∈ k, Plain c) (cs : List Char)
    (done : List AsmToken) :
    scanLine (chunks.flatMap (' ' :: ·)) (.inChars cs) done = some (done ++ (cs :: chunks).map .chars) := by
  induction chunks generalizing cs done with
  | nil => simp [scanLine]
  | cons k chunks ih =>
    obtain ⟨hk, hp⟩ := h k List.mem_cons_self
    cases k with
    | nil => exact absurd rfl hk
    | cons c k =>
      obtain ⟨h1, h2, h3, h4, h5⟩ := hp c List.mem_cons_self
      have h6 := ih (fun d hd => h d (List.mem_cons_of_mem _ hd)) (c :: k) (done ++ [.chars cs])
      have h7 := scanLine_plain k (chunks.flatMap (' ' :: ·)) (fun d hd => hp d (List.mem_cons_of_mem _ hd)) [c]
        (done ++ [.chars cs])
      simp only [List.flatMap_cons, List.cons_append, scanLine, scanChar, true_or, if_true, scanOutside, h1, h2, h3, h4, h5,
        if_false]
      rw [h7, List.singleton_append, h6]
      simp

/-- Operands that all fit a byte assemble to one `IPUSH` each, in order (R111). -/
theorem assemblePushes_map {α : Type} (f : α → AsmOperand) (g : α → BitVec 8) (xs : List α)
    (h : ∀ x ∈ xs, (f x).field 8 = some (g x)) : assemblePushes (xs.map f) = some (xs.map (fun x => .ipush (g x))) := by
  induction xs with
  | nil => rfl
  | cons x xs ih =>
    simp [assemblePushes, h x List.mem_cons_self, ih (fun y hy => h y (List.mem_cons_of_mem _ hy))]

end Sys2Proof
end

