-- ==== Sys2Proof/Laws/State.lean ====
section
/-! SUPPORT. One lemma for each field of State under each shared update, true by `rfl`, so that no proof unfolds a record
update. -/

namespace Sys2Proof.Machine

open Sys2Proof

variable (s : State)

/-! ### `State.respond`: the response port alone changes -/

@[simp] theorem State.respond_cfg (e : Bool) (d : Word) : (s.respond e d).cfg = s.cfg := rfl
@[simp] theorem State.respond_cmds (e : Bool) (d : Word) : (s.respond e d).cmds = s.cmds := rfl
@[simp] theorem State.respond_resps (e : Bool) (d : Word) : (s.respond e d).resps = s.resps ++ [⟨e, d⟩] := rfl
@[simp] theorem State.respond_ibuf (e : Bool) (d : Word) : (s.respond e d).ibuf = s.ibuf := rfl
@[simp] theorem State.respond_obuf (e : Bool) (d : Word) : (s.respond e d).obuf = s.obuf := rfl
@[simp] theorem State.respond_ft (e : Bool) (d : Word) : (s.respond e d).ft = s.ft := rfl
@[simp] theorem State.respond_nodes (e : Bool) (d : Word) : (s.respond e d).nodes = s.nodes := rfl
@[simp] theorem State.respond_inq (e : Bool) (d : Word) : (s.respond e d).inq = s.inq := rfl
@[simp] theorem State.respond_root (e : Bool) (d : Word) : (s.respond e d).root = s.root := rfl
@[simp] theorem State.respond_total (e : Bool) (d : Word) : (s.respond e d).total = s.total := rfl
@[simp] theorem State.respond_ct (e : Bool) (d : Word) : (s.respond e d).ct = s.ct := rfl
@[simp] theorem State.respond_acc (e : Bool) (d : Word) : (s.respond e d).acc = s.acc := rfl
@[simp] theorem State.respond_nacc (e : Bool) (d : Word) : (s.respond e d).nacc = s.nacc := rfl
@[simp] theorem State.respond_rpos (e : Bool) (d : Word) : (s.respond e d).rpos = s.rpos := rfl
@[simp] theorem State.respond_bpos (e : Bool) (d : Word) : (s.respond e d).bpos = s.bpos := rfl
@[simp] theorem State.respond_emitted (e : Bool) (d : Word) : (s.respond e d).emitted = s.emitted := rfl
@[simp] theorem State.respond_err (e : Bool) (d : Word) : (s.respond e d).err = s.err := rfl
@[simp] theorem State.respond_errcmd (e : Bool) (d : Word) : (s.respond e d).errcmd = s.errcmd := rfl
@[simp] theorem State.respond_ftValid (e : Bool) (d : Word) : (s.respond e d).ftValid = s.ftValid := rfl
@[simp] theorem State.respond_tbActive (e : Bool) (d : Word) : (s.respond e d).tbActive = s.tbActive := rfl
@[simp] theorem State.respond_treeValid (e : Bool) (d : Word) : (s.respond e d).treeValid = s.treeValid := rfl
@[simp] theorem State.respond_ctValid (e : Bool) (d : Word) : (s.respond e d).ctValid = s.ctValid := rfl
@[simp] theorem State.respond_curValid (e : Bool) (d : Word) : (s.respond e d).curValid = s.curValid := rfl
@[simp] theorem State.respond_nothing (e : Bool) (d : Word) : (s.respond e d).nothing = s.nothing := rfl

/-! ### `State.resetBlock`: every item of 10_state.md R45 at its reset value -/

@[simp] theorem State.resetBlock_cfg : s.resetBlock.cfg = s.cfg := rfl
@[simp] theorem State.resetBlock_cmds : s.resetBlock.cmds = s.cmds := rfl
@[simp] theorem State.resetBlock_resps : s.resetBlock.resps = s.resps := rfl
@[simp] theorem State.resetBlock_ibuf : s.resetBlock.ibuf = [] := rfl
@[simp] theorem State.resetBlock_obuf : s.resetBlock.obuf = [] := rfl
@[simp] theorem State.resetBlock_ft : s.resetBlock.ft = [] := rfl
@[simp] theorem State.resetBlock_nodes : s.resetBlock.nodes = [] := rfl
@[simp] theorem State.resetBlock_inq : s.resetBlock.inq = [] := rfl
@[simp] theorem State.resetBlock_root : s.resetBlock.root = 0 := rfl
@[simp] theorem State.resetBlock_total : s.resetBlock.total = 0 := rfl
@[simp] theorem State.resetBlock_ct : s.resetBlock.ct = [] := rfl
@[simp] theorem State.resetBlock_acc : s.resetBlock.acc = 0#8 := rfl
@[simp] theorem State.resetBlock_nacc : s.resetBlock.nacc = 0 := rfl
@[simp] theorem State.resetBlock_rpos : s.resetBlock.rpos = 0 := rfl
@[simp] theorem State.resetBlock_bpos : s.resetBlock.bpos = 0 := rfl
@[simp] theorem State.resetBlock_emitted : s.resetBlock.emitted = 0 := rfl
@[simp] theorem State.resetBlock_err : s.resetBlock.err = none := rfl
@[simp] theorem State.resetBlock_errcmd : s.resetBlock.errcmd = 0#32 := rfl
@[simp] theorem State.resetBlock_ftValid : s.resetBlock.ftValid = false := rfl
@[simp] theorem State.resetBlock_tbActive : s.resetBlock.tbActive = false := rfl
@[simp] theorem State.resetBlock_treeValid : s.resetBlock.treeValid = false := rfl
@[simp] theorem State.resetBlock_ctValid : s.resetBlock.ctValid = false := rfl
@[simp] theorem State.resetBlock_curValid : s.resetBlock.curValid = false := rfl
@[simp] theorem State.resetBlock_nothing : s.resetBlock.nothing = false := rfl

/-! ### `State.dropCursor`: the cursor alone changes -/

@[simp] theorem State.dropCursor_cfg : s.dropCursor.cfg = s.cfg := rfl
@[simp] theorem State.dropCursor_cmds : s.dropCursor.cmds = s.cmds := rfl
@[simp] theorem State.dropCursor_resps : s.dropCursor.resps = s.resps := rfl
@[simp] theorem State.dropCursor_ibuf : s.dropCursor.ibuf = s.ibuf := rfl
@[simp] theorem State.dropCursor_obuf : s.dropCursor.obuf = s.obuf := rfl
@[simp] theorem State.dropCursor_ft : s.dropCursor.ft = s.ft := rfl
@[simp] theorem State.dropCursor_nodes : s.dropCursor.nodes = s.nodes := rfl
@[simp] theorem State.dropCursor_inq : s.dropCursor.inq = s.inq := rfl
@[simp] theorem State.dropCursor_root : s.dropCursor.root = s.root := rfl
@[simp] theorem State.dropCursor_total : s.dropCursor.total = s.total := rfl
@[simp] theorem State.dropCursor_ct : s.dropCursor.ct = s.ct := rfl
@[simp] theorem State.dropCursor_acc : s.dropCursor.acc = s.acc := rfl
@[simp] theorem State.dropCursor_nacc : s.dropCursor.nacc = s.nacc := rfl
@[simp] theorem State.dropCursor_rpos : s.dropCursor.rpos = 0 := rfl
@[simp] theorem State.dropCursor_bpos : s.dropCursor.bpos = 0 := rfl
@[simp] theorem State.dropCursor_emitted : s.dropCursor.emitted = 0 := rfl
@[simp] theorem State.dropCursor_err : s.dropCursor.err = s.err := rfl
@[simp] theorem State.dropCursor_errcmd : s.dropCursor.errcmd = s.errcmd := rfl
@[simp] theorem State.dropCursor_ftValid : s.dropCursor.ftValid = s.ftValid := rfl
@[simp] theorem State.dropCursor_tbActive : s.dropCursor.tbActive = s.tbActive := rfl
@[simp] theorem State.dropCursor_treeValid : s.dropCursor.treeValid = s.treeValid := rfl
@[simp] theorem State.dropCursor_ctValid : s.dropCursor.ctValid = s.ctValid := rfl
@[simp] theorem State.dropCursor_curValid : s.dropCursor.curValid = false := rfl
@[simp] theorem State.dropCursor_nothing : s.dropCursor.nothing = s.nothing := rfl

/-! ### `State.setCursor`: the cursor alone changes -/

@[simp] theorem State.setCursor_cfg (a : Nat) : (s.setCursor a).cfg = s.cfg := rfl
@[simp] theorem State.setCursor_cmds (a : Nat) : (s.setCursor a).cmds = s.cmds := rfl
@[simp] theorem State.setCursor_resps (a : Nat) : (s.setCursor a).resps = s.resps := rfl
@[simp] theorem State.setCursor_ibuf (a : Nat) : (s.setCursor a).ibuf = s.ibuf := rfl
@[simp] theorem State.setCursor_obuf (a : Nat) : (s.setCursor a).obuf = s.obuf := rfl
@[simp] theorem State.setCursor_ft (a : Nat) : (s.setCursor a).ft = s.ft := rfl
@[simp] theorem State.setCursor_nodes (a : Nat) : (s.setCursor a).nodes = s.nodes := rfl
@[simp] theorem State.setCursor_inq (a : Nat) : (s.setCursor a).inq = s.inq := rfl
@[simp] theorem State.setCursor_root (a : Nat) : (s.setCursor a).root = s.root := rfl
@[simp] theorem State.setCursor_total (a : Nat) : (s.setCursor a).total = s.total := rfl
@[simp] theorem State.setCursor_ct (a : Nat) : (s.setCursor a).ct = s.ct := rfl
@[simp] theorem State.setCursor_acc (a : Nat) : (s.setCursor a).acc = s.acc := rfl
@[simp] theorem State.setCursor_nacc (a : Nat) : (s.setCursor a).nacc = s.nacc := rfl
@[simp] theorem State.setCursor_rpos (a : Nat) : (s.setCursor a).rpos = a := rfl
@[simp] theorem State.setCursor_bpos (a : Nat) : (s.setCursor a).bpos = 0 := rfl
@[simp] theorem State.setCursor_emitted (a : Nat) : (s.setCursor a).emitted = 0 := rfl
@[simp] theorem State.setCursor_err (a : Nat) : (s.setCursor a).err = s.err := rfl
@[simp] theorem State.setCursor_errcmd (a : Nat) : (s.setCursor a).errcmd = s.errcmd := rfl
@[simp] theorem State.setCursor_ftValid (a : Nat) : (s.setCursor a).ftValid = s.ftValid := rfl
@[simp] theorem State.setCursor_tbActive (a : Nat) : (s.setCursor a).tbActive = s.tbActive := rfl
@[simp] theorem State.setCursor_treeValid (a : Nat) : (s.setCursor a).treeValid = s.treeValid := rfl
@[simp] theorem State.setCursor_ctValid (a : Nat) : (s.setCursor a).ctValid = s.ctValid := rfl
@[simp] theorem State.setCursor_curValid (a : Nat) : (s.setCursor a).curValid = true := rfl
@[simp] theorem State.setCursor_nothing (a : Nat) : (s.setCursor a).nothing = s.nothing := rfl

/-! ### `State.withTable`: the table and the flags of later stages change -/

@[simp] theorem State.withTable_cfg (t : Table Nat) : (s.withTable t).cfg = s.cfg := rfl
@[simp] theorem State.withTable_cmds (t : Table Nat) : (s.withTable t).cmds = s.cmds := rfl
@[simp] theorem State.withTable_resps (t : Table Nat) : (s.withTable t).resps = s.resps := rfl
@[simp] theorem State.withTable_ibuf (t : Table Nat) : (s.withTable t).ibuf = s.ibuf := rfl
@[simp] theorem State.withTable_obuf (t : Table Nat) : (s.withTable t).obuf = s.obuf := rfl
@[simp] theorem State.withTable_ft (t : Table Nat) : (s.withTable t).ft = t := rfl
@[simp] theorem State.withTable_nodes (t : Table Nat) : (s.withTable t).nodes = s.nodes := rfl
@[simp] theorem State.withTable_inq (t : Table Nat) : (s.withTable t).inq = s.inq := rfl
@[simp] theorem State.withTable_root (t : Table Nat) : (s.withTable t).root = s.root := rfl
@[simp] theorem State.withTable_total (t : Table Nat) : (s.withTable t).total = s.total := rfl
@[simp] theorem State.withTable_ct (t : Table Nat) : (s.withTable t).ct = s.ct := rfl
@[simp] theorem State.withTable_acc (t : Table Nat) : (s.withTable t).acc = s.acc := rfl
@[simp] theorem State.withTable_nacc (t : Table Nat) : (s.withTable t).nacc = s.nacc := rfl
@[simp] theorem State.withTable_rpos (t : Table Nat) : (s.withTable t).rpos = s.rpos := rfl
@[simp] theorem State.withTable_bpos (t : Table Nat) : (s.withTable t).bpos = s.bpos := rfl
@[simp] theorem State.withTable_emitted (t : Table Nat) : (s.withTable t).emitted = s.emitted := rfl
@[simp] theorem State.withTable_err (t : Table Nat) : (s.withTable t).err = s.err := rfl
@[simp] theorem State.withTable_errcmd (t : Table Nat) : (s.withTable t).errcmd = s.errcmd := rfl
@[simp] theorem State.withTable_ftValid (t : Table Nat) : (s.withTable t).ftValid = true := rfl
@[simp] theorem State.withTable_tbActive (t : Table Nat) : (s.withTable t).tbActive = false := rfl
@[simp] theorem State.withTable_treeValid (t : Table Nat) : (s.withTable t).treeValid = false := rfl
@[simp] theorem State.withTable_ctValid (t : Table Nat) : (s.withTable t).ctValid = false := rfl
@[simp] theorem State.withTable_curValid (t : Table Nat) : (s.withTable t).curValid = s.curValid := rfl
@[simp] theorem State.withTable_nothing (t : Table Nat) : (s.withTable t).nothing = s.nothing := rfl

/-! ### `State.completeBuild`: the root, its frequency and two flags change -/

@[simp] theorem State.completeBuild_cfg (r f : Nat) : (s.completeBuild r f).cfg = s.cfg := rfl
@[simp] theorem State.completeBuild_cmds (r f : Nat) : (s.completeBuild r f).cmds = s.cmds := rfl
@[simp] theorem State.completeBuild_resps (r f : Nat) : (s.completeBuild r f).resps = s.resps := rfl
@[simp] theorem State.completeBuild_ibuf (r f : Nat) : (s.completeBuild r f).ibuf = s.ibuf := rfl
@[simp] theorem State.completeBuild_obuf (r f : Nat) : (s.completeBuild r f).obuf = s.obuf := rfl
@[simp] theorem State.completeBuild_ft (r f : Nat) : (s.completeBuild r f).ft = s.ft := rfl
@[simp] theorem State.completeBuild_nodes (r f : Nat) : (s.completeBuild r f).nodes = s.nodes := rfl
@[simp] theorem State.completeBuild_inq (r f : Nat) : (s.completeBuild r f).inq = s.inq := rfl
@[simp] theorem State.completeBuild_root (r f : Nat) : (s.completeBuild r f).root = r := rfl
@[simp] theorem State.completeBuild_total (r f : Nat) : (s.completeBuild r f).total = f := rfl
@[simp] theorem State.completeBuild_ct (r f : Nat) : (s.completeBuild r f).ct = s.ct := rfl
@[simp] theorem State.completeBuild_acc (r f : Nat) : (s.completeBuild r f).acc = s.acc := rfl
@[simp] theorem State.completeBuild_nacc (r f : Nat) : (s.completeBuild r f).nacc = s.nacc := rfl
@[simp] theorem State.completeBuild_rpos (r f : Nat) : (s.completeBuild r f).rpos = s.rpos := rfl
@[simp] theorem State.completeBuild_bpos (r f : Nat) : (s.completeBuild r f).bpos = s.bpos := rfl
@[simp] theorem State.completeBuild_emitted (r f : Nat) : (s.completeBuild r f).emitted = s.emitted := rfl
@[simp] theorem State.completeBuild_err (r f : Nat) : (s.completeBuild r f).err = s.err := rfl
@[simp] theorem State.completeBuild_errcmd (r f : Nat) : (s.completeBuild r f).errcmd = s.errcmd := rfl
@[simp] theorem State.completeBuild_ftValid (r f : Nat) : (s.completeBuild r f).ftValid = s.ftValid := rfl
@[simp] theorem State.completeBuild_tbActive (r f : Nat) : (s.completeBuild r f).tbActive = false := rfl
@[simp] theorem State.completeBuild_treeValid (r f : Nat) : (s.completeBuild r f).treeValid = true := rfl
@[simp] theorem State.completeBuild_ctValid (r f : Nat) : (s.completeBuild r f).ctValid = s.ctValid := rfl
@[simp] theorem State.completeBuild_curValid (r f : Nat) : (s.completeBuild r f).curValid = s.curValid := rfl
@[simp] theorem State.completeBuild_nothing (r f : Nat) : (s.completeBuild r f).nothing = s.nothing := rfl

/-! ### Error entry (60_exceptions.md R270) -/

variable (e : ErrCode) (w : Word)

@[simp] theorem errorEntry_cfg : (errorEntry e w s).cfg = s.cfg := rfl
@[simp] theorem errorEntry_cmds : (errorEntry e w s).cmds = s.cmds := rfl
@[simp] theorem errorEntry_resps : (errorEntry e w s).resps = s.resps ++ [⟨true, zext32 e.code⟩] := rfl
@[simp] theorem errorEntry_ibuf : (errorEntry e w s).ibuf = [] := rfl
@[simp] theorem errorEntry_obuf : (errorEntry e w s).obuf = [] := rfl
@[simp] theorem errorEntry_ft : (errorEntry e w s).ft = [] := rfl
@[simp] theorem errorEntry_nodes : (errorEntry e w s).nodes = [] := rfl
@[simp] theorem errorEntry_inq : (errorEntry e w s).inq = [] := rfl
@[simp] theorem errorEntry_root : (errorEntry e w s).root = 0 := rfl
@[simp] theorem errorEntry_total : (errorEntry e w s).total = 0 := rfl
@[simp] theorem errorEntry_ct : (errorEntry e w s).ct = [] := rfl
@[simp] theorem errorEntry_acc : (errorEntry e w s).acc = 0#8 := rfl
@[simp] theorem errorEntry_nacc : (errorEntry e w s).nacc = 0 := rfl
@[simp] theorem errorEntry_rpos : (errorEntry e w s).rpos = 0 := rfl
@[simp] theorem errorEntry_bpos : (errorEntry e w s).bpos = 0 := rfl
@[simp] theorem errorEntry_emitted : (errorEntry e w s).emitted = 0 := rfl
@[simp] theorem errorEntry_err : (errorEntry e w s).err = some e := rfl
@[simp] theorem errorEntry_errcmd : (errorEntry e w s).errcmd = w := rfl
@[simp] theorem errorEntry_ftValid : (errorEntry e w s).ftValid = false := rfl
@[simp] theorem errorEntry_tbActive : (errorEntry e w s).tbActive = false := rfl
@[simp] theorem errorEntry_treeValid : (errorEntry e w s).treeValid = false := rfl
@[simp] theorem errorEntry_ctValid : (errorEntry e w s).ctValid = false := rfl
@[simp] theorem errorEntry_curValid : (errorEntry e w s).curValid = false := rfl
@[simp] theorem errorEntry_nothing : (errorEntry e w s).nothing = false := rfl

/-! ### A gated word (60_exceptions.md R271) -/

@[simp] theorem ignored_cfg : (ignored s).cfg = s.cfg := rfl
@[simp] theorem ignored_cmds : (ignored s).cmds = s.cmds := rfl
@[simp] theorem ignored_resps : (ignored s).resps = s.resps ++ [⟨true, zext32 s.errCode⟩] := rfl
@[simp] theorem ignored_ibuf : (ignored s).ibuf = s.ibuf := rfl
@[simp] theorem ignored_obuf : (ignored s).obuf = s.obuf := rfl
@[simp] theorem ignored_ft : (ignored s).ft = s.ft := rfl
@[simp] theorem ignored_nodes : (ignored s).nodes = s.nodes := rfl
@[simp] theorem ignored_inq : (ignored s).inq = s.inq := rfl
@[simp] theorem ignored_root : (ignored s).root = s.root := rfl
@[simp] theorem ignored_total : (ignored s).total = s.total := rfl
@[simp] theorem ignored_ct : (ignored s).ct = s.ct := rfl
@[simp] theorem ignored_acc : (ignored s).acc = s.acc := rfl
@[simp] theorem ignored_nacc : (ignored s).nacc = s.nacc := rfl
@[simp] theorem ignored_rpos : (ignored s).rpos = s.rpos := rfl
@[simp] theorem ignored_bpos : (ignored s).bpos = s.bpos := rfl
@[simp] theorem ignored_emitted : (ignored s).emitted = s.emitted := rfl
@[simp] theorem ignored_err : (ignored s).err = s.err := rfl
@[simp] theorem ignored_errcmd : (ignored s).errcmd = s.errcmd := rfl
@[simp] theorem ignored_ftValid : (ignored s).ftValid = s.ftValid := rfl
@[simp] theorem ignored_tbActive : (ignored s).tbActive = s.tbActive := rfl
@[simp] theorem ignored_treeValid : (ignored s).treeValid = s.treeValid := rfl
@[simp] theorem ignored_ctValid : (ignored s).ctValid = s.ctValid := rfl
@[simp] theorem ignored_curValid : (ignored s).curValid = s.curValid := rfl
@[simp] theorem ignored_nothing : (ignored s).nothing = s.nothing := rfl

/-! ### Error entry forgets the state it starts from, but for the parameters and the ports -/

theorem errorEntry_congr {s t : State} (hc : s.cfg = t.cfg) (hq : s.cmds = t.cmds) (hr : s.resps = t.resps) :
    errorEntry e w s = errorEntry e w t := by
  simp [errorEntry, State.resetBlock, hc, hq, hr]

end Sys2Proof.Machine
end

