-- ==== Sys2Proof/Laws/Buffers.lean ====
section
/-! SUPPORT. The byte buffers: each buffer read as (address, byte) pairs is in the canonical form and every buffer operation
keeps it (20_memory.md R70, R71), and what `out_byte` does, one byte or many (R76). -/

namespace Sys2Proof.Machine

open Sys2Proof

/-! ## The canonical form -/

theorem Buffer.addresses_cellsFrom (buf : List Byte) (base : Nat) :
    (Buffer.cellsFrom base buf).map (·.1) = List.range' base buf.length := by
  induction buf generalizing base with
  | nil => rfl
  | cons b bs ih => simp [Buffer.cellsFrom, List.range'_succ, ih]

theorem Memory.wf_iff_pairwise (m : List Host.Cell) : Memory.wf m = true ↔ m.Pairwise (fun a b => a.1 < b.1) := by
  induction m with
  | nil => simp [Memory.wf]
  | cons c m ih => obtain ⟨a, v⟩ := c; simp [Memory.wf, List.pairwise_cons, ih, List.all_eq_true]

theorem Buffer.cellsFrom_wf (buf : List Byte) (base : Nat) : Memory.wf (Buffer.cellsFrom base buf) = true := by
  have h := List.pairwise_lt_range' (s := base) (n := buf.length) (step := 1)
  rw [← Buffer.addresses_cellsFrom, List.pairwise_map] at h
  exact (Memory.wf_iff_pairwise _).2 h

/-- Every buffer is a memory in the canonical form, so every operation on a buffer keeps that form. -/
theorem Buffer.cells_wf (buf : List Byte) : Memory.wf (Buffer.cells buf) = true := Buffer.cellsFrom_wf buf 0

theorem Buffer.cells_nil : Buffer.cells [] = [] := rfl

theorem Buffer.cellsFrom_append (buf more : List Byte) (base : Nat) :
    Buffer.cellsFrom base (buf ++ more) = Buffer.cellsFrom base buf ++ Buffer.cellsFrom (base + buf.length) more := by
  induction buf generalizing base with
  | nil => simp [Buffer.cellsFrom]
  | cons b bs ih => simp [Buffer.cellsFrom, ih, Nat.add_assoc, Nat.add_comm 1]

/-- Appending a byte adds the one pair (length, byte) (20_memory.md R71, R76). -/
theorem Buffer.cells_append_byte (buf : List Byte) (b : Byte) :
    Buffer.cells (buf ++ [b]) = Buffer.cells buf ++ [(buf.length, b)] := by
  simp [Buffer.cells, Buffer.cellsFrom_append, Buffer.cellsFrom]

/-- The pairs are exactly what the buffer reads: address `a` is listed with `b` when `a` reads as `b`. -/
theorem Buffer.mem_cells_iff (buf : List Byte) (a : Nat) (b : Byte) :
    (a, b) ∈ Buffer.cells buf ↔ Buffer.read buf a = some b := by
  have key : ∀ (buf : List Byte) (base : Nat), (a, b) ∈ Buffer.cellsFrom base buf ↔ base ≤ a ∧ buf[a - base]? = some b := by
    intro buf
    induction buf with
    | nil => intro base; simp [Buffer.cellsFrom]
    | cons c bs ih =>
      intro base
      simp only [Buffer.cellsFrom, List.mem_cons, Prod.mk.injEq, ih]
      constructor
      · rintro (⟨rfl, rfl⟩ | ⟨h1, h2⟩)
        · simp
        · obtain ⟨d, rfl⟩ := Nat.exists_eq_add_of_le h1
          refine ⟨by omega, ?_⟩
          rw [show base + 1 + d - base = d + 1 by omega]
          simpa using h2
      · rintro ⟨h1, h2⟩
        obtain ⟨d, rfl⟩ := Nat.exists_eq_add_of_le h1
        cases d with
        | zero => left; simp at h2; simp [h2]
        | succ d =>
          right
          refine ⟨by omega, ?_⟩
          rw [show base + (d + 1) - (base + 1) = d by omega]
          simpa using h2
  simpa [Buffer.cells, Buffer.read] using key buf 0

theorem Buffer.read_append_left (buf more : List Byte) {a : Nat} (h : a < buf.length) :
    Buffer.read (buf ++ more) a = Buffer.read buf a := by
  simp [Buffer.read, List.getElem?_append_left h]

theorem Buffer.read_eq_none_iff (buf : List Byte) (a : Nat) : Buffer.read buf a = none ↔ buf.length ≤ a := by
  simp [Buffer.read]

theorem Buffer.read_of_lt (buf : List Byte) {a : Nat} (h : a < buf.length) : Buffer.read buf a = some (buf[a]'h) := by
  simp [Buffer.read, h]

/-! ## `out_byte` -/

theorem outByte_of_room {s : State} (b : Byte) (h : s.olen < s.cfg.obufCap) :
    outByte b s = .ok { s with obuf := s.obuf ++ [b] } := by
  simp [outByte, h]

theorem outByte_of_full {s : State} (b : Byte) (h : s.cfg.obufCap ≤ s.olen) : outByte b s = raise .bufferOverflow := by
  simp [outByte, Nat.not_lt.2 h]

/-- All that `out_byte` can do. -/
theorem outByte_cases (b : Byte) (s : State) :
    (s.olen < s.cfg.obufCap ∧ outByte b s = .ok { s with obuf := s.obuf ++ [b] }) ∨
    (s.cfg.obufCap ≤ s.olen ∧ outByte b s = raise .bufferOverflow) := by
  by_cases h : s.olen < s.cfg.obufCap
  · exact .inl ⟨h, outByte_of_room b h⟩
  · exact .inr ⟨Nat.not_lt.1 h, outByte_of_full b (Nat.not_lt.1 h)⟩

theorem outBytes_of_room (bs : List Byte) (s : State) (h : s.olen + bs.length ≤ s.cfg.obufCap) :
    outBytes bs s = .ok { s with obuf := s.obuf ++ bs } := by
  induction bs generalizing s with
  | nil => simp [outBytes]
  | cons b bs ih =>
    simp only [List.length_cons] at h
    rw [outBytes, outByte_of_room b (by omega)]
    change outBytes bs _ = _
    rw [ih]
    · simp
    · simp [State.olen] at h ⊢; omega

theorem outBytes_of_full (bs : List Byte) (s : State) (h0 : s.olen ≤ s.cfg.obufCap)
    (h : s.cfg.obufCap < s.olen + bs.length) : outBytes bs s = raise .bufferOverflow := by
  induction bs generalizing s with
  | nil => simp at h; omega
  | cons b bs ih =>
    simp only [List.length_cons] at h
    rcases outByte_cases b s with ⟨hr, he⟩ | ⟨-, he⟩
    · rw [outBytes, he]
      change outBytes bs _ = _
      apply ih
      · simp [State.olen] at hr ⊢; omega
      · simp [State.olen] at h ⊢; omega
    · rw [outBytes, he]; rfl

end Sys2Proof.Machine
end

