-- ==== Sys2Proof/Laws/Bits.lean ====
section
/-! SUPPORT. Bit streams: what the packer adds to the output's bit sequence (44_bit_packer.md R200 to R203) and which bit of
the payload's bit sequence the cursor reads (R204, R207, R208). -/

namespace Sys2Proof.Machine

open Sys2Proof

/-! ## Bytes as bits -/

theorem bitsOfByte_length (b : Byte) : (bitsOfByte b).length = 8 := by simp [bitsOfByte]

theorem bitsOf_nil : bitsOf [] = [] := rfl

theorem bitsOf_append (xs ys : List Byte) : bitsOf (xs ++ ys) = bitsOf xs ++ bitsOf ys := by simp [bitsOf]

theorem bitsOf_singleton (b : Byte) : bitsOf [b] = bitsOfByte b := by simp [bitsOf]

theorem bitsOf_length (xs : List Byte) : (bitsOf xs).length = 8 * xs.length := by
  induction xs with
  | nil => rfl
  | cons b xs ih =>
    rw [show b :: xs = [b] ++ xs from rfl, bitsOf_append, List.length_append, ih, bitsOf_singleton, bitsOfByte_length]
    simp [Nat.mul_add]
    omega

/-- Payload bit number `k` is bit `7 − (k mod 8)` of payload byte `⌊k/8⌋` (20_memory.md R77). -/
theorem bitsOf_getElem? (xs : List Byte) (k : Nat) :
    (bitsOf xs)[k]? = (xs[k / 8]?).map (fun b => b.getLsbD (7 - k % 8)) := by
  induction xs generalizing k with
  | nil => simp [bitsOf]
  | cons b xs ih =>
    rw [show b :: xs = [b] ++ xs from rfl, bitsOf_append, bitsOf_singleton]
    by_cases hk : k < 8
    · rw [List.getElem?_append_left (by rw [bitsOfByte_length]; exact hk)]
      have h0 : k / 8 = 0 := by omega
      have h1 : k % 8 = k := by omega
      simp [bitsOfByte, h0, h1, hk]
    · rw [List.getElem?_append_right (by rw [bitsOfByte_length]; omega), bitsOfByte_length, ih]
      have h0 : k / 8 = (k - 8) / 8 + 1 := by omega
      have h1 : (k - 8) % 8 = k % 8 := by omega
      simp [h0, h1]

/-! ## The packer -/

/-- R44 (h) for the packer. -/
abbrev PackerOk (s : State) : Prop := s.nacc < 8 ∧ s.acc.toNat % 2 ^ (8 - s.nacc) = 0

theorem low_bits_zero {acc : BitVec 8} {k : Nat} (h : acc.toNat % 2 ^ k = 0) {i : Nat} (hi : i < k) :
    acc.getLsbD i = false := by
  have := Nat.testBit_mod_two_pow acc.toNat k i
  rw [h] at this
  simpa [hi, BitVec.testBit_toNat] using this.symm

theorem mod_of_low_bits {acc : BitVec 8} {k : Nat} (h : ∀ i < k, acc.getLsbD i = false) : acc.toNat % 2 ^ k = 0 := by
  apply Nat.eq_of_testBit_eq
  intro i
  rw [Nat.testBit_mod_two_pow, BitVec.testBit_toNat]
  by_cases hi : i < k
  · simp [hi, h i hi]
  · simp [hi]

theorem pushed_bit (acc : BitVec 8) (b : Bool) {n : Nat} (hn : n < 8) (i : Nat) :
    (acc ||| (bitByte b <<< (7 - n))).getLsbD i = (acc.getLsbD i || (b && decide (i = 7 - n))) := by
  by_cases hi : i = 7 - n
  · subst hi
    cases b <;> simp [bitByte, show 7 - n < 8 by omega]
  · simp only [BitVec.getLsbD_or, BitVec.getLsbD_shiftLeft, hi, decide_false, Bool.and_false, Bool.or_false]
    have hz : ∀ j, 0 < j → (bitByte b).getLsbD j = false := by
      intro j hj
      cases b
      · simp [bitByte]
      · simp [bitByte, BitVec.getLsbD_one]; omega
    by_cases h8 : i < 8
    · by_cases hlt : i < 7 - n
      · simp [hlt]
      · simp [hz (i - (7 - n)) (by omega)]
    · simp [h8]

/-- The bits waiting after one more bit was put below them. -/
theorem waiting_pushed (acc : BitVec 8) (b : Bool) {n : Nat} (hn : n < 8) (hz : acc.toNat % 2 ^ (8 - n) = 0) :
    (List.range (n + 1)).map (fun j => (acc ||| (bitByte b <<< (7 - n))).getLsbD (7 - j)) =
      (List.range n).map (fun j => acc.getLsbD (7 - j)) ++ [b] := by
  rw [List.range_succ, List.map_append]
  congr 1
  · apply List.map_congr_left
    intro j hj
    have := List.mem_range.1 hj
    rw [pushed_bit acc b hn]
    simp [show ¬ (7 - j = 7 - n) by omega]
  · have := low_bits_zero hz (i := 7 - n) (by omega)
    simp [pushed_bit acc b hn, this]

theorem waiting_length (s : State) : s.waiting.length = s.nacc := by simp [State.waiting]

theorem outputBits_length (s : State) : s.outputBits.length = 8 * s.olen + s.nacc := by
  simp [State.outputBits, bitsOf_length, waiting_length, State.olen]

/-- `pack_bit` with room: the output's bit sequence grows by the one bit, and nothing but the output and the packer changes
(44_bit_packer.md R201). -/
theorem packBit_of_room (b : Bool) (s : State) (hp : PackerOk s) (hroom : s.nacc = 7 → s.olen < s.cfg.obufCap) :
    ∃ t, packBit b s = .ok t ∧ t = { s with obuf := t.obuf, acc := t.acc, nacc := t.nacc } ∧ PackerOk t ∧
      t.outputBits = s.outputBits ++ [b] ∧ s.obuf <+: t.obuf := by
  obtain ⟨hn, hz⟩ := hp
  by_cases h7 : s.nacc = 7
  · have hw := waiting_pushed s.acc b hn hz
    refine ⟨{ s with obuf := s.obuf ++ [s.acc ||| (bitByte b <<< (7 - s.nacc))], acc := 0#8, nacc := 0 }, ?_, rfl, ?_, ?_, ?_⟩
    · simp only [packBit, h7, if_true]
      rw [outByte_of_room _ (hroom h7)]
      rfl
    · simp [PackerOk]
    · simp only [State.outputBits, State.waiting, bitsOf_append, bitsOf_singleton, List.range_zero, List.map_nil,
        List.append_nil, List.append_assoc, ← hw]
      simp [bitsOfByte, h7]
    · exact List.prefix_append _ _
  · refine ⟨{ s with acc := s.acc ||| (bitByte b <<< (7 - s.nacc)), nacc := s.nacc + 1 }, ?_, rfl, ?_, ?_, ?_⟩
    · simp [packBit, h7]
    · refine ⟨by simp only; omega, ?_⟩
      apply mod_of_low_bits
      intro i hi
      simp only at hi ⊢
      rw [pushed_bit s.acc b hn, low_bits_zero hz (by omega)]
      simp; intro _; omega
    · simp only [State.outputBits, State.waiting, List.append_assoc, waiting_pushed s.acc b hn hz]
    · exact List.prefix_rfl

theorem packBit_of_full (b : Bool) (s : State) (h7 : s.nacc = 7) (hfull : s.cfg.obufCap ≤ s.olen) :
    packBit b s = raise .bufferOverflow := by
  simp only [packBit, h7, if_true]
  rw [outByte_of_full _ hfull]
  rfl

/-- `pack_bit` of many bits with room for every byte they complete. -/
theorem packBits_of_room (q : List Bool) (s : State) (hp : PackerOk s)
    (hroom : s.olen + (s.nacc + q.length) / 8 ≤ s.cfg.obufCap) :
    ∃ t, packBits q s = .ok t ∧ t = { s with obuf := t.obuf, acc := t.acc, nacc := t.nacc } ∧ PackerOk t ∧
      t.outputBits = s.outputBits ++ q ∧ s.obuf <+: t.obuf := by
  induction q generalizing s with
  | nil => exact ⟨s, rfl, rfl, hp, by simp, List.prefix_rfl⟩
  | cons b q ih =>
    simp only [List.length_cons] at hroom
    obtain ⟨t, ht, hfr, hpt, hbits, hpre⟩ := packBit_of_room b s hp (by intro h; omega)
    have hcap : t.cfg = s.cfg := by rw [hfr]
    have hlen := congrArg List.length hbits
    rw [outputBits_length, List.length_append, outputBits_length] at hlen
    simp only [List.length_singleton] at hlen
    obtain ⟨u, hu, hfu, hpu, hbu, hpre'⟩ := ih t hpt (by rw [hcap]; have := hpt.1; have := hp.1; omega)
    refine ⟨u, ?_, ?_, hpu, ?_, hpre.trans hpre'⟩
    · rw [packBits, ht]; exact hu
    · rw [hfu, hfr]
    · rw [hbu, hbits]; simp

theorem packBits_of_full (q : List Bool) (s : State) (hp : PackerOk s) (h0 : s.olen ≤ s.cfg.obufCap)
    (hfull : s.cfg.obufCap < s.olen + (s.nacc + q.length) / 8) : packBits q s = raise .bufferOverflow := by
  induction q generalizing s with
  | nil => have := hp.1; simp at hfull; omega
  | cons b q ih =>
    simp only [List.length_cons] at hfull
    by_cases hroom : s.nacc = 7 → s.olen < s.cfg.obufCap
    · obtain ⟨t, ht, hfr, hpt, hbits, hpre⟩ := packBit_of_room b s hp hroom
      have hcap : t.cfg = s.cfg := by rw [hfr]
      have hlen := congrArg List.length hbits
      rw [outputBits_length, List.length_append, outputBits_length] at hlen
      simp only [List.length_singleton] at hlen
      have h1 := hpt.1
      have h2 := hp.1
      rw [packBits, ht]
      refine ih t hpt ?_ ?_ <;> rw [hcap]
      · by_cases h7 : s.nacc = 7
        · have := hroom h7; omega
        · omega
      · omega
    · simp only [Classical.not_imp, not_lt] at hroom
      rw [packBits, packBit_of_full b s hroom.1 hroom.2]
      rfl

/-! ## The unpack cursor -/

theorem payloadBits_length (s : State) : s.payloadBits.length = 8 * (s.ilen - s.rpos) := by
  simp [State.payloadBits, bitsOf_length, State.ilen]

/-- `bits_left()` counts the bits of the payload not yet consumed (R207). -/
theorem bitsLeft_eq (s : State) : s.bitsLeft = (s.payloadBits.drop s.bpos).length := by
  simp [State.bitsLeft, payloadBits_length]

/-- `next_bit()` reads the next bit of the payload's bit sequence (R208). -/
theorem payloadBit_eq (s : State) {k : Nat} (h : k < s.payloadBits.length) :
    s.payloadBits[k]? = some (s.payloadBit k) := by
  rw [payloadBits_length] at h
  rw [State.payloadBits, bitsOf_getElem?, State.payloadBit, Buffer.read, List.getElem?_drop]
  have : s.rpos + k / 8 < s.ibuf.length := by simp only [State.ilen] at h; omega
  simp [this]

theorem drop_bpos_cons (s : State) (h : 0 < s.bitsLeft) :
    s.payloadBits.drop s.bpos = (nextBit s).1 :: s.payloadBits.drop (s.bpos + 1) := by
  rw [bitsLeft_eq, List.length_drop] at h
  have hk : s.bpos < s.payloadBits.length := by omega
  rw [List.drop_eq_getElem_cons hk]
  have := payloadBit_eq s hk
  rw [List.getElem?_eq_getElem hk] at this
  simp only [Option.some.injEq] at this
  simp [nextBit, this]

theorem nextBit_bitsLeft (s : State) : (nextBit s).2.bitsLeft = s.bitsLeft - 1 := by
  simp only [nextBit, State.bitsLeft, State.ilen]
  omega

end Sys2Proof.Machine
end

