-- ==== Sys2Proof/Laws/Queue.lean ====
section
/-! SUPPORT. The priority queue: its order is a strict total order (42_tree_builder.md R161), ranks are unique and every rank
below the length is attained (R167), and what extracting the minimum does (R163). -/

namespace Sys2Proof.Machine

open Sys2Proof

variable (nodes : List Node)

/-! ## The order -/

theorem comesBefore_iff (i j : Nat) : comesBefore nodes i j = true ↔
    freqAt nodes i < freqAt nodes j ∨ (freqAt nodes i = freqAt nodes j ∧ i < j) := by
  simp [comesBefore]

theorem comesBefore_irrefl (i : Nat) : comesBefore nodes i i = false := by
  rw [Bool.eq_false_iff]
  intro h
  rw [comesBefore_iff] at h
  omega

theorem comesBefore_trans {i j k : Nat} (h1 : comesBefore nodes i j = true) (h2 : comesBefore nodes j k = true) :
    comesBefore nodes i k = true := by
  rw [comesBefore_iff] at *
  omega

theorem comesBefore_total {i j : Nat} (h : i ≠ j) : comesBefore nodes i j = true ∨ comesBefore nodes j i = true := by
  rw [comesBefore_iff, comesBefore_iff]
  omega

theorem comesBefore_asymm {i j : Nat} (h : comesBefore nodes i j = true) : comesBefore nodes j i = false := by
  rw [Bool.eq_false_iff]
  intro h'
  rw [comesBefore_iff] at h h'
  omega

/-! ## Ranks -/

variable {inq : List Nat}

theorem rankOf_lt_of_before {i j : Nat} (hi : i ∈ inq) (h : comesBefore nodes i j = true) :
    rankOf nodes inq i < rankOf nodes inq j := by
  have hp := List.perm_cons_erase hi
  simp only [rankOf]
  rw [hp.countP_eq, hp.countP_eq, List.countP_cons, List.countP_cons, comesBefore_irrefl, h]
  have : List.countP (fun x => comesBefore nodes x i) (inq.erase i) ≤
      List.countP (fun x => comesBefore nodes x j) (inq.erase i) :=
    List.countP_mono_left (fun x _ hx => comesBefore_trans nodes hx h)
  simp only [Bool.false_eq_true, if_false, if_true]
  omega

theorem rankOf_inj {i j : Nat} (hi : i ∈ inq) (hj : j ∈ inq) (h : rankOf nodes inq i = rankOf nodes inq j) : i = j := by
  by_contra hne
  rcases comesBefore_total nodes hne with hb | hb
  · have := rankOf_lt_of_before nodes hi hb; omega
  · have := rankOf_lt_of_before nodes hj hb; omega

theorem rankOf_lt_length {i : Nat} (hi : i ∈ inq) : rankOf nodes inq i < inq.length := by
  have hp := List.perm_cons_erase hi
  rw [rankOf, hp.countP_eq, hp.length_eq, List.countP_cons, comesBefore_irrefl]
  have := List.countP_le_length (p := fun x => comesBefore nodes x i) (l := inq.erase i)
  simp only [Bool.false_eq_true, if_false, List.length_cons]
  omega

/-- Every rank below the queue's length is the rank of a member (R167). -/
theorem exists_rank (hnd : inq.Nodup) {k : Nat} (hk : k < inq.length) : ∃ m ∈ inq, rankOf nodes inq m = k := by
  have hnd' : (inq.map (rankOf nodes inq)).Nodup :=
    List.Nodup.map_on (fun i hi j hj h => rankOf_inj nodes hi hj h) hnd
  have hsub : inq.map (rankOf nodes inq) ⊆ List.range inq.length := by
    intro x hx
    obtain ⟨m, hm, rfl⟩ := List.mem_map.1 hx
    exact List.mem_range.2 (rankOf_lt_length nodes hm)
  have hperm := (hnd'.subperm hsub).perm_of_length_le (by simp)
  have : k ∈ inq.map (rankOf nodes inq) := hperm.mem_iff.2 (List.mem_range.2 hk)
  simpa using this

theorem memberOfRank_spec {k m : Nat} (h : memberOfRank nodes inq k = some m) : m ∈ inq ∧ rankOf nodes inq m = k := by
  refine ⟨List.mem_of_find?_eq_some h, ?_⟩
  have := List.find?_some h
  simpa using this

/-- `PQ_RD`'s member is there for every rank below the length. -/
theorem memberOfRank_exists (hnd : inq.Nodup) {k : Nat} (hk : k < inq.length) :
    ∃ m, memberOfRank nodes inq k = some m ∧ m ∈ inq ∧ rankOf nodes inq m = k := by
  obtain ⟨m, hm, hr⟩ := exists_rank nodes hnd hk
  have hsome : (memberOfRank nodes inq k).isSome = true := by
    rw [memberOfRank, List.find?_isSome]
    exact ⟨m, hm, by simp [hr]⟩
  obtain ⟨m', hm'⟩ := Option.isSome_iff_exists.1 hsome
  exact ⟨m', hm', memberOfRank_spec nodes hm'⟩

theorem memberOfRank_eq {k m : Nat} (hm : m ∈ inq) (hr : rankOf nodes inq m = k) :
    memberOfRank nodes inq k = some m := by
  have hsome : (memberOfRank nodes inq k).isSome = true := by
    rw [memberOfRank, List.find?_isSome]
    exact ⟨m, hm, by simp [hr]⟩
  obtain ⟨m', hm'⟩ := Option.isSome_iff_exists.1 hsome
  obtain ⟨h1, h2⟩ := memberOfRank_spec nodes hm'
  rw [hm', rankOf_inj nodes h1 hm (h2.trans hr.symm)]

/-- The member of rank 0 comes before every other member. -/
theorem first_of_rank_zero {m j : Nat} (hr : rankOf nodes inq m = 0) (hj : j ∈ inq) (hne : j ≠ m) :
    comesBefore nodes m j = true := by
  rcases comesBefore_total nodes hne with h | h
  · have := rankOf_lt_of_before nodes hj h; omega
  · exact h

theorem rank_zero_of_first {m : Nat} (h : ∀ j ∈ inq, j ≠ m → comesBefore nodes m j = true) : rankOf nodes inq m = 0 := by
  rw [rankOf, List.countP_eq_zero]
  intro j hj
  by_cases hjm : j = m
  · subst hjm; simp [comesBefore_irrefl]
  · simp [comesBefore_asymm nodes (h j hj hjm)]

theorem queueBacked_iff : queueBacked nodes inq = true ↔ ∀ i ∈ inq, i < nodes.length := by
  simp [queueBacked, List.all_eq_true]

/-- `pq_extract_min()` on a queue with a member (R163): the member that comes before every other, and the queue without it. -/
theorem extractMin_spec (hb : queueBacked nodes inq = true) (hnd : inq.Nodup) (hne : inq ≠ []) :
    ∃ m ∈ inq, extractMin nodes inq = .ok (m, inq.erase m) ∧ ∀ j ∈ inq, j ≠ m → comesBefore nodes m j = true := by
  obtain ⟨m, hm, hmem, hr⟩ := memberOfRank_exists nodes hnd (List.length_pos_of_ne_nil hne)
  exact ⟨m, hmem, by simp [extractMin, hb, hm], fun j hj hjm => first_of_rank_zero nodes hr hj hjm⟩

/-- All that extracting the minimum can answer. -/
theorem extractMin_ok {m : Nat} {q : List Nat} (h : extractMin nodes inq = .ok (m, q)) :
    queueBacked nodes inq = true ∧ m ∈ inq ∧ q = inq.erase m ∧ ∀ j ∈ inq, j ≠ m → comesBefore nodes m j = true := by
  simp only [extractMin] at h
  split at h
  · rename_i hb
    split at h
    · rename_i m' hm'
      cases h
      obtain ⟨h1, h2⟩ := memberOfRank_spec nodes hm'
      exact ⟨hb, h1, rfl, fun j hj hjm => first_of_rank_zero nodes h2 hj hjm⟩
    · cases h
  · cases h

/-- The minimum is unique, so it can be named from the outside (R161: "its minimum is unique"). -/
theorem extractMin_eq {m : Nat} (hb : queueBacked nodes inq = true) (hm : m ∈ inq)
    (h : ∀ j ∈ inq, j ≠ m → comesBefore nodes m j = true) : extractMin nodes inq = .ok (m, inq.erase m) := by
  simp [extractMin, hb, memberOfRank_eq nodes hm (rank_zero_of_first nodes h)]

/-- No Operation on the queue raises an error of the spec. -/
theorem extractMin_ne_raise {e : ErrCode} : extractMin nodes inq ≠ raise e := by
  simp only [extractMin]
  split
  · split <;> simp
  · simp

end Sys2Proof.Machine
end

