-- ==== Sys2Proof/Laws/Tables.lean ====
section
/-! SUPPORT. Finite maps from symbols: what `find`, `put` and `wf` do to each other, and that two maps in the canonical form
with the same entries are equal data (41_frequency_model.md R153). -/

namespace Sys2Proof.Machine

open Sys2Proof

variable {α : Type}

theorem Table.find_cons (k k' : Byte) (v : α) (t : Table α) :
    Table.find ((k', v) :: t) k = if k' = k then some v else Table.find t k := rfl

theorem Table.find_put_same (t : Table α) (k : Byte) (v : α) : (Table.put t k v).find k = some v := by
  induction t with
  | nil => simp [Table.put, Table.find]
  | cons e t ih =>
    obtain ⟨k', v'⟩ := e
    simp only [Table.put]
    split
    · simp [Table.find]
    · split
      · simp [Table.find]
      · rename_i h1 h2
        simp [Table.find, Ne.symm h2, ih]

theorem Table.find_put_other (t : Table α) {k b : Byte} (v : α) (h : b ≠ k) : (Table.put t k v).find b = t.find b := by
  induction t with
  | nil => simp [Table.put, Table.find, h.symm]
  | cons e t ih =>
    obtain ⟨k', v'⟩ := e
    simp only [Table.put]
    split
    · simp [Table.find, h.symm]
    · split
      · rename_i h1 h2
        subst h2
        simp [Table.find, h.symm]
      · simp [Table.find, ih]

theorem Table.find_put (t : Table α) (k b : Byte) (v : α) :
    (Table.put t k v).find b = if b = k then some v else t.find b := by
  split
  · subst b; exact Table.find_put_same t k v
  · exact Table.find_put_other t v ‹_›

theorem Table.mem_of_find {t : Table α} {k : Byte} {v : α} (h : Table.find t k = some v) : (k, v) ∈ t := by
  induction t with
  | nil => simp [Table.find] at h
  | cons e t ih =>
    obtain ⟨k', v'⟩ := e
    simp only [Table.find] at h
    split at h
    · rename_i hk; subst hk; simp_all
    · exact List.mem_cons_of_mem _ (ih h)

theorem Table.mem_put {t : Table α} {k : Byte} {v : α} {e : Byte × α} (h : e ∈ Table.put t k v) : e = (k, v) ∨ e ∈ t := by
  induction t with
  | nil => simpa [Table.put] using h
  | cons e' t ih =>
    obtain ⟨k', v'⟩ := e'
    simp only [Table.put] at h
    split at h
    · simpa using h
    · split at h
      · rcases List.mem_cons.1 h with h | h
        · exact .inl h
        · exact .inr (List.mem_cons_of_mem _ h)
      · rcases List.mem_cons.1 h with h | h
        · exact .inr (h ▸ List.mem_cons_self)
        · exact (ih h).imp id (List.mem_cons_of_mem _)

theorem Table.wf_cons (e : Byte × α) (t : Table α) :
    Table.wf (e :: t) = true ↔ (∀ e' ∈ t, e.1.toNat < e'.1.toNat) ∧ Table.wf t = true := by
  simp [Table.wf, List.all_eq_true]

theorem Table.put_wf {t : Table α} (k : Byte) (v : α) (h : Table.wf t = true) : Table.wf (Table.put t k v) = true := by
  induction t with
  | nil => simp [Table.put, Table.wf]
  | cons e t ih =>
    obtain ⟨k', v'⟩ := e
    rw [Table.wf_cons] at h
    simp only [Table.put]
    split
    · rename_i hlt
      rw [Table.wf_cons, Table.wf_cons]
      refine ⟨?_, h⟩
      intro e' he'
      rcases List.mem_cons.1 he' with rfl | he'
      · exact hlt
      · exact hlt.trans (h.1 e' he')
    · split
      · rename_i hlt heq
        subst heq
        rw [Table.wf_cons]
        exact h
      · rename_i hlt hne
        rw [Table.wf_cons]
        refine ⟨?_, ih h.2⟩
        intro e' he'
        rcases Table.mem_put he' with rfl | he'
        · have : k.toNat ≠ k'.toNat := fun hc => hne (BitVec.eq_of_toNat_eq hc)
          simp only at *
          omega
        · exact h.1 e' he'

theorem Table.find_of_mem {t : Table α} (h : Table.wf t = true) {k : Byte} {v : α} (hm : (k, v) ∈ t) :
    t.find k = some v := by
  induction t with
  | nil => simp at hm
  | cons e t ih =>
    obtain ⟨k', v'⟩ := e
    rw [Table.wf_cons] at h
    rcases List.mem_cons.1 hm with hm | hm
    · cases hm; simp [Table.find]
    · have := h.1 _ hm
      have hne : k' ≠ k := by rintro rfl; simp at this
      simp [Table.find, hne, ih h.2 hm]

theorem Table.find_iff_mem {t : Table α} (h : Table.wf t = true) {k : Byte} {v : α} : t.find k = some v ↔ (k, v) ∈ t :=
  ⟨Table.mem_of_find, Table.find_of_mem h⟩

theorem Table.isSome_find_iff {t : Table α} {k : Byte} : (t.find k).isSome = true ↔ k ∈ t.map (·.1) := by
  induction t with
  | nil => simp [Table.find]
  | cons e t ih =>
    obtain ⟨k', v'⟩ := e
    simp only [Table.find, List.map_cons, List.mem_cons]
    split
    · rename_i h; simp [h]
    · rename_i h
      rw [ih]
      exact ⟨.inr, fun hh => hh.resolve_left (Ne.symm h)⟩

theorem Table.keys_nodup {t : Table α} (h : Table.wf t = true) : (t.map (·.1)).Nodup := by
  induction t with
  | nil => simp
  | cons e t ih =>
    rw [Table.wf_cons] at h
    rw [List.map_cons, List.nodup_cons]
    refine ⟨?_, ih h.2⟩
    intro hm
    obtain ⟨e', he', hk⟩ := List.mem_map.1 hm
    have := h.1 e' he'
    rw [hk] at this
    exact lt_irrefl _ this

theorem Table.wf_iff_pairwise {t : Table α} :
    Table.wf t = true ↔ t.Pairwise (fun a b => a.1.toNat < b.1.toNat) := by
  induction t with
  | nil => simp [Table.wf]
  | cons e t ih => rw [Table.wf_cons, List.pairwise_cons, ih]

/-- A canonical map has at most 256 entries (10_state.md R27). -/
theorem Table.length_le {t : Table α} (h : Table.wf t = true) : t.length ≤ 256 := by
  have hnd : ((t.map (·.1)).map BitVec.toNat).Nodup :=
    (Table.keys_nodup h).map (fun _ _ => BitVec.eq_of_toNat_eq)
  have hsub : ((t.map (·.1)).map BitVec.toNat) ⊆ List.range 256 := by
    intro x hx
    obtain ⟨b, -, rfl⟩ := List.mem_map.1 hx
    exact List.mem_range.2 b.isLt
  simpa using (hnd.subperm hsub).length_le

/-- Canonical maps with the same entries are equal. -/
theorem Table.ext_find {t u : Table α} (ht : Table.wf t = true) (hu : Table.wf u = true)
    (h : ∀ k, t.find k = u.find k) : t = u := by
  have hmem : ∀ e, e ∈ t ↔ e ∈ u := by
    rintro ⟨k, v⟩
    rw [← Table.find_iff_mem ht, ← Table.find_iff_mem hu, h]
  have ht' := Table.wf_iff_pairwise.1 ht
  have hu' := Table.wf_iff_pairwise.1 hu
  have irr : ∀ (l : Table α), l.Pairwise (fun a b => a.1.toNat < b.1.toNat) → l.Nodup := by
    intro l hl
    refine hl.imp ?_
    rintro a b hab rfl
    exact lt_irrefl _ hab
  refine List.Perm.eq_of_pairwise ?_ ht' hu' ((List.perm_ext_iff_of_nodup (irr t ht') (irr u hu')).2 hmem)
  intro a b _ _ hab hba
  exact absurd (hab.trans hba) (lt_irrefl _)

theorem Table.find_eq_none_iff {t : Table α} {k : Byte} : t.find k = none ↔ k ∉ t.map (·.1) := by
  rw [← Table.isSome_find_iff]
  cases t.find k <;> simp

/-- A new symbol is one more entry. -/
theorem Table.length_put_of_none {t : Table α} {k : Byte} (v : α) (h : t.find k = none) :
    (Table.put t k v).length = t.length + 1 := by
  induction t with
  | nil => simp [Table.put]
  | cons e t ih =>
    obtain ⟨k', v'⟩ := e
    simp only [Table.find] at h
    split at h
    · simp at h
    · rename_i hne
      simp only [Table.put]
      split
      · simp
      · simp [Ne.symm hne, ih h]

end Sys2Proof.Machine
end

