-- ==== Sys2Proof/Laws/Build.lean ====
section
/-! SUPPORT. The Tree Builder: what `TB_INIT` and `TB_STEP` do to the arena and the queue, and that they keep the arena a
forest over the table (42_tree_builder.md R164, R165, R171; 10_state.md R31). -/

namespace Sys2Proof.Machine

open Sys2Proof

/-! ## Reading the arena -/

theorem freqAt_append_left {nodes more : List Node} {i : Nat} (h : i < nodes.length) :
    freqAt (nodes ++ more) i = freqAt nodes i := by
  simp [freqAt, List.getElem?_append_left h]

theorem freqAt_append_last (nodes : List Node) (n : Node) : freqAt (nodes ++ [n]) nodes.length = n.freq := by
  simp [freqAt]

theorem freqAt_of_getElem? {nodes : List Node} {i : Nat} {n : Node} (h : nodes[i]? = some n) : freqAt nodes i = n.freq := by
  simp [freqAt, h]

theorem nodeAt_of_lt {nodes : List Node} {i : Nat} (h : i < nodes.length) :
    ∃ n, nodeAt nodes i = .ok n ∧ nodes[i]? = some n ∧ n.freq = freqAt nodes i := by
  refine ⟨nodes[i], ?_, ?_, ?_⟩ <;> simp [nodeAt, freqAt, h]

theorem nodeAt_ok {nodes : List Node} {i : Nat} {n : Node} (h : nodeAt nodes i = .ok n) : nodes[i]? = some n := by
  simp only [nodeAt] at h
  split at h
  · cases h; assumption
  · cases h

theorem nodeAt_of_getElem? {nodes : List Node} {i : Nat} {n : Node} (h : nodes[i]? = some n) : nodeAt nodes i = .ok n := by
  simp [nodeAt, h]

theorem queueSum_append_left {nodes more : List Node} {inq : List Nat} (h : ∀ i ∈ inq, i < nodes.length) :
    queueSum (nodes ++ more) inq = queueSum nodes inq := by
  simp only [queueSum]
  congr 1
  exact List.map_congr_left (fun i hi => freqAt_append_left (h i hi))

theorem queueSum_perm {nodes : List Node} {p q : List Nat} (h : p.Perm q) : queueSum nodes p = queueSum nodes q :=
  (h.map _).sum_eq

/-! ## The forest -/

theorem ArenaOk.backed {nodes : List Node} {inq : List Nat} (h : ArenaOk nodes inq) : ∀ i ∈ inq, i < nodes.length := by
  intro i hi
  exact List.mem_range.1 (h.owned.mem_iff.1 (List.mem_append_right _ hi))

theorem ArenaOk.nodup {nodes : List Node} {inq : List Nat} (h : ArenaOk nodes inq) : inq.Nodup :=
  h.ascending.imp (fun hab => Nat.ne_of_lt hab)

theorem ArenaOk.queueBacked {nodes : List Node} {inq : List Nat} (h : ArenaOk nodes inq) :
    queueBacked nodes inq = true := (queueBacked_iff nodes).2 h.backed

theorem arenaOk_empty : ArenaOk [] [] := by
  constructor <;> simp

/-- The arena right after `TB_INIT`: leaves only, every one in the queue (R164 (d)). -/
theorem arenaOk_leaves (t : Table Nat) : ArenaOk (leavesOf t) (List.range t.length) := by
  have hleaf : ∀ (k f l r : Nat), (leavesOf t)[k]? ≠ some (Node.internal f l r) := by
    intro k f l r h
    simp only [leavesOf, List.getElem?_map, Option.map_eq_some_iff] at h
    obtain ⟨e, -, he⟩ := h
    cases he
  constructor
  · exact fun k f l r h => absurd h (hleaf k f l r)
  · exact fun k f l r h => absurd h (hleaf k f l r)
  · have : (leavesOf t).flatMap Node.children = [] := by
      induction t with
      | nil => rfl
      | cons e t ih => simpa [leavesOf, Node.children] using ih
    rw [this, List.nil_append, show (leavesOf t).length = t.length by simp [leavesOf]]
  · exact List.pairwise_lt_range

theorem arenaOf_leaves (t : Table Nat) : ArenaOf t (leavesOf t) := by
  have hlen : (leavesOf t).length = t.length := by simp [leavesOf]
  constructor
  · rw [← hlen, List.take_length]
  · rw [← hlen, List.drop_length]; simp

theorem queueSum_leaves (t : Table Nat) : queueSum (leavesOf t) (List.range t.length) = countSum t := by
  have : (List.range t.length).map (freqAt (leavesOf t)) = t.map (·.2) := by
    apply List.ext_getElem
    · simp
    · intro i h1 h2
      simp only [List.length_map, List.length_range] at h1
      simp [freqAt, leavesOf, h1, Node.freq]
  simp [queueSum, countSum, this]

/-- One merge keeps the arena a forest (R165, R171 (d)). -/
theorem arenaOk_merge {nodes : List Node} {inq : List Nat} {a b : Nat} (h : ArenaOk nodes inq) (ha : a ∈ inq)
    (hb : b ∈ inq.erase a) :
    ArenaOk (nodes ++ [.internal (freqAt nodes a + freqAt nodes b) a b])
      (pqInsert ((inq.erase a).erase b) nodes.length) := by
  have hbi : b ∈ inq := List.mem_of_mem_erase hb
  have hak := h.backed a ha
  have hbk := h.backed b hbi
  have hab : a ≠ b := by
    rintro rfl
    exact (h.nodup.mem_erase_iff.1 hb).1 rfl
  have hback : ∀ i ∈ (inq.erase a).erase b, i < nodes.length := fun i hi =>
    h.backed i (List.mem_of_mem_erase (List.mem_of_mem_erase hi))
  have hint : ∀ (k f l r : Nat), (nodes ++ [Node.internal (freqAt nodes a + freqAt nodes b) a b])[k]? =
      some (Node.internal f l r) → (nodes[k]? = some (Node.internal f l r) ∧ k < nodes.length) ∨
        (k = nodes.length ∧ f = freqAt nodes a + freqAt nodes b ∧ l = a ∧ r = b) := by
    intro k f l r hk
    rcases Nat.lt_trichotomy k nodes.length with hlt | heq | hgt
    · rw [List.getElem?_append_left hlt] at hk
      exact .inl ⟨hk, hlt⟩
    · subst heq
      simp at hk
      exact .inr ⟨rfl, hk.1.symm, hk.2.1.symm, hk.2.2.symm⟩
    · rw [List.getElem?_eq_none (by simp; omega)] at hk
      cases hk
  constructor
  · intro k f l r hk
    rcases hint k f l r hk with ⟨hk, -⟩ | ⟨rfl, -, rfl, rfl⟩
    · exact h.descends k f l r hk
    · exact ⟨hak, hbk, hab⟩
  · intro k f l r hk
    rcases hint k f l r hk with ⟨hk, hlt⟩ | ⟨rfl, rfl, rfl, rfl⟩
    · obtain ⟨hl, hr, -⟩ := h.descends k f l r hk
      rw [freqAt_append_left (hl.trans hlt), freqAt_append_left (hr.trans hlt)]
      exact h.sums k f l r hk
    · rw [freqAt_append_left hak, freqAt_append_left hbk]
  · have hp1 := List.perm_cons_erase ha
    have hp2 := List.perm_cons_erase hb
    have hq : inq.Perm (a :: b :: (inq.erase a).erase b) := hp1.trans (hp2.cons a)
    have howned := h.owned
    rw [List.flatMap_append, List.length_append, List.length_singleton, List.range_succ, pqInsert]
    simp only [List.flatMap_cons, List.flatMap_nil, List.append_nil, Node.children]
    rw [← List.append_assoc]
    refine List.Perm.append ?_ (List.Perm.refl _)
    refine List.Perm.trans ?_ howned
    rw [List.append_assoc]
    exact List.Perm.append (List.Perm.refl _) hq.symm
  · rw [pqInsert, List.pairwise_append]
    refine ⟨(h.ascending.sublist (List.erase_sublist)).sublist (List.erase_sublist), by simp, ?_⟩
    intro i hi j hj
    rw [List.mem_singleton] at hj
    subst hj
    exact hback i hi

theorem queueSum_merge {nodes : List Node} {inq : List Nat} {a b : Nat} (h : ArenaOk nodes inq) (ha : a ∈ inq)
    (hb : b ∈ inq.erase a) :
    queueSum (nodes ++ [.internal (freqAt nodes a + freqAt nodes b) a b])
      (pqInsert ((inq.erase a).erase b) nodes.length) = queueSum nodes inq := by
  have hback : ∀ i ∈ (inq.erase a).erase b, i < nodes.length := fun i hi =>
    h.backed i (List.mem_of_mem_erase (List.mem_of_mem_erase hi))
  have hq : inq.Perm (a :: b :: (inq.erase a).erase b) :=
    (List.perm_cons_erase ha).trans ((List.perm_cons_erase hb).cons a)
  rw [queueSum_perm hq]
  have h1 := queueSum_append_left (more := [Node.internal (freqAt nodes a + freqAt nodes b) a b]) hback
  simp only [queueSum] at h1 ⊢
  rw [pqInsert, List.map_append, List.sum_append, h1]
  simp [freqAt_append_last, Node.freq]
  omega

theorem arenaOf_merge {t : Table Nat} {nodes : List Node} (h : ArenaOf t nodes) (hle : t.length ≤ nodes.length)
    (f l r : Nat) : ArenaOf t (nodes ++ [.internal f l r]) := by
  constructor
  · rw [List.take_append_of_le_length hle]; exact h.leaves
  · rw [List.drop_append_of_le_length hle]
    intro n hn
    rcases List.mem_append.1 hn with hn | hn
    · exact h.internals n hn
    · simp at hn; subst hn; rfl

/-! ## `TB_INIT` -/

/-- The state `TB_INIT` leaves (R164). -/
def tbInitState (s : State) : State :=
  let t := { s with treeValid := false, ctValid := false, nodes := leavesOf s.ft, inq := List.range s.nsym }
  if s.nsym = 1 then t.completeBuild 0 (freqAt t.nodes 0) else { t with tbActive := true }

theorem doTbInit_eq {s : State} (hv : s.ftValid = true) (hn : 1 ≤ s.nsym) : doTbInit s = .ok (tbInitState s) := by
  simp only [doTbInit, requireTable, require, hv, if_true, hn, decide_true, tbInitState, State.pqLen, List.length_range]
  split <;> rfl

theorem doTbInit_noTable {s : State} (hv : s.ftValid = false) : doTbInit s = raise .sequenceError := by
  simp [doTbInit, requireTable, require, hv]
  rfl

theorem doTbInit_empty {s : State} (hv : s.ftValid = true) (hn : s.nsym = 0) : doTbInit s = raise .invalidInput := by
  simp [doTbInit, requireTable, require, hv, hn]
  rfl

/-- All that `TB_INIT` can do (R164). -/
theorem doTbInit_cases (s : State) :
    (s.ftValid = true ∧ 1 ≤ s.nsym ∧ doTbInit s = .ok (tbInitState s)) ∨
    (s.ftValid = false ∧ doTbInit s = raise .sequenceError) ∨
    (s.ftValid = true ∧ s.nsym = 0 ∧ doTbInit s = raise .invalidInput) := by
  cases hv : s.ftValid
  · exact .inr (.inl ⟨rfl, doTbInit_noTable hv⟩)
  · by_cases hn : s.nsym = 0
    · exact .inr (.inr ⟨rfl, hn, doTbInit_empty hv hn⟩)
    · exact .inl ⟨rfl, by omega, doTbInit_eq hv (by omega)⟩

/-- What `TB_INIT` does not touch. -/
theorem tbInitState_frame (s : State) : tbInitState s =
    { s with treeValid := (tbInitState s).treeValid, tbActive := (tbInitState s).tbActive, ctValid := false,
             nodes := leavesOf s.ft, inq := List.range s.nsym, root := (tbInitState s).root,
             total := (tbInitState s).total } := by
  simp only [tbInitState]
  split <;> rfl

/-! ## `TB_STEP` -/

/-- The state `TB_STEP` leaves when it merges `a` and `b` (R165). -/
def mergeState (s : State) (a b : Nat) : State :=
  let f := freqAt s.nodes a + freqAt s.nodes b
  let t := { s with nodes := s.nodes ++ [.internal f a b], inq := pqInsert ((s.inq.erase a).erase b) s.nextId }
  if t.pqLen = 1 then t.completeBuild s.nextId f else t

/-- `a` and `b` are the two minima of the queue, `a` the first. -/
structure TwoMinima (s : State) (a b : Nat) : Prop where
  first : a ∈ s.inq
  second : b ∈ s.inq.erase a
  least : ∀ j ∈ s.inq, j ≠ a → comesBefore s.nodes a j = true
  next : ∀ j ∈ s.inq.erase a, j ≠ b → comesBefore s.nodes b j = true

theorem doTbStep_eq {s : State} {a b : Nat} (hact : s.tbActive = true) (hback : queueBacked s.nodes s.inq = true)
    (h : TwoMinima s a b) : doTbStep s = .ok (mergeState s a b) := by
  have hback' : ∀ i ∈ s.inq, i < s.nodes.length := (queueBacked_iff _).1 hback
  have hback1 : queueBacked s.nodes (s.inq.erase a) = true :=
    (queueBacked_iff _).2 (fun i hi => hback' i (List.mem_of_mem_erase hi))
  obtain ⟨na, hna, -, hfa⟩ := nodeAt_of_lt (hback' a h.first)
  obtain ⟨nb, hnb, -, hfb⟩ := nodeAt_of_lt (hback' b (List.mem_of_mem_erase h.second))
  have h1 := extractMin_eq s.nodes hback h.first h.least
  have h2 := extractMin_eq s.nodes hback1 h.second h.next
  simp only [doTbStep, requireBuild, require, hact, if_true, h1, h2, hna, hnb, bind, Except.bind, mergeState, hfa, hfb]
  split <;> rfl

theorem doTbStep_inactive {s : State} (hact : s.tbActive = false) : doTbStep s = raise .sequenceError := by
  simp [doTbStep, requireBuild, require, hact]
  rfl

/-- The two minima are there whenever the queue has two members. -/
theorem twoMinima_exist {s : State} (ha : ArenaOk s.nodes s.inq) (h2 : 2 ≤ s.pqLen) : ∃ a b, TwoMinima s a b := by
  have hne : s.inq ≠ [] := by rintro h; simp [State.pqLen, h] at h2
  obtain ⟨a, hamem, -, hamin⟩ := extractMin_spec s.nodes ha.queueBacked ha.nodup hne
  have hlen := List.length_erase_of_mem hamem
  have hne' : s.inq.erase a ≠ [] := by
    intro h
    rw [h] at hlen
    simp only [State.pqLen] at h2
    simp at hlen
    omega
  have hb1 : queueBacked s.nodes (s.inq.erase a) = true :=
    (queueBacked_iff _).2 (fun i hi => ha.backed i (List.mem_of_mem_erase hi))
  obtain ⟨b, hbmem, -, hbmin⟩ := extractMin_spec s.nodes hb1 (ha.nodup.erase a) hne'
  exact ⟨a, b, hamem, hbmem, hamin, hbmin⟩

/-- All that `TB_STEP` can do on a forest (R165). -/
theorem doTbStep_cases {s : State} (ha : ArenaOk s.nodes s.inq) (h2 : s.tbActive = true → 2 ≤ s.pqLen) :
    (s.tbActive = false ∧ doTbStep s = raise .sequenceError) ∨
    (s.tbActive = true ∧ ∃ a b, TwoMinima s a b ∧ doTbStep s = .ok (mergeState s a b)) := by
  cases hact : s.tbActive
  · exact .inl ⟨rfl, doTbStep_inactive hact⟩
  · obtain ⟨a, b, hm⟩ := twoMinima_exist ha (h2 hact)
    exact .inr ⟨rfl, a, b, hm, doTbStep_eq hact ha.queueBacked hm⟩

theorem mergeState_nodes (s : State) (a b : Nat) :
    (mergeState s a b).nodes = s.nodes ++ [.internal (freqAt s.nodes a + freqAt s.nodes b) a b] := by
  simp only [mergeState]; split <;> rfl

theorem mergeState_inq (s : State) (a b : Nat) :
    (mergeState s a b).inq = pqInsert ((s.inq.erase a).erase b) s.nextId := by
  simp only [mergeState]; split <;> rfl

/-- What `TB_STEP` does not touch. -/
theorem mergeState_frame (s : State) (a b : Nat) : mergeState s a b =
    { s with nodes := (mergeState s a b).nodes, inq := (mergeState s a b).inq, root := (mergeState s a b).root,
             total := (mergeState s a b).total, treeValid := (mergeState s a b).treeValid,
             tbActive := (mergeState s a b).tbActive } := by
  simp only [mergeState]; split <;> rfl

theorem mergeState_pqLen {s : State} {a b : Nat} (h : TwoMinima s a b) : (mergeState s a b).pqLen = s.pqLen - 1 := by
  have h1 := List.length_erase_of_mem h.first
  have h2 := List.length_erase_of_mem h.second
  have h3 := List.length_pos_of_mem h.second
  simp only [State.pqLen, mergeState_inq, pqInsert, List.length_append, List.length_singleton]
  omega

/-! ## A build in progress -/

/-- What holds between the commands of a build, up to and including its last one. -/
structure Building (s : State) : Prop where
  arena : ArenaOk s.nodes s.inq
  belongs : ArenaOf s.ft s.nodes
  table : s.ftValid = true
  size : s.nextId + s.pqLen = 2 * s.nsym
  queued : 1 ≤ s.pqLen
  sum : queueSum s.nodes s.inq = countSum s.ft
  active : s.tbActive = true ↔ 2 ≤ s.pqLen
  valid : s.treeValid = true ↔ s.pqLen = 1
  finished : s.pqLen = 1 → s.root = s.nextId - 1 ∧ s.inq = [s.root] ∧ s.total = freqAt s.nodes s.root ∧
    s.total = countSum s.ft

theorem Building.leaves_le {s : State} (h : Building s) : s.nsym ≤ s.nextId := by
  have := congrArg List.length h.belongs.leaves
  simp [leavesOf] at this
  exact this

theorem building_tbInit {s : State} (hv : s.ftValid = true) (hn : 1 ≤ s.nsym) : Building (tbInitState s) := by
  have h0 : freqAt (leavesOf s.ft) 0 = countSum s.ft ∨ s.nsym ≠ 1 := by
    by_cases h1 : s.nsym = 1
    · left
      simp only [State.nsym] at h1
      obtain ⟨e, he⟩ := List.length_eq_one_iff.1 h1
      simp [he, leavesOf, freqAt, countSum, Node.freq]
    · exact .inr h1
  have hlen : (leavesOf s.ft).length = s.nsym := by simp [leavesOf, State.nsym]
  by_cases h1 : s.nsym = 1
  · have ht : tbInitState s = { s with treeValid := true, tbActive := false, ctValid := false, nodes := leavesOf s.ft, inq := List.range s.nsym, root := 0, total := freqAt (leavesOf s.ft) 0 } := by
      simp [tbInitState, h1, State.completeBuild]
    rw [ht]
    constructor
    · exact arenaOk_leaves s.ft
    · exact arenaOf_leaves s.ft
    · exact hv
    · simp [State.nextId, State.pqLen, State.nsym, leavesOf]; omega
    · simp [State.pqLen, h1]
    · exact queueSum_leaves s.ft
    · simp [State.pqLen, h1]
    · simp [State.pqLen, h1]
    · intro _
      refine ⟨by simp [State.nextId, hlen, h1], by simp [h1, List.range_succ], rfl, ?_⟩
      rcases h0 with h0 | h0
      · exact h0
      · exact absurd h1 h0
  · have ht : tbInitState s = { s with treeValid := false, tbActive := true, ctValid := false, nodes := leavesOf s.ft, inq := List.range s.nsym } := by
      simp [tbInitState, h1]
    rw [ht]
    constructor
    · exact arenaOk_leaves s.ft
    · exact arenaOf_leaves s.ft
    · exact hv
    · simp [State.nextId, State.pqLen, State.nsym, leavesOf]; omega
    · simp [State.pqLen]; omega
    · exact queueSum_leaves s.ft
    · simp [State.pqLen]; omega
    · simp [State.pqLen, h1]
    · intro h
      simp [State.pqLen, h1] at h

theorem building_merge {s : State} {a b : Nat} (hb : Building s) (h2 : 2 ≤ s.pqLen) (hm : TwoMinima s a b) :
    Building (mergeState s a b) := by
  have hnew := arenaOk_merge hb.arena hm.first hm.second
  have hsum := queueSum_merge hb.arena hm.first hm.second
  have hlen := mergeState_pqLen hm
  have hleaf := hb.leaves_le
  have hft : (mergeState s a b).ft = s.ft := by rw [mergeState_frame]
  have hftv : (mergeState s a b).ftValid = s.ftValid := by rw [mergeState_frame]
  have hact := hb.active.2 h2
  have hval : s.treeValid = false := by
    cases hv : s.treeValid
    · rfl
    · have := hb.valid.1 hv; omega
  constructor
  · rw [mergeState_nodes, mergeState_inq]; exact hnew
  · rw [mergeState_nodes, hft]; exact arenaOf_merge hb.belongs hleaf _ _ _
  · rw [hftv]; exact hb.table
  · have := hb.size
    simp only [State.nextId, State.nsym, mergeState_nodes, hft, List.length_append, List.length_singleton, hlen] at this ⊢
    omega
  · omega
  · rw [mergeState_nodes, mergeState_inq, hft, ← hb.sum]; exact hsum
  · rw [hlen]
    have hinq : (pqInsert ((s.inq.erase a).erase b) s.nextId).length = s.pqLen - 1 := by
      rw [← hlen, State.pqLen, mergeState_inq]
    simp only [mergeState]
    split
    · rename_i h1
      have h1' : s.pqLen - 1 = 1 := hinq.symm.trans h1
      simp only [State.completeBuild_tbActive, Bool.false_eq_true, false_iff]
      omega
    · rename_i h1
      have h1' : s.pqLen - 1 ≠ 1 := fun hc => h1 (hinq.trans hc)
      simp only [hact, true_iff]
      omega
  · rw [hlen]
    have hinq : (pqInsert ((s.inq.erase a).erase b) s.nextId).length = s.pqLen - 1 := by
      rw [← hlen, State.pqLen, mergeState_inq]
    simp only [mergeState]
    split
    · rename_i h1
      have h1' : s.pqLen - 1 = 1 := hinq.symm.trans h1
      simp only [State.completeBuild_treeValid, true_iff]
      exact h1'
    · rename_i h1
      have h1' : s.pqLen - 1 ≠ 1 := fun hc => h1 (hinq.trans hc)
      simp only [hval, Bool.false_eq_true, false_iff]
      exact h1'
  · intro h1
    have hq2 : (s.inq.erase a).erase b = [] := by
      rw [State.pqLen, mergeState_inq, pqInsert, List.length_append, List.length_singleton] at h1
      exact List.length_eq_zero_iff.1 (by omega)
    have ht : mergeState s a b =
        ({ s with nodes := s.nodes ++ [.internal (freqAt s.nodes a + freqAt s.nodes b) a b], inq := [s.nextId] } : State).completeBuild
          s.nextId (freqAt s.nodes a + freqAt s.nodes b) := by
      simp [mergeState, hq2, pqInsert, State.pqLen]
    have hs := hsum
    rw [hq2, hb.sum] at hs
    simp only [pqInsert, List.nil_append, queueSum, List.map_cons, List.map_nil, List.sum_cons, List.sum_nil,
      freqAt_append_last, Node.freq, Nat.add_zero] at hs
    rw [ht]
    refine ⟨?_, rfl, ?_, ?_⟩
    · simp [State.nextId]
    · simp [State.nextId, freqAt_append_last, Node.freq]
    · simpa using hs

/-- Between `TB_INIT` and the last merge, the loop of `BUILD` completes the build (R166 (a)). -/
theorem buildLoop_completes (n : Nat) (s : State) (hb : Building s) (hn : s.pqLen ≤ n + 1) :
    ∃ t, buildLoop n s = .ok t ∧ Building t ∧ t.pqLen = 1 ∧
      t = { s with nodes := t.nodes, inq := t.inq, root := t.root, total := t.total, treeValid := t.treeValid,
                   tbActive := t.tbActive } := by
  induction n generalizing s with
  | zero => exact ⟨s, rfl, hb, by have := hb.queued; omega, rfl⟩
  | succ n ih =>
    cases hact : s.tbActive
    · refine ⟨s, by simp [buildLoop, hact], hb, ?_, rfl⟩
      have h1 := hb.queued
      by_contra hne
      have := hb.active.2 (by omega)
      rw [hact] at this; cases this
    · have h2 := hb.active.1 hact
      obtain ⟨a, b, hm⟩ := twoMinima_exist hb.arena h2
      have he := doTbStep_eq hact hb.arena.queueBacked hm
      obtain ⟨t, ht, hbt, hlt, hft⟩ := ih (mergeState s a b) (building_merge hb h2 hm) (by rw [mergeState_pqLen hm]; omega)
      refine ⟨t, ?_, hbt, hlt, ?_⟩
      · simp only [buildLoop, hact, if_true, he, bind, Except.bind]; exact ht
      · rw [hft, mergeState_frame]

theorem frame_tree_trans {s u t : State} {n : List Node} {q : List Nat} {r m : Nat} {v a : Bool}
    (hu : u = { s with treeValid := v, tbActive := a, ctValid := false, nodes := n, inq := q, root := r, total := m })
    (ht : t = { u with nodes := t.nodes, inq := t.inq, root := t.root, total := t.total, treeValid := t.treeValid,
                       tbActive := t.tbActive }) :
    t = { s with nodes := t.nodes, inq := t.inq, root := t.root, total := t.total, treeValid := t.treeValid,
                 tbActive := t.tbActive, ctValid := false } := by
  subst hu
  exact ht

/-- `BUILD` on a table with an entry completes and leaves a finished build of that table (R166, R171). -/
theorem doBuild_completes {s : State} (hv : s.ftValid = true) (hn : 1 ≤ s.nsym) :
    ∃ t, doBuild s = .ok t ∧ Building t ∧ t.pqLen = 1 ∧
      t = { s with nodes := t.nodes, inq := t.inq, root := t.root, total := t.total, treeValid := true,
                   tbActive := false, ctValid := false } := by
  have hbi := building_tbInit hv hn
  have hpq : (tbInitState s).pqLen = s.nsym := by
    rw [tbInitState_frame]; simp [State.pqLen]
  have hns : (tbInitState s).nsym = s.nsym := by rw [tbInitState_frame]; rfl
  obtain ⟨t, ht, hbt, hlt, hft⟩ := buildLoop_completes (s.nsym - 1) (tbInitState s) hbi (by omega)
  refine ⟨t, ?_, hbt, hlt, ?_⟩
  · simp only [doBuild, doTbInit_eq hv hn, bind, Except.bind, hns]
    exact ht
  · have h1 : t.treeValid = true := hbt.valid.2 hlt
    have h2 : t.tbActive = false := by
      cases h : t.tbActive
      · rfl
      · have := hbt.active.1 h; omega
    have h3 := frame_tree_trans (tbInitState_frame s) hft
    rwa [h1, h2] at h3

theorem doBuild_noTable {s : State} (hv : s.ftValid = false) : doBuild s = raise .sequenceError := by
  simp only [doBuild, doTbInit_noTable hv]; rfl

theorem doBuild_empty {s : State} (hv : s.ftValid = true) (hn : s.nsym = 0) : doBuild s = raise .invalidInput := by
  simp only [doBuild, doTbInit_empty hv hn]; rfl

end Sys2Proof.Machine
end

