-- ==== Sys2Proof/Laws/Codes.lean ====
section
/-! SUPPORT. The tree that an arena stands for, the paths of its leaves, and what `GENCODE` makes of it
(10_state.md R31, 43_code_table.md R190 to R195). -/

namespace Sys2Proof.Machine

open Sys2Proof

/-! ## Trees -/

/-- A tree with the arena index of every node and the symbol of every leaf. -/
inductive HTree where
  | leaf (i : Nat) (b : Byte)
  | node (i : Nat) (l r : HTree)

/-- The indexes of a tree's nodes. -/
def HTree.ids : HTree → List Nat
  | .leaf i _ => [i]
  | .node i l r => i :: (l.ids ++ r.ids)

/-- The indexes of a tree's leaves, left to right. -/
def HTree.leafIds : HTree → List Nat
  | .leaf i _ => [i]
  | .node _ l r => l.leafIds ++ r.leafIds

/-- The symbols of a tree's leaves, left to right. -/
def HTree.symbols : HTree → List Byte
  | .leaf _ b => [b]
  | .node _ l r => l.symbols ++ r.symbols

/-- Each leaf's symbol with its path from the root, left to right: false descends left, true descends right. -/
def HTree.paths : HTree → List (Byte × List Bool)
  | .leaf _ b => [(b, [])]
  | .node _ l r => l.paths.map (fun e => (e.1, false :: e.2)) ++ r.paths.map (fun e => (e.1, true :: e.2))

theorem HTree.paths_symbols (t : HTree) : t.paths.map (·.1) = t.symbols := by
  induction t with
  | leaf i b => rfl
  | node i l r hl hr => simp [HTree.paths, HTree.symbols, ← hl, ← hr, Function.comp_def]

/-- The tree under node `i`, with the first argument bounding the depth. -/
def treeBelow (nodes : List Node) : Nat → Nat → HTree
  | 0, i => .leaf i 0#8
  | d + 1, i =>
    match nodes[i]? with
    | some (.internal _ l r) => .node i (treeBelow nodes d l) (treeBelow nodes d r)
    | some (.leaf b _) => .leaf i b
    | none => .leaf i 0#8

/-- Children have smaller indexes than their parent (R31). -/
def Descends (nodes : List Node) : Prop :=
  ∀ (k f l r : Nat), nodes[k]? = some (Node.internal f l r) → l < k ∧ r < k

theorem ArenaOk.descending {nodes : List Node} {inq : List Nat} (h : ArenaOk nodes inq) : Descends nodes :=
  fun k f l r hk => ⟨(h.descends k f l r hk).1, (h.descends k f l r hk).2.1⟩

theorem treeBelow_depth {nodes : List Node} (h : Descends nodes) {d e i : Nat} (hd : i < d) (he : i < e) :
    treeBelow nodes d i = treeBelow nodes e i := by
  induction i using Nat.strong_induction_on generalizing d e with
  | _ i ih =>
    cases d with
    | zero => omega
    | succ d =>
      cases e with
      | zero => omega
      | succ e =>
        simp only [treeBelow]
        split
        · rename_i f l r hi
          obtain ⟨hl, hr⟩ := h i f l r hi
          rw [ih l hl (d := d) (e := e) (by omega) (by omega), ih r hr (d := d) (e := e) (by omega) (by omega)]
        · rfl
        · rfl

/-- The tree under node `i`. -/
def treeAt (nodes : List Node) (i : Nat) : HTree := treeBelow nodes (i + 1) i

theorem treeAt_leaf {nodes : List Node} {i f : Nat} {b : Byte} (h : nodes[i]? = some (Node.leaf b f)) :
    treeAt nodes i = .leaf i b := by
  simp [treeAt, treeBelow, h]

theorem treeAt_internal {nodes : List Node} (hd : Descends nodes) {i f l r : Nat}
    (h : nodes[i]? = some (Node.internal f l r)) : treeAt nodes i = .node i (treeAt nodes l) (treeAt nodes r) := by
  obtain ⟨hl, hr⟩ := hd i f l r h
  simp only [treeAt]
  conv_lhs => rw [treeBelow]
  simp only [h]
  rw [treeBelow_depth hd (d := i) (e := l + 1) hl (by omega), treeBelow_depth hd (d := i) (e := r + 1) hr (by omega)]

theorem treeAt_append {nodes : List Node} (more : List Node) (hd : Descends nodes) {i : Nat} (hi : i < nodes.length) :
    treeAt (nodes ++ more) i = treeAt nodes i := by
  have key : ∀ i, i < nodes.length → ∀ d, treeBelow (nodes ++ more) d i = treeBelow nodes d i := by
    intro i
    induction i using Nat.strong_induction_on with
    | _ i ih =>
      intro hi d
      cases d with
      | zero => rfl
      | succ d =>
        simp only [treeBelow, List.getElem?_append_left hi]
        split
        · rename_i f l r hk
          obtain ⟨hl, hr⟩ := hd i f l r hk
          rw [ih l hl (by omega), ih r hr (by omega)]
        · rfl
        · rfl
  exact key i hi _

/-! ## A forest's trees hold every node exactly once (R31) -/

theorem forest_ids (nodes : List Node) : ∀ roots : List Nat, Descends nodes →
    (nodes.flatMap Node.children ++ roots).Perm (List.range nodes.length) →
    (roots.flatMap (fun i => (treeAt nodes i).ids)).Perm (List.range nodes.length) := by
  induction nodes using List.reverseRecOn with
  | nil =>
    intro roots _ h
    have hr : roots = [] := by simpa using h
    subst hr
    simp
  | append_singleton nodes n ih =>
    intro roots hd howned
    have hd' : Descends nodes := by
      intro k f l r hk
      have hlt : k < nodes.length := (List.getElem?_eq_some_iff.1 hk).1
      exact hd k f l r (by rw [List.getElem?_append_left hlt]; exact hk)
    have hself : (nodes ++ [n])[nodes.length]? = some n := by simp
    have hlast : nodes.length ∈ roots := by
      have hmem : nodes.length ∈ (nodes ++ [n]).flatMap Node.children ++ roots :=
        howned.mem_iff.2 (by simp)
      rcases List.mem_append.1 hmem with hc | hr
      · exfalso
        obtain ⟨m, hm, hcm⟩ := List.mem_flatMap.1 hc
        obtain ⟨k, hk⟩ := List.mem_iff_getElem?.1 hm
        have hklt : k < (nodes ++ [n]).length := (List.getElem?_eq_some_iff.1 hk).1
        cases m with
        | leaf b f => simp [Node.children] at hcm
        | internal f l r =>
          obtain ⟨hl, hr⟩ := hd k f l r hk
          simp at hklt
          simp [Node.children] at hcm
          omega
      · exact hr
    have hroots := List.perm_cons_erase hlast
    rw [List.flatMap_append, List.length_append, List.length_singleton, List.range_succ] at howned
    simp only [List.flatMap_cons, List.flatMap_nil, List.append_nil] at howned
    have howned' : (nodes.flatMap Node.children ++ (n.children ++ roots.erase nodes.length)).Perm
        (List.range nodes.length) := by
      have h1 : (nodes.flatMap Node.children ++ n.children ++ roots).Perm
          (nodes.length :: (nodes.flatMap Node.children ++ (n.children ++ roots.erase nodes.length))) := by
        rw [← List.append_assoc]
        exact (List.Perm.append (List.Perm.refl _) hroots).trans List.perm_middle
      have h2 : (List.range nodes.length ++ [nodes.length]).Perm (nodes.length :: List.range nodes.length) :=
        List.perm_append_singleton _ _
      exact List.Perm.cons_inv ((h1.symm.trans howned).trans h2)
    have hih := ih (n.children ++ roots.erase nodes.length) hd' howned'
    have hback : ∀ i ∈ n.children ++ roots.erase nodes.length, i < nodes.length := fun i hi =>
      List.mem_range.1 (howned'.mem_iff.1 (List.mem_append_right _ hi))
    have hsame : ∀ l : List Nat, (∀ i ∈ l, i < nodes.length) →
        l.flatMap (fun i => (treeAt (nodes ++ [n]) i).ids) = l.flatMap (fun i => (treeAt nodes i).ids) := by
      intro l hl
      induction l with
      | nil => rfl
      | cons i l ih =>
        simp only [List.flatMap_cons]
        rw [treeAt_append [n] hd' (hl i List.mem_cons_self), ih (fun j hj => hl j (List.mem_cons_of_mem _ hj))]
    have hlastIds : (treeAt (nodes ++ [n]) nodes.length).ids =
        nodes.length :: n.children.flatMap (fun i => (treeAt (nodes ++ [n]) i).ids) := by
      cases n with
      | leaf b f => rw [treeAt_leaf hself]; rfl
      | internal f l r => rw [treeAt_internal hd hself]; simp [HTree.ids, Node.children]
    have hp : (roots.flatMap (fun i => (treeAt (nodes ++ [n]) i).ids)).Perm
        ((nodes.length :: roots.erase nodes.length).flatMap (fun i => (treeAt (nodes ++ [n]) i).ids)) :=
      hroots.flatMap_right _
    refine hp.trans ?_
    rw [List.flatMap_cons, hlastIds, List.cons_append, ← List.flatMap_append, hsame _ hback,
      List.length_append, List.length_singleton, List.range_succ]
    exact (hih.cons _).trans (List.perm_append_singleton _ _).symm

/-! ## Leaves and symbols -/

/-- Node `i` is a Leaf. -/
def isLeafAt (nodes : List Node) (i : Nat) : Bool :=
  match nodes[i]? with
  | some (.leaf _ _) => true
  | _ => false

/-- The symbol of leaf `i`. -/
def symAt (nodes : List Node) (i : Nat) : Byte :=
  match nodes[i]? with
  | some (.leaf b _) => b
  | _ => 0#8

theorem treeAt_leaves {nodes : List Node} (hd : Descends nodes) : ∀ i, i < nodes.length →
    (treeAt nodes i).leafIds = (treeAt nodes i).ids.filter (isLeafAt nodes) ∧
    (treeAt nodes i).symbols = (treeAt nodes i).leafIds.map (symAt nodes) := by
  intro i
  induction i using Nat.strong_induction_on with
  | _ i ih =>
    intro hi
    obtain ⟨n, -, hn, -⟩ := nodeAt_of_lt hi
    cases n with
    | leaf b f => simp [treeAt_leaf hn, HTree.leafIds, HTree.ids, HTree.symbols, isLeafAt, symAt, hn]
    | internal f l r =>
      obtain ⟨hl, hr⟩ := hd i f l r hn
      obtain ⟨h1, h2⟩ := ih l hl (by omega)
      obtain ⟨h3, h4⟩ := ih r hr (by omega)
      rw [treeAt_internal hd hn]
      constructor
      · simp [HTree.leafIds, HTree.ids, h1, h3, isLeafAt, hn]
      · simp [HTree.symbols, HTree.leafIds, h2, h4]

theorem arenaOf_isLeafAt {t : Table Nat} {nodes : List Node} (h : ArenaOf t nodes) {i : Nat} (hi : i < nodes.length) :
    isLeafAt nodes i = decide (i < t.length) := by
  by_cases hlt : i < t.length
  · have : nodes[i]? = (leavesOf t)[i]? := by
      rw [← h.leaves, List.getElem?_take_of_lt hlt]
    simp [isLeafAt, this, leavesOf, hlt]
  · have hmem : nodes[i] ∈ nodes.drop t.length := by
      rw [List.mem_iff_getElem?]
      exact ⟨i - t.length, by rw [List.getElem?_drop, show t.length + (i - t.length) = i by omega]; simp [hi]⟩
    have := h.internals _ hmem
    simp only [isLeafAt, List.getElem?_eq_getElem hi, hlt, decide_false]
    cases hn : nodes[i] with
    | leaf b f => rw [hn] at this; cases this
    | internal f l r => rfl

theorem arenaOf_symAt {t : Table Nat} {nodes : List Node} (h : ArenaOf t nodes) :
    (List.range t.length).map (symAt nodes) = t.map (·.1) := by
  apply List.ext_getElem
  · simp
  · intro i h1 h2
    simp only [List.length_map, List.length_range] at h1
    have : nodes[i]? = (leavesOf t)[i]? := by
      rw [← h.leaves, List.getElem?_take_of_lt h1]
    simp [symAt, this, leavesOf, h1]

/-- The leaves of a finished tree are the entries of its table, each once. -/
theorem root_symbols {t : Table Nat} {nodes : List Node} {r : Nat} (ha : ArenaOk nodes [r]) (ho : ArenaOf t nodes)
    (hle : t.length ≤ nodes.length) : (treeAt nodes r).symbols.Perm (t.map (·.1)) := by
  have hd := ha.descending
  have hr : r < nodes.length := ha.backed r (by simp)
  have hids := forest_ids nodes [r] hd ha.owned
  simp only [List.flatMap_cons, List.flatMap_nil, List.append_nil] at hids
  obtain ⟨h1, h2⟩ := treeAt_leaves hd r hr
  rw [h2, h1, ← arenaOf_symAt ho]
  refine List.Perm.map _ ?_
  refine (hids.filter _).trans ?_
  have : (List.range nodes.length).filter (isLeafAt nodes) = (List.range nodes.length).filter (fun i => decide (i < t.length)) :=
    List.filter_congr (fun i hi => arenaOf_isLeafAt ho (List.mem_range.1 hi))
  rw [this]
  obtain ⟨d, hd'⟩ := Nat.exists_eq_add_of_le hle
  rw [hd', List.range_add, List.filter_append]
  have e1 : (List.range t.length).filter (fun i => decide (i < t.length)) = List.range t.length := by
    rw [List.filter_eq_self]; intro i hi; simpa using hi
  have e2 : ((List.range d).map (fun x => t.length + x)).filter (fun i => decide (i < t.length)) = [] := by
    rw [List.filter_eq_nil_iff]; intro i hi; simp at hi ⊢; omega
  rw [e1, e2, List.append_nil]

/-! ## Paths -/

/-- A path is no longer than the number of Internals from its root down (R36 (e)). -/
theorem path_length {t : Table Nat} {nodes : List Node} (hd : Descends nodes) (ho : ArenaOf t nodes) :
    ∀ i, i < nodes.length → ∀ e ∈ (treeAt nodes i).paths, e.2.length ≤ i + 1 - t.length := by
  intro i
  induction i using Nat.strong_induction_on with
  | _ i ih =>
    intro hi e he
    obtain ⟨n, -, hn, -⟩ := nodeAt_of_lt hi
    cases n with
    | leaf b f =>
      rw [treeAt_leaf hn] at he
      simp only [HTree.paths, List.mem_singleton] at he
      subst he
      simp
    | internal f l r =>
      obtain ⟨hl, hr⟩ := hd i f l r hn
      have hge : t.length ≤ i := by
        by_contra hc
        have := arenaOf_isLeafAt ho hi
        simp [isLeafAt, hn] at this
        omega
      rw [treeAt_internal hd hn] at he
      simp only [HTree.paths, List.mem_append, List.mem_map] at he
      rcases he with ⟨e', he', rfl⟩ | ⟨e', he', rfl⟩
      · have := ih l hl (by omega) e' he'
        simp only [List.length_cons]; omega
      · have := ih r hr (by omega) e' he'
        simp only [List.length_cons]; omega

/-- Two leaves of a tree: neither path is a prefix of the other (R195 (a)). -/
theorem paths_prefixFree (t : HTree) (hnd : t.symbols.Nodup) :
    ∀ e ∈ t.paths, ∀ e' ∈ t.paths, e.1 ≠ e'.1 → ¬ e.2 <+: e'.2 := by
  induction t with
  | leaf i b =>
    intro e he e' he' hne
    simp only [HTree.paths, List.mem_singleton] at he he'
    subst he he'
    exact absurd rfl hne
  | node i l r hl hr =>
    simp only [HTree.symbols] at hnd
    obtain ⟨h1, h2, -⟩ := List.nodup_append.1 hnd
    intro e he e' he' hne hpre
    simp only [HTree.paths, List.mem_append, List.mem_map] at he he'
    rcases he with ⟨a, ha, rfl⟩ | ⟨a, ha, rfl⟩ <;> rcases he' with ⟨b, hb, rfl⟩ | ⟨b, hb, rfl⟩
    · exact hl h1 a ha b hb hne (by simpa using hpre)
    · simp at hpre
    · simp at hpre
    · exact hr h2 a ha b hb hne (by simpa using hpre)

/-! ## `GENCODE` -/

/-- The codes of a tree: its paths, or the one-bit code for a single Leaf (R191, R192). -/
def HTree.codes (single : Bool) : HTree → List (Byte × List Bool)
  | .leaf _ b => [(b, [single])]
  | .node i l r => (HTree.node i l r).paths

/-- The map that lists the given pairs, a later pair winning. -/
def tableOf (es : List (Byte × List Bool)) : Table (List Bool) :=
  es.foldl (fun ct e => Table.put ct e.1 e.2) []

theorem walk_eq {nodes : List Node} (hd : Descends nodes) : ∀ i, i < nodes.length → ∀ d path ct, i < d →
    walk nodes d i path ct =
      .ok (((treeAt nodes i).paths.map (fun e => (e.1, path ++ e.2))).foldl (fun ct e => Table.put ct e.1 e.2) ct) := by
  intro i
  induction i using Nat.strong_induction_on with
  | _ i ih =>
    intro hi d path ct hid
    obtain ⟨n, hna, hn, -⟩ := nodeAt_of_lt hi
    cases d with
    | zero => omega
    | succ d =>
      simp only [walk, hna, bind, Except.bind]
      cases n with
      | leaf b f => simp [treeAt_leaf hn, HTree.paths]
      | internal f l r =>
        obtain ⟨hl, hr⟩ := hd i f l r hn
        simp only
        rw [ih l hl (by omega) d _ _ (by omega)]
        simp only
        rw [ih r hr (by omega) d _ _ (by omega), treeAt_internal hd hn]
        simp [HTree.paths, List.foldl_append, Function.comp_def]

/-- What `GENCODE` does with a tree in the arena (R191, R192). -/
theorem doGencode_eq {s : State} (hv : s.treeValid = true) (hd : Descends s.nodes) (hr : s.root < s.nextId) :
    doGencode s = .ok { s with ct := tableOf ((treeAt s.nodes s.root).codes s.cfg.singleCodeBit), ctValid := true } := by
  obtain ⟨n, hna, hn, -⟩ := nodeAt_of_lt hr
  simp only [doGencode, requireTree, require, hv, if_true, bind, Except.bind, hna]
  cases n with
  | leaf b f => simp [treeAt_leaf hn, HTree.codes, tableOf]
  | internal f l r =>
    simp only
    rw [walk_eq hd _ hr _ _ _ hr, treeAt_internal hd hn]
    simp [HTree.codes, tableOf]

theorem doGencode_noTree {s : State} (hv : s.treeValid = false) : doGencode s = raise .sequenceError := by
  simp [doGencode, requireTree, require, hv]
  rfl

theorem tableOf_wf (es : List (Byte × List Bool)) : Table.wf (tableOf es) = true := by
  have key : ∀ (es : List (Byte × List Bool)) (ct : Table (List Bool)), Table.wf ct = true →
      Table.wf (es.foldl (fun ct e => Table.put ct e.1 e.2) ct) = true := by
    intro es
    induction es with
    | nil => exact fun ct h => h
    | cons e es ih => exact fun ct h => ih _ (Table.put_wf _ _ h)
  exact key es [] rfl

theorem tableOf_find {es : List (Byte × List Bool)} (hnd : (es.map (·.1)).Nodup) (b : Byte) (q : List Bool) :
    (tableOf es).find b = some q ↔ (b, q) ∈ es := by
  have key : ∀ (es : List (Byte × List Bool)) (ct : Table (List Bool)), (es.map (·.1)).Nodup →
      ((es.foldl (fun ct e => Table.put ct e.1 e.2) ct).find b = some q ↔
        (b, q) ∈ es ∨ (b ∉ es.map (·.1) ∧ ct.find b = some q)) := by
    intro es
    induction es with
    | nil => intro ct _; simp
    | cons e es ih =>
      intro ct h
      obtain ⟨k, v⟩ := e
      rw [List.map_cons, List.nodup_cons] at h
      rw [List.foldl_cons, ih _ h.2, Table.find_put]
      by_cases hb : b = k
      · subst hb
        have hno : ∀ v', (b, v') ∉ es := fun v' hm => h.1 (List.mem_map.2 ⟨_, hm, rfl⟩)
        have h1 := h.1
        simp only [hno q, if_true, List.mem_cons, Prod.mk.injEq, true_and]
        simp only at h1
        simp [h1, eq_comm]
      · simp [hb]
  rw [tableOf, key es [] hnd]
  simp [Table.find]

theorem HTree.codes_symbols (single : Bool) (t : HTree) : (t.codes single).map (·.1) = t.symbols := by
  cases t with
  | leaf i b => rfl
  | node i l r => exact HTree.paths_symbols _

theorem HTree.paths_ne_nil (i : Nat) (l r : HTree) : ∀ e ∈ (HTree.node i l r).paths, e.2 ≠ [] := by
  intro e he
  simp only [HTree.paths, List.mem_append, List.mem_map] at he
  rcases he with ⟨e', -, rfl⟩ | ⟨e', -, rfl⟩ <;> simp

theorem HTree.codes_ne_nil (single : Bool) (t : HTree) : ∀ e ∈ t.codes single, 1 ≤ e.2.length := by
  intro e he
  cases t with
  | leaf i b => simp only [HTree.codes, List.mem_singleton] at he; subst he; simp
  | node i l r => exact List.length_pos_of_ne_nil (HTree.paths_ne_nil i l r e he)

theorem HTree.codes_prefixFree (single : Bool) (t : HTree) (hnd : t.symbols.Nodup) :
    ∀ e ∈ t.codes single, ∀ e' ∈ t.codes single, e.1 ≠ e'.1 → ¬ e.2 <+: e'.2 := by
  cases t with
  | leaf i b =>
    intro e he e' he' hne
    simp only [HTree.codes, List.mem_singleton] at he he'
    subst he he'
    exact absurd rfl hne
  | node i l r => exact paths_prefixFree _ hnd

end Sys2Proof.Machine
end

