-- ==== Sys2Proof/Laws/Encoding.lean ====
section
/-! SUPPORT. The encoder and the decoder of command words, field by field (30_encoding.md R101 to R104): what `decodeC…`
reads from an argument with its operand in the low bits, and that a row's mask and pattern select exactly those words. -/

namespace Sys2Proof

/-! ## Two fields side by side -/

theorem append_low {n k : Nat} (z : BitVec n) (v : BitVec k) : (z ++ v).extractLsb' 0 k = v := by
  apply BitVec.eq_of_getLsbD_eq
  intro i hi
  simp [BitVec.getLsbD_append, hi]

theorem append_high {n k : Nat} (z : BitVec n) (v : BitVec k) : (z ++ v).extractLsb' k n = z := by
  apply BitVec.eq_of_getLsbD_eq
  intro i hi
  simp [BitVec.getLsbD_append, hi]

theorem append_fields {n k : Nat} (w : BitVec (n + k)) : w.extractLsb' k n ++ w.extractLsb' 0 k = w := by
  apply BitVec.eq_of_getLsbD_eq
  intro i hi
  simp only [BitVec.getLsbD_append, BitVec.getLsbD_extractLsb']
  by_cases h : i < k
  · simp [h]
  · simp [h, show i - k < n by omega, show k + (i - k) = i by omega]

@[simp] theorem opcodeOf_assemble (o : BitVec 8) (a : BitVec 24) : opcodeOf (assemble o a) = o := append_high o a

@[simp] theorem argOf_assemble (o : BitVec 8) (a : BitVec 24) : argOf (assemble o a) = a := append_low o a

theorem assemble_fields (w : Word) : assemble (opcodeOf w) (argOf w) = w := append_fields (n := 8) (k := 24) w

/-- A word is its opcode and its argument. -/
theorem eq_assemble_iff (w : Word) (o : BitVec 8) (a : BitVec 24) :
    w = assemble o a ↔ opcodeOf w = o ∧ argOf w = a := by
  constructor
  · rintro rfl
    simp
  · rintro ⟨rfl, rfl⟩
    exact (assemble_fields w).symm

/-! ## The formats read back what the encoder writes -/

@[simp] theorem decodeC0_zero (i : Instr) : decodeC0 0#24 i = .ok i := rfl

@[simp] theorem decodeC1_append (b : BitVec 1) (f : BitVec 1 → Instr) : decodeC1 (0#23 ++ b) f = .ok (f b) := by
  unfold decodeC1
  rw [if_pos (append_high 0#23 b)]
  exact congrArg (fun x => Except.ok (f x)) (append_low 0#23 b)

@[simp] theorem decodeC8_append (b : BitVec 8) (f : BitVec 8 → Instr) : decodeC8 (0#16 ++ b) f = .ok (f b) := by
  unfold decodeC8
  rw [if_pos (append_high 0#16 b)]
  exact congrArg (fun x => Except.ok (f x)) (append_low 0#16 b)

@[simp] theorem decodeC9_append (b : BitVec 9) (f : BitVec 9 → Instr) : decodeC9 (0#15 ++ b) f = .ok (f b) := by
  unfold decodeC9
  rw [if_pos (append_high 0#15 b)]
  exact congrArg (fun x => Except.ok (f x)) (append_low 0#15 b)

theorem c11_fields (s : BitVec 8) (w : BitVec 3) :
    (0#13 ++ w ++ s).extractLsb' 11 13 = 0#13 ∧ (0#13 ++ w ++ s).extractLsb' 0 8 = s ∧
      (0#13 ++ w ++ s).extractLsb' 8 3 = w := by
  refine ⟨?_, append_low _ s, ?_⟩
  · apply BitVec.eq_of_getLsbD_eq
    intro i hi
    rw [BitVec.getLsbD_extractLsb', BitVec.getLsbD_append, BitVec.getLsbD_append]
    simp [show ¬ 11 + i < 8 by omega, show ¬ 11 + i - 8 < 3 by omega]
  · apply BitVec.eq_of_getLsbD_eq
    intro i hi
    rw [BitVec.getLsbD_extractLsb', BitVec.getLsbD_append, BitVec.getLsbD_append]
    simp [hi]

@[simp] theorem decodeC11_append (s : BitVec 8) (w : BitVec 3) (f : BitVec 8 → BitVec 3 → Instr) :
    decodeC11 (0#13 ++ w ++ s) f = .ok (f s w) := by
  obtain ⟨h1, h2, h3⟩ := c11_fields s w
  unfold decodeC11
  rw [if_pos h1, h2, h3]

/-! ## What the formats accept -/

theorem decodeC0_ok {a : BitVec 24} {i j : Instr} (h : decodeC0 a i = .ok j) : a = 0#24 ∧ j = i := by
  unfold decodeC0 at h
  split at h <;> simp_all

theorem decodeC1_ok {a : BitVec 24} {f : BitVec 1 → Instr} {j : Instr} (h : decodeC1 a f = .ok j) :
    ∃ b, a = 0#23 ++ b ∧ j = f b := by
  unfold decodeC1 at h
  split at h <;> simp at h
  rename_i hr
  refine ⟨_, ?_, h.symm⟩
  rw [← hr]
  exact (append_fields (n := 23) (k := 1) a).symm

theorem decodeC8_ok {a : BitVec 24} {f : BitVec 8 → Instr} {j : Instr} (h : decodeC8 a f = .ok j) :
    ∃ b, a = 0#16 ++ b ∧ j = f b := by
  unfold decodeC8 at h
  split at h <;> simp at h
  rename_i hr
  refine ⟨_, ?_, h.symm⟩
  rw [← hr]
  exact (append_fields (n := 16) (k := 8) a).symm

theorem decodeC9_ok {a : BitVec 24} {f : BitVec 9 → Instr} {j : Instr} (h : decodeC9 a f = .ok j) :
    ∃ b, a = 0#15 ++ b ∧ j = f b := by
  unfold decodeC9 at h
  split at h <;> simp at h
  rename_i hr
  refine ⟨_, ?_, h.symm⟩
  rw [← hr]
  exact (append_fields (n := 15) (k := 9) a).symm

theorem decodeC11_ok {a : BitVec 24} {f : BitVec 8 → BitVec 3 → Instr} {j : Instr} (h : decodeC11 a f = .ok j) :
    ∃ s w, a = 0#13 ++ w ++ s ∧ j = f s w := by
  unfold decodeC11 at h
  split at h
  · rename_i hr
    simp only [Except.ok.injEq] at h
    refine ⟨_, _, ?_, h.symm⟩
    rw [← hr]
    apply BitVec.eq_of_getLsbD_eq
    intro i hi
    rw [BitVec.getLsbD_append, BitVec.getLsbD_append]
    simp only [BitVec.getLsbD_extractLsb']
    by_cases h1 : i < 8
    · simp [h1]
    · by_cases h2 : i - 8 < 3
      · simp [h1, h2, show 8 + (i - 8) = i by omega]
      · simp [h1, h2, show i - 8 - 3 < 13 by omega, show 11 + (i - 8 - 3) = i by omega]
  · simp at h

/-! ## Rows: mask and pattern -/

/-- A mask that keeps the bits from `k` on keeps of a command word with its operand in the low `k` bits its pattern. -/
theorem masked {n k : Nat} (h : n + k = 24) (o : BitVec 8) (v : BitVec k) (m : Word)
    (hm : ∀ i < 32, m.getLsbD i = decide (k ≤ i)) :
    assemble o ((0#n ++ v).cast h) &&& m = assemble o 0#24 := by
  apply BitVec.eq_of_getLsbD_eq
  intro i hi
  simp only [assemble, BitVec.getLsbD_and, BitVec.getLsbD_append, BitVec.getLsbD_cast, hm i hi]
  by_cases h1 : i < 24
  · by_cases h2 : k ≤ i
    · simp [h1, h2, show ¬ i < k by omega]
    · simp [h1, h2]
  · simp [h1]
    omega

theorem masked_c0 (o : BitVec 8) : assemble o 0#24 &&& Format.c0.mask = assemble o 0#24 :=
  masked (n := 24) (k := 0) rfl o 0#0 _ (by decide)

theorem masked_c1 (o : BitVec 8) (v : BitVec 1) : assemble o (0#23 ++ v) &&& Format.c1.mask = assemble o 0#24 :=
  masked (n := 23) (k := 1) rfl o v _ (by decide)

theorem masked_c8 (o : BitVec 8) (v : BitVec 8) : assemble o (0#16 ++ v) &&& Format.c8.mask = assemble o 0#24 :=
  masked (n := 16) (k := 8) rfl o v _ (by decide)

theorem masked_c9 (o : BitVec 8) (v : BitVec 9) : assemble o (0#15 ++ v) &&& Format.c9.mask = assemble o 0#24 :=
  masked (n := 15) (k := 9) rfl o v _ (by decide)

theorem masked_c11 (o : BitVec 8) (s : BitVec 8) (w : BitVec 3) :
    assemble o (0#13 ++ w ++ s) &&& Format.c11.mask = assemble o 0#24 := by
  have h : (0#13 ++ w ++ s : BitVec 24) = (0#13 ++ (w ++ s) : BitVec 24) := by
    apply BitVec.eq_of_getLsbD_eq
    intro i hi
    rw [BitVec.getLsbD_append, BitVec.getLsbD_append]
    simp only [BitVec.getLsbD_append]
    by_cases h1 : i < 8
    · simp [h1, show i < 11 by omega]
    · simp [h1, show (i - 8 < 3) = (i < 11) by simp; omega]
  rw [h]
  exact masked (n := 13) (k := 11) rfl o (w ++ s) _ (by decide)

theorem masked_c24 (o : BitVec 8) (v : BitVec 24) : assemble o v &&& Format.c24.mask = assemble o 0#24 := by
  have h := masked (n := 0) (k := 24) rfl o v Format.c24.mask (by decide)
  have hv : (0#0 ++ v : BitVec (0 + 24)) = v := by
    apply BitVec.eq_of_getLsbD_eq
    intro i hi
    rw [BitVec.getLsbD_append]
    simp [show i < 24 by omega]
  rwa [hv] at h

end Sys2Proof
end

