-- ==== Sys2Proof/Laws/Exec.lean ====
section
/-! SUPPORT. The dispatcher by cases: every command is its Operation, gated or not, and ends in its response or in error entry
(60_exceptions.md R270, R271; 30_encoding.md R106). -/

namespace Sys2Proof.Machine

open Sys2Proof

/-! ## Operations in sequence -/

theorem Op.bind_ok {α β : Type} {x : Op α} {f : α → Op β} {r : β} :
    (x >>= f) = .ok r ↔ ∃ a, x = .ok a ∧ f a = .ok r := by
  cases x <;> simp [bind, Except.bind]

theorem Op.bind_error {α β : Type} {x : Op α} {f : α → Op β} {e : Stop} :
    (x >>= f) = .error e ↔ x = .error e ∨ ∃ a, x = .ok a ∧ f a = .error e := by
  cases x <;> simp [bind, Except.bind]

theorem Op.ok_bind {α β : Type} (a : α) (f : α → Op β) : (Except.ok a >>= f : Op β) = f a := rfl

theorem Op.error_bind {α β : Type} (e : Stop) (f : α → Op β) : (Except.error e >>= f : Op β) = .error e := rfl

theorem require_true {c : Bool} {e : ErrCode} (h : c = true) : require c e = .ok () := by simp [require, h]

theorem require_false {c : Bool} {e : ErrCode} (h : c = false) : require c e = raise e := by simp [require, h]

theorem require_ok {c : Bool} {e : ErrCode} {u : Unit} : require c e = .ok u ↔ c = true := by
  cases c <;> simp [require]

theorem require_error {c : Bool} {e : ErrCode} {x : Stop} : require c e = .error x ↔ c = false ∧ x = .raise e := by
  cases c <;> simp [require, eq_comm]

/-! ## The Operation of a command -/

/-- The Operation of each command's rule. -/
def operation : Instr → State → Op (State × Word)
  | .nop => opNop
  | .reset => opReset
  | .rdReg r => opRdReg r
  | .ipush b => opIpush b
  | .iclr => opIclr
  | .ird a => opIrd a
  | .ord a => opOrd a
  | .oclr => opOclr
  | .o2i => opO2i
  | .freq => opFreq
  | .ftRd b => opFtRd b
  | .build => opBuild
  | .tbInit => opTbInit
  | .tbStep => opTbStep
  | .pqRd k => opPqRd k
  | .ndRdLink n => opNdRdLink n
  | .ndRdFlo n => opNdRdFlo n
  | .ndRdFhi n => opNdRdFhi n
  | .gencode => opGencode
  | .ctLen b => opCtLen b
  | .ctBits b w => opCtBits b w
  | .pkBit b => opPkBit b
  | .pkFlush => opPkFlush
  | .upkSet a => opUpkSet a
  | .upkBit => opUpkBit
  | .hdrWr => opHdrWr
  | .hdrRd => opHdrRd
  | .encSym b => opEncSym b
  | .decSym => opDecSym
  | .compress => opCompress
  | .decompress => opDecompress

/-- The commands the error state lets through (R271). -/
def runsInErrorState : Instr → Bool
  | .nop | .reset => true
  | .rdReg r => registerInRange r
  | _ => false

theorem exec_eq (i : Instr) (s : State) : exec i s =
    if runsInErrorState i then runAlways (encode i) (operation i) s else runGated (encode i) (operation i) s := by
  cases i <;> rfl

/-- With no error recorded every command is its Operation and its response or error entry. -/
theorem exec_clean (i : Instr) {s : State} (h : s.err = none) :
    exec i s = conclude (encode i) s (operation i s) := by
  rw [exec_eq]
  split
  · rfl
  · simp [runGated, h]

theorem exec_gated {i : Instr} {s : State} {e : ErrCode} (h : s.err = some e) (hi : runsInErrorState i = false) :
    exec i s = .next (s.respond true (zext32 e.code)) := by
  rw [exec_eq, hi]
  simp [runGated, h, ignored, State.errCode]

theorem conclude_next {cmd : Word} {s t : State} {r : Op (State × Word)} (h : conclude cmd s r = .next t) :
    (∃ u v, r = .ok (u, v) ∧ t = u.respond false v) ∨ (∃ e, r = raise e ∧ t = errorEntry e cmd s) := by
  match r with
  | .ok (u, v) => exact .inl ⟨u, v, rfl, by cases h; rfl⟩
  | .error (.raise e) => exact .inr ⟨e, rfl, by cases h; rfl⟩
  | .error (.fault f) => cases h

/-- How a command that runs outside the error state ends (R106). -/
theorem exec_next {i : Instr} {s t : State} (he : s.err = none) (h : exec i s = .next t) :
    (∃ u v, operation i s = .ok (u, v) ∧ t = u.respond false v) ∨
    (∃ e, operation i s = raise e ∧ t = errorEntry e (encode i) s) := by
  rw [exec_clean i he] at h
  exact conclude_next h

theorem exec_of_ok {i : Instr} {s u : State} {v : Word} (he : s.err = none) (h : operation i s = .ok (u, v)) :
    exec i s = .next (u.respond false v) := by
  rw [exec_clean i he, h]; rfl

theorem exec_of_raise {i : Instr} {s : State} {e : ErrCode} (he : s.err = none) (h : operation i s = raise e) :
    exec i s = .next (errorEntry e (encode i) s) := by
  rw [exec_clean i he, h]; rfl

/-- A completed command has run its Operation (R106). -/
theorem exec_completed {i : Instr} {s t : State} (he : s.err = none) (h : exec i s = .next t) (ht : t.err = none) :
    ∃ u v, operation i s = .ok (u, v) ∧ t = u.respond false v := by
  rcases exec_next he h with hok | ⟨e, -, rfl⟩
  · exact hok
  · cases ht

/-! ## Sequences of commands -/

theorem runCommands_cons {i : Instr} {is : List Instr} {s t : State} (h : exec i s = .next t) :
    runCommands (i :: is) s = runCommands is t := by
  simp [runCommands, h]

theorem runCommands_append (is js : List Instr) (s : State) :
    runCommands (is ++ js) s = (runCommands is s).bind (runCommands js) := by
  induction is generalizing s with
  | nil => rfl
  | cons i is ih =>
    rw [List.cons_append, runCommands, runCommands]
    split
    · exact ih _
    · rfl

end Sys2Proof.Machine
end

