-- ==== Sys2Proof/Laws/Header.lean ====
section
/-! SUPPORT. The Frequency Table of a byte sequence (41_frequency_model.md R151), and the container header: its bytes, its
length, and that parsing what was written gives the table back (45_container.md R220 to R229). -/

namespace Sys2Proof.Machine

open Sys2Proof

/-! ## Counting -/

theorem mem_allSymbols (b : Byte) : b ∈ allSymbols := by
  refine List.mem_map.2 ⟨b.toNat, List.mem_range.2 b.isLt, ?_⟩
  simp

theorem allSymbols_ascending : allSymbols.Pairwise (fun a b => a.toNat < b.toNat) := by
  rw [allSymbols, List.pairwise_map]
  refine List.Pairwise.imp_of_mem ?_ (List.pairwise_lt_range (n := 256))
  intro a b ha hb hab
  rw [List.mem_range] at ha hb
  rw [BitVec.toNat_ofNat, BitVec.toNat_ofNat, Nat.mod_eq_of_lt (by omega), Nat.mod_eq_of_lt (by omega)]
  exact hab

theorem allSymbols_nodup : allSymbols.Nodup :=
  allSymbols_ascending.imp (fun hab h => by subst h; exact lt_irrefl _ hab)

theorem countBytes_wf (bytes : List Byte) : Table.wf (countBytes bytes) = true := by
  rw [Table.wf_iff_pairwise, countBytes, List.pairwise_filterMap]
  refine allSymbols_ascending.imp ?_
  intro a b hab x hx y hy
  split at hx
  · cases hx
  · split at hy
    · cases hy
    · cases hx; cases hy; exact hab

theorem mem_countBytes (bytes : List Byte) (b : Byte) (c : Nat) :
    (b, c) ∈ countBytes bytes ↔ bytes.count b ≠ 0 ∧ c = bytes.count b := by
  rw [countBytes, List.mem_filterMap]
  constructor
  · rintro ⟨s, -, h⟩
    split at h
    · cases h
    · cases h; exact ⟨‹_›, rfl⟩
  · rintro ⟨h, rfl⟩
    exact ⟨b, mem_allSymbols b, by simp [h]⟩

/-- The table lists exactly the symbols that occur, with their exact counts (R150, R151). -/
theorem countBytes_find (bytes : List Byte) (b : Byte) :
    (countBytes bytes).find b = if bytes.count b = 0 then none else some (bytes.count b) := by
  split
  · rename_i h
    cases hf : (countBytes bytes).find b with
    | none => rfl
    | some c => exact absurd h ((mem_countBytes _ _ _).1 (Table.mem_of_find hf)).1
  · rename_i h
    exact Table.find_of_mem (countBytes_wf bytes) ((mem_countBytes _ _ _).2 ⟨h, rfl⟩)

theorem countBytes_le (bytes : List Byte) : ∀ e ∈ countBytes bytes, e.2 ≤ bytes.length := by
  rintro ⟨b, c⟩ he
  obtain ⟨-, rfl⟩ := (mem_countBytes _ _ _).1 he
  exact List.count_le_length

theorem countBytes_ne_nil {bytes : List Byte} (h : bytes ≠ []) : 1 ≤ (countBytes bytes).length := by
  obtain ⟨b, hb⟩ := List.exists_mem_of_ne_nil _ h
  have : (b, bytes.count b) ∈ countBytes bytes :=
    (mem_countBytes _ _ _).2 ⟨by rw [Nat.ne_zero_iff_zero_lt]; exact List.count_pos_iff.2 hb, rfl⟩
  exact List.length_pos_of_mem this

theorem countBytes_nil : countBytes [] = [] := by
  have hz : ∀ l : List Byte, l.filterMap (fun s => if ([] : List Byte).count s = 0 then none
      else some (s, ([] : List Byte).count s)) = ([] : List (Byte × Nat)) := by
    intro l
    induction l with
    | nil => rfl
    | cons s l ih => rw [List.filterMap_cons]; simp
  exact hz allSymbols

/-- The counts add up to the length of the input. -/
theorem countSum_countBytes (bytes : List Byte) : countSum (countBytes bytes) = bytes.length := by
  have h1 : ∀ l : List Byte, ((l.filterMap (fun s => if bytes.count s = 0 then none else some (s, bytes.count s))).map
      (·.2)).sum = (l.map (fun s => bytes.count s)).sum := by
    intro l
    induction l with
    | nil => rfl
    | cons s l ih =>
      by_cases h : bytes.count s = 0
      · simp [h, ih]
      · simp [h, ih]
  have h2 : ∀ bs : List Byte, (allSymbols.map (fun s => bs.count s)).sum = bs.length := by
    intro bs
    induction bs with
    | nil => simp
    | cons b bs ih =>
      have : ∀ l : List Byte, (l.map (fun s => (b :: bs).count s)).sum =
          (l.map (fun s => bs.count s)).sum + l.count b := by
        intro l
        induction l with
        | nil => rfl
        | cons s l ihl =>
          rw [List.map_cons, List.sum_cons, ihl, List.map_cons, List.sum_cons, List.count_cons, List.count_cons]
          by_cases h : b = s
          · subst h; simp only [beq_self_eq_true, if_true]; omega
          · simp only [beq_iff_eq, h, Ne.symm h, if_false]; omega
      rw [this, ih, List.count_eq_one_of_mem allSymbols_nodup (mem_allSymbols b), List.length_cons]
  rw [countSum, countBytes, h1, h2]

/-! ## The header's bytes -/

theorem countBytesOf_length (o : ByteOrder) (c : Nat) : (countBytesOf o c).length = 4 := by
  cases o <;> rfl

theorem pairBytes_length (o : ByteOrder) (t : Table Nat) : (pairBytes o t).length = 5 * t.length := by
  induction t with
  | nil => rfl
  | cons e t ih =>
    simp only [pairBytes, List.flatMap_cons, List.length_append, List.length_cons, countBytesOf_length] at ih ⊢
    omega

theorem headerBytes_length (o : ByteOrder) (t : Table Nat) : (headerBytes o t).length = headerLength t.length := by
  simp [headerBytes, headerLength, pairBytes_length]
  omega

theorem assembled_word (f : Word) :
    f.extractLsb' 24 8 ++ f.extractLsb' 16 8 ++ f.extractLsb' 8 8 ++ f.extractLsb' 0 8 = f := by
  apply BitVec.eq_of_getLsbD_eq
  intro i hi
  simp only [BitVec.getLsbD_append, BitVec.getLsbD_extractLsb']
  by_cases h1 : i < 8
  · simp [h1]
  · by_cases h2 : i - 8 < 8
    · simp [h1, h2, show 8 + (i - 8) = i by omega]
    · by_cases h3 : i - 8 - 8 < 8
      · simp [h1, h2, h3, show 16 + (i - 8 - 8) = i by omega]
      · simp [h1, h2, h3, show 24 + (i - 8 - 8 - 8) = i by omega]
        omega

/-- The four bytes of a count under either byte order read back as the count's word (R223). -/
theorem countBytesOf_eq (o : ByteOrder) (c : Nat) :
    ∃ b0 b1 b2 b3, countBytesOf o c = [b0, b1, b2, b3] ∧ countWord o b0 b1 b2 b3 = word c := by
  cases o with
  | little => exact ⟨_, _, _, _, rfl, assembled_word (word c)⟩
  | big => exact ⟨_, _, _, _, rfl, assembled_word (word c)⟩

theorem word_of_count {c : Nat} (h : c < 2 ^ 31) :
    (word c).getLsbD 31 = false ∧ ((word c).extractLsb' 0 31).toNat = c := by
  constructor
  · rw [BitVec.getLsbD_ofNat]
    simp [Nat.testBit_lt_two_pow h]
  · simp only [BitVec.extractLsb'_toNat, BitVec.toNat_ofNat, Nat.shiftRight_zero]
    omega

/-! ## Parsing -/

/-- The table that lists the given pairs. -/
def tableOfPairs (es : List (Byte × Nat)) (t : Table Nat) : Table Nat := es.foldl (fun t e => Table.put t e.1 e.2) t

/-- Parsing the bytes of some pairs, none of whose symbols is listed twice, lists exactly those pairs (R227). -/
theorem parsePairs_pairBytes (o : ByteOrder) : ∀ (es : List (Byte × Nat)) (t : Table Nat) (rest : List Byte),
    (∀ e ∈ es, e.2 < 2 ^ 31) → (es.map (·.1)).Nodup → (∀ e ∈ es, t.find e.1 = none) →
    parsePairs o es.length (pairBytes o es ++ rest) t = .ok (tableOfPairs es t) := by
  intro es
  induction es with
  | nil => intro t rest _ _ _; rfl
  | cons e es ih =>
    intro t rest hc hnd hnew
    obtain ⟨b, c⟩ := e
    obtain ⟨b0, b1, b2, b3, hbytes, hword⟩ := countBytesOf_eq o c
    have hcb := word_of_count (hc (b, c) List.mem_cons_self)
    rw [List.map_cons, List.nodup_cons] at hnd
    have hfind : t.find b = none := hnew (b, c) List.mem_cons_self
    have hstep := ih (Table.put t b c) rest (fun e he => hc e (List.mem_cons_of_mem _ he)) hnd.2 (by
      intro e he
      have hne : e.1 ≠ b := fun h => hnd.1 (h ▸ List.mem_map.2 ⟨e, he, rfl⟩)
      rw [Table.find_put_other _ _ hne]
      exact hnew e (List.mem_cons_of_mem _ he))
    have hsplit : pairBytes o ((b, c) :: es) ++ rest = b :: b0 :: b1 :: b2 :: b3 :: (pairBytes o es ++ rest) := by
      simp [pairBytes, hbytes]
    rw [hsplit, List.length_cons, parsePairs]
    simp only [hword, hcb.1, hcb.2, hfind, require, Bool.not_false, if_true, Option.isNone_none, bind, Except.bind]
    exact hstep

/-- All that parsing can do: a canonical table of as many entries as pairs, each count in 31 bits, or
`CORRUPT_CONTAINER`. -/
theorem parsePairs_cases (o : ByteOrder) : ∀ (n : Nat) (bytes : List Byte) (t : Table Nat),
    Table.wf t = true → (∀ e ∈ t, e.2 < 2 ^ 31) →
    (∃ u, parsePairs o n bytes t = .ok u ∧ Table.wf u = true ∧ (∀ e ∈ u, e.2 < 2 ^ 31) ∧ u.length = t.length + n) ∨
    parsePairs o n bytes t = raise .corruptContainer := by
  intro n
  induction n with
  | zero => intro bytes t hw hc; exact .inl ⟨t, rfl, hw, hc, rfl⟩
  | succ n ih =>
    intro bytes t hw hc
    match bytes with
    | s :: b0 :: b1 :: b2 :: b3 :: rest =>
      rw [parsePairs]
      by_cases h31 : (countWord o b0 b1 b2 b3).getLsbD 31 = true
      · right
        simp only [h31, require, Bool.not_true, Bool.false_eq_true, if_false, bind, Except.bind]
      · by_cases hf : t.find s = none
        · have hput := ih rest (Table.put t s ((countWord o b0 b1 b2 b3).extractLsb' 0 31).toNat) (Table.put_wf _ _ hw) (by
            intro e he
            rcases Table.mem_put he with rfl | he
            · exact BitVec.isLt _
            · exact hc e he)
          rw [Table.length_put_of_none _ hf] at hput
          simp only [Bool.not_eq_true] at h31
          simp only [h31, hf, require, Bool.not_false, if_true, Option.isNone_none, bind, Except.bind]
          rcases hput with ⟨u, h1, h2, h3, h4⟩ | h1
          · exact .inl ⟨u, h1, h2, h3, by omega⟩
          · exact .inr h1
        · right
          obtain ⟨c, hcs⟩ := Option.ne_none_iff_exists'.1 hf
          simp only [Bool.not_eq_true] at h31
          simp only [h31, hcs, require, Bool.not_false, if_true, Option.isNone_some, Bool.false_eq_true, if_false, bind,
            Except.bind]
    | [] => exact .inr rfl
    | [_] => exact .inr rfl
    | [_, _] => exact .inr rfl
    | [_, _, _] => exact .inr rfl
    | [_, _, _, _] => exact .inr rfl

theorem tableOfPairs_wf (es : List (Byte × Nat)) (t : Table Nat) (h : Table.wf t = true) :
    Table.wf (tableOfPairs es t) = true := by
  induction es generalizing t with
  | nil => exact h
  | cons e es ih => exact ih _ (Table.put_wf _ _ h)

theorem tableOfPairs_find (es : List (Byte × Nat)) (t : Table Nat) (hnd : (es.map (·.1)).Nodup) (b : Byte) :
    (tableOfPairs es t).find b = ((Table.find es b).or (t.find b)) := by
  induction es generalizing t with
  | nil => rfl
  | cons e es ih =>
    obtain ⟨k, c⟩ := e
    rw [List.map_cons, List.nodup_cons] at hnd
    change (tableOfPairs es (Table.put t k c)).find b = _
    rw [ih _ hnd.2, Table.find_put, Table.find_cons]
    by_cases hb : b = k
    · subst hb
      have : Table.find es b = none := Table.find_eq_none_iff.2 hnd.1
      simp [this]
    · simp [hb, Ne.symm hb]

/-- Listing the entries of a canonical table gives that table (R225, R153). -/
theorem tableOfPairs_self {t : Table Nat} (h : Table.wf t = true) : tableOfPairs t [] = t := by
  apply Table.ext_find (tableOfPairs_wf _ _ rfl) h
  intro k
  rw [tableOfPairs_find t [] (Table.keys_nodup h)]
  cases Table.find t k <;> rfl

/-! ## `HDR_RD` and `HDR_WR` -/

theorem pairsAnnounced_sizeByte {n : Nat} (h1 : 1 ≤ n) (h2 : n ≤ 256) : pairsAnnounced (sizeByte n) = n := by
  rcases Nat.lt_or_ge n 256 with h | h
  · have hne : sizeByte n ≠ 0#8 := by
      intro hc
      have := congrArg BitVec.toNat hc
      simp [sizeByte] at this
      omega
    simp only [pairsAnnounced, hne, if_false]
    simp [sizeByte]
    omega
  · have : n = 256 := by omega
    subst this
    decide

theorem pairsAnnounced_range (b : Byte) : 1 ≤ pairsAnnounced b ∧ pairsAnnounced b ≤ 256 := by
  simp only [pairsAnnounced]
  split
  · simp
  · rename_i h
    have h1 := b.isLt
    have h2 : b.toNat ≠ 0 := fun hc => h (BitVec.eq_of_toNat_eq (by simpa using hc))
    omega

/-- All that `HDR_RD` can do: a table of 1 to 256 entries and the cursor behind it with a payload byte left, or
`CORRUPT_CONTAINER` (R227). -/
theorem doHdrRd_cases (s : State) :
    (∃ t, doHdrRd s = .ok ((s.withTable t).setCursor (headerLength t.length)) ∧ Table.wf t = true ∧
      (∀ e ∈ t, e.2 < 2 ^ 31) ∧ 1 ≤ t.length ∧ t.length ≤ 256 ∧ headerLength t.length < s.ilen) ∨
    doHdrRd s = raise .corruptContainer := by
  simp only [doHdrRd]
  cases hb : s.ibuf with
  | nil => exact .inr rfl
  | cons size body =>
    obtain ⟨hn1, hn2⟩ := pairsAnnounced_range size
    simp only
    by_cases h1 : headerLength (pairsAnnounced size) ≤ s.ilen
    · rcases parsePairs_cases s.cfg.byteOrder (pairsAnnounced size) body [] rfl (by simp) with ⟨u, hu, hw, hc, hl⟩ | hu
      · simp only [List.length_nil, Nat.zero_add] at hl
        by_cases h2 : headerLength (pairsAnnounced size) < s.ilen
        · refine .inl ⟨u, ?_, hw, hc, by omega, by omega, by rw [hl]; exact h2⟩
          simp only [require, h1, decide_true, if_true, hu, h2, bind, Except.bind, hl]
        · right
          simp only [require, h1, decide_true, if_true, hu, h2, decide_false, Bool.false_eq_true, if_false, bind, Except.bind]
      · right
        simp only [require, h1, decide_true, if_true, hu, bind, Except.bind]
    · right
      simp only [require, h1, decide_false, Bool.false_eq_true, if_false, bind, Except.bind]

/-- Reading a container that starts with the header of a table gives that table (R220, R225, R227). -/
theorem doHdrRd_header {s : State} {t : Table Nat} {payload : List Byte} (hw : Table.wf t = true)
    (hc : ∀ e ∈ t, e.2 < 2 ^ 31) (hn : 1 ≤ t.length) (hp : payload ≠ [])
    (hb : s.ibuf = headerBytes s.cfg.byteOrder t ++ payload) :
    doHdrRd s = .ok ((s.withTable t).setCursor (headerLength t.length)) := by
  have hle := Table.length_le hw
  have hann := pairsAnnounced_sizeByte hn hle
  have hlen : s.ilen = headerLength t.length + payload.length := by
    rw [State.ilen, hb, List.length_append, headerBytes_length]
  have hpos := List.length_pos_of_ne_nil hp
  have hparse := parsePairs_pairBytes s.cfg.byteOrder t [] payload hc (Table.keys_nodup hw) (fun _ _ => rfl)
  rw [tableOfPairs_self hw] at hparse
  simp only [doHdrRd, hb, headerBytes, List.cons_append, hann]
  simp only [require, show headerLength t.length ≤ s.ilen by omega, show headerLength t.length < s.ilen by omega,
    decide_true, if_true, hparse, bind, Except.bind]

theorem doHdrWr_eq {s : State} (hv : s.ftValid = true) (hn : 1 ≤ s.nsym) :
    doHdrWr s = outBytes (headerBytes s.cfg.byteOrder s.ft) s := by
  simp [doHdrWr, requireTable, require, hv, hn]
  rfl

theorem doHdrWr_of_room {s : State} (hv : s.ftValid = true) (hn : 1 ≤ s.nsym)
    (hroom : s.olen + headerLength s.nsym ≤ s.cfg.obufCap) :
    doHdrWr s = .ok { s with obuf := s.obuf ++ headerBytes s.cfg.byteOrder s.ft } := by
  rw [doHdrWr_eq hv hn, outBytes_of_room]
  rw [headerBytes_length]
  exact hroom

theorem doHdrWr_of_full {s : State} (hv : s.ftValid = true) (hn : 1 ≤ s.nsym) (h0 : s.olen ≤ s.cfg.obufCap)
    (hfull : s.cfg.obufCap < s.olen + headerLength s.nsym) : doHdrWr s = raise .bufferOverflow := by
  rw [doHdrWr_eq hv hn, outBytes_of_full _ _ h0]
  rw [headerBytes_length]
  exact hfull

theorem doHdrWr_noTable {s : State} (hv : s.ftValid = false) : doHdrWr s = raise .sequenceError := by
  simp [doHdrWr, requireTable, require, hv]
  rfl

theorem doHdrWr_empty {s : State} (hv : s.ftValid = true) (hn : s.nsym = 0) : doHdrWr s = raise .invalidInput := by
  simp [doHdrWr, requireTable, require, hv, hn]
  rfl

end Sys2Proof.Machine
end

