-- ==== Sys2Proof/Laws/Frames.lean ====
section
/-! SUPPORT. What each Operation leaves unchanged when it completes, as one equation of states (40_system_buffer.md R130: "A
command changes only the state its Operation names"). -/

namespace Sys2Proof.Machine

open Sys2Proof

/-! ## The output and the packer -/

theorem outByte_ok {b : Byte} {s t : State} (h : outByte b s = .ok t) :
    s.olen < s.cfg.obufCap ∧ t = { s with obuf := s.obuf ++ [b] } := by
  rw [outByte] at h
  split at h
  · cases h; exact ⟨‹_›, rfl⟩
  · cases h

/-- The output has grown and the packer may have changed; nothing else. -/
def Packed (s t : State) : Prop :=
  ∃ more acc nacc, t = { s with obuf := s.obuf ++ more, acc := acc, nacc := nacc }

theorem Packed.refl (s : State) : Packed s s := ⟨[], s.acc, s.nacc, by simp⟩

theorem Packed.trans {s t u : State} (h1 : Packed s t) (h2 : Packed t u) : Packed s u := by
  obtain ⟨m, a, n, rfl⟩ := h1
  obtain ⟨m', a', n', rfl⟩ := h2
  exact ⟨m ++ m', a', n', by simp⟩

theorem packBit_frame {b : Bool} {s t : State} (h : packBit b s = .ok t) : Packed s t := by
  simp only [packBit] at h
  split at h
  · obtain ⟨u, hu, ht⟩ := Op.bind_ok.1 h
    obtain ⟨-, rfl⟩ := outByte_ok hu
    cases ht
    exact ⟨_, _, _, rfl⟩
  · cases h
    exact ⟨[], s.acc ||| (bitByte b <<< (7 - s.nacc)), s.nacc + 1, by simp⟩

theorem packBits_frame {q : List Bool} {s t : State} (h : packBits q s = .ok t) : Packed s t := by
  induction q generalizing s with
  | nil => cases h; exact Packed.refl _
  | cons b q ih =>
    obtain ⟨u, hu, ht⟩ := Op.bind_ok.1 h
    exact (packBit_frame hu).trans (ih ht)

theorem doPkFlush_frame {s t : State} (h : doPkFlush s = .ok t) : Packed s t := by
  rw [doPkFlush] at h
  split at h
  · cases h; exact Packed.refl _
  · obtain ⟨u, hu, ht⟩ := Op.bind_ok.1 h
    obtain ⟨-, rfl⟩ := outByte_ok hu
    cases ht
    exact ⟨_, _, _, rfl⟩

theorem doEncSym_frame {b : Byte} {s t : State} (h : doEncSym b s = .ok t) : Packed s t := by
  obtain ⟨-, -, h⟩ := Op.bind_ok.1 h
  obtain ⟨-, -, h⟩ := Op.bind_ok.1 h
  exact packBits_frame h

theorem encodeAll_frame {bs : List Byte} {s t : State} (h : encodeAll bs s = .ok t) : Packed s t := by
  induction bs generalizing s with
  | nil => cases h; exact Packed.refl _
  | cons b bs ih =>
    obtain ⟨u, hu, ht⟩ := Op.bind_ok.1 h
    exact (doEncSym_frame hu).trans (ih ht)

theorem outBytes_frame {bs : List Byte} {s t : State} (h : outBytes bs s = .ok t) :
    t = { s with obuf := s.obuf ++ bs } := by
  induction bs generalizing s with
  | nil => cases h; simp
  | cons b bs ih =>
    obtain ⟨u, hu, ht⟩ := Op.bind_ok.1 h
    obtain ⟨-, rfl⟩ := outByte_ok hu
    rw [ih ht]
    simp

theorem doHdrWr_frame {s t : State} (h : doHdrWr s = .ok t) :
    t = { s with obuf := s.obuf ++ headerBytes s.cfg.byteOrder s.ft } := by
  obtain ⟨-, -, h⟩ := Op.bind_ok.1 h
  obtain ⟨-, -, h⟩ := Op.bind_ok.1 h
  exact outBytes_frame h

/-! ## The decoder -/

theorem decodeWalk_frame {n l r : Nat} {s t : State} {b : Byte} (h : decodeWalk n l r s = .ok (b, t)) :
    ∃ k, t = { s with bpos := s.bpos + k } := by
  induction n generalizing l r s with
  | zero => cases h
  | succ n ih =>
    simp only [decodeWalk, nextBit] at h
    obtain ⟨x, -, h⟩ := Op.bind_ok.1 h
    cases x with
    | leaf sym f => cases h; exact ⟨1, rfl⟩
    | internal f l' r' =>
      obtain ⟨k, rfl⟩ := ih h
      exact ⟨1 + k, by simp [Nat.add_assoc]⟩

theorem takeSymbol_frame {s t : State} {b : Byte} (h : takeSymbol s = .ok (b, t)) :
    ∃ k, t = { s with bpos := s.bpos + k } := by
  obtain ⟨x, -, h⟩ := Op.bind_ok.1 h
  cases x with
  | leaf sym f =>
    obtain ⟨-, -, h⟩ := Op.bind_ok.1 h
    simp only [nextBit] at h
    obtain ⟨-, -, h⟩ := Op.bind_ok.1 h
    cases h
    exact ⟨1, rfl⟩
  | internal f l r => exact decodeWalk_frame h

/-- The output has grown and the cursor advanced; nothing else. -/
def Decoded (s t : State) : Prop :=
  ∃ more bpos emitted, t = { s with obuf := s.obuf ++ more, bpos := bpos, emitted := emitted }

theorem Decoded.refl (s : State) : Decoded s s := ⟨[], s.bpos, s.emitted, by simp⟩

theorem Decoded.trans {s t u : State} (h1 : Decoded s t) (h2 : Decoded t u) : Decoded s u := by
  obtain ⟨m, a, n, rfl⟩ := h1
  obtain ⟨m', a', n', rfl⟩ := h2
  exact ⟨m ++ m', a', n', by simp⟩

theorem opDecSym_frame {s t : State} {v : Word} (h : opDecSym s = .ok (t, v)) : Decoded s t := by
  obtain ⟨-, -, h⟩ := Op.bind_ok.1 h
  simp only at h
  split at h
  · cases h; exact Decoded.refl _
  · obtain ⟨⟨b, u⟩, hu, h⟩ := Op.bind_ok.1 h
    obtain ⟨k, rfl⟩ := takeSymbol_frame hu
    obtain ⟨w, hw, h⟩ := Op.bind_ok.1 h
    obtain ⟨-, rfl⟩ := outByte_ok hw
    cases h
    exact ⟨_, _, _, rfl⟩

theorem decodeLoop_frame {n : Nat} {s t : State} (h : decodeLoop n s = .ok t) : Decoded s t := by
  induction n generalizing s with
  | zero =>
    rw [decodeLoop] at h
    split at h
    · obtain ⟨⟨u, v⟩, hu, h⟩ := Op.bind_ok.1 h
      cases h
      exact opDecSym_frame hu
    · cases h; exact Decoded.refl _
  | succ n ih =>
    rw [decodeLoop] at h
    split at h
    · obtain ⟨⟨u, v⟩, hu, h⟩ := Op.bind_ok.1 h
      exact (opDecSym_frame hu).trans (ih h)
    · cases h; exact Decoded.refl _

/-! ## The tree -/

theorem doTbInit_ok {s t : State} (h : doTbInit s = .ok t) : s.ftValid = true ∧ 1 ≤ s.nsym ∧ t = tbInitState s := by
  rcases doTbInit_cases s with ⟨h1, h2, h3⟩ | ⟨-, h3⟩ | ⟨-, -, h3⟩ <;> rw [h3] at h <;> cases h
  exact ⟨h1, h2, rfl⟩

theorem doTbStep_frame {s t : State} (h : doTbStep s = .ok t) : s.tbActive = true ∧
    ∃ nodes inq root total v a,
      t = { s with nodes := nodes, inq := inq, root := root, total := total, treeValid := v, tbActive := a } ∧
      ((v = s.treeValid ∧ a = s.tbActive) ∨ (v = true ∧ a = false)) := by
  obtain ⟨u, hu, h⟩ := Op.bind_ok.1 h
  refine ⟨require_ok.1 hu, ?_⟩
  obtain ⟨⟨a, q1⟩, -, h⟩ := Op.bind_ok.1 h
  obtain ⟨⟨b, q2⟩, -, h⟩ := Op.bind_ok.1 h
  obtain ⟨na, -, h⟩ := Op.bind_ok.1 h
  obtain ⟨nb, -, h⟩ := Op.bind_ok.1 h
  simp only at h
  split at h
  · cases h
    exact ⟨_, _, _, _, _, _, rfl, .inr ⟨rfl, rfl⟩⟩
  · cases h
    exact ⟨_, _, _, _, _, _, rfl, .inl ⟨rfl, rfl⟩⟩

theorem doBuild_ok {s t : State} (h : doBuild s = .ok t) : s.ftValid = true ∧ 1 ≤ s.nsym ∧ Building t ∧ t.pqLen = 1 ∧
    t = { s with nodes := t.nodes, inq := t.inq, root := t.root, total := t.total, treeValid := true, tbActive := false,
                 ctValid := false } := by
  by_cases hv : s.ftValid = true
  swap
  · rw [doBuild_noTable (by simpa using hv)] at h; cases h
  · by_cases hn : s.nsym = 0
    · rw [doBuild_empty hv hn] at h; cases h
    · obtain ⟨u, hu, h1, h2, h3⟩ := doBuild_completes hv (Nat.one_le_iff_ne_zero.2 hn)
      rw [hu] at h
      cases h
      exact ⟨hv, Nat.one_le_iff_ne_zero.2 hn, h1, h2, h3⟩

theorem doGencode_frame {s t : State} (h : doGencode s = .ok t) : s.treeValid = true ∧
    ∃ ct, t = { s with ct := ct, ctValid := true } := by
  obtain ⟨u, hu, h⟩ := Op.bind_ok.1 h
  refine ⟨require_ok.1 hu, ?_⟩
  obtain ⟨x, -, h⟩ := Op.bind_ok.1 h
  cases x with
  | leaf sym f => cases h; exact ⟨_, rfl⟩
  | internal f l r =>
    obtain ⟨ct, -, h⟩ := Op.bind_ok.1 h
    cases h
    exact ⟨_, rfl⟩

theorem doHdrRd_ok {s t : State} (h : doHdrRd s = .ok t) : ∃ u : Table Nat,
    t = (s.withTable u).setCursor (headerLength u.length) ∧ Table.wf u = true ∧ (∀ e ∈ u, e.2 < 2 ^ 31) ∧
    1 ≤ u.length ∧ u.length ≤ 256 ∧ headerLength u.length < s.ilen := by
  rcases doHdrRd_cases s with ⟨u, hu, h1⟩ | hu <;> rw [hu] at h <;> cases h
  exact ⟨u, rfl, h1⟩

/-! ## The sequencers -/

/-- What `COMPRESS` may change (R246). -/
theorem doCompress_frame {s t : State} (h : doCompress s = .ok t) :
    t = { s with obuf := t.obuf, ft := t.ft, nodes := t.nodes, inq := t.inq, root := t.root, total := t.total,
                 ct := t.ct, acc := t.acc, nacc := t.nacc, ftValid := true, tbActive := false,
                 treeValid := decide (s.ibuf ≠ []), ctValid := decide (s.ibuf ≠ []),
                 nothing := decide (s.ibuf = []) } := by
  simp only [doCompress] at h
  split at h
  · rename_i h0
    have h0' : s.ibuf = [] := List.length_eq_zero_iff.1 h0
    cases h
    simp [h0', doFreq, State.withTable]
  · rename_i h0
    have h0' : s.ibuf ≠ [] := fun hc => h0 (List.length_eq_zero_iff.2 hc)
    obtain ⟨s3, h3, h⟩ := Op.bind_ok.1 h
    obtain ⟨s4, h4, h⟩ := Op.bind_ok.1 h
    obtain ⟨s5, h5, h⟩ := Op.bind_ok.1 h
    obtain ⟨s6, h6, h⟩ := Op.bind_ok.1 h
    obtain ⟨-, -, -, -, e3⟩ := doBuild_ok h3
    obtain ⟨-, ct, e4⟩ := doGencode_frame h4
    have e5 := doHdrWr_frame h5
    obtain ⟨m6, a6, n6, e6⟩ := encodeAll_frame h6
    obtain ⟨m7, a7, n7, e7⟩ := doPkFlush_frame h
    subst e7 e6 e5 e4
    rw [e3]
    simp [h0', doFreq, State.withTable]

/-- What `DECOMPRESS` may change (R248). -/
theorem doDecompress_frame {s t : State} (h : doDecompress s = .ok t) :
    t = { s with obuf := t.obuf, ft := t.ft, nodes := t.nodes, inq := t.inq, root := t.root, total := t.total,
                 rpos := t.rpos, bpos := t.bpos, emitted := t.emitted, ftValid := true, tbActive := false,
                 treeValid := true, ctValid := false, curValid := true, nothing := false } := by
  obtain ⟨s1, h1, h⟩ := Op.bind_ok.1 h
  obtain ⟨s2, h2, h⟩ := Op.bind_ok.1 h
  obtain ⟨u, e1, -⟩ := doHdrRd_ok h1
  obtain ⟨-, -, -, -, e2⟩ := doBuild_ok h2
  obtain ⟨m, b, n, e3⟩ := decodeLoop_frame h
  subst e3
  rw [e2]
  subst e1
  rfl

/-! ## Every Operation -/

/-- The ports, the parameters and the error registers are the same. -/
structure SameOutside (s t : State) : Prop where
  cfg : t.cfg = s.cfg
  cmds : t.cmds = s.cmds
  resps : t.resps = s.resps
  err : t.err = s.err
  errcmd : t.errcmd = s.errcmd

theorem SameOutside.refl (s : State) : SameOutside s s := ⟨rfl, rfl, rfl, rfl, rfl⟩

/-- A read answers with the state unchanged. -/
theorem opRdReg_frame {r : BitVec 8} {s t : State} {v : Word} (h : opRdReg r s = .ok (t, v)) : t = s := by
  obtain ⟨-, -, h⟩ := Op.bind_ok.1 h
  split at h <;> cases h
  rfl

theorem opIrd_frame {a : BitVec 24} {s t : State} {v : Word} (h : opIrd a s = .ok (t, v)) : t = s := by
  obtain ⟨-, -, h⟩ := Op.bind_ok.1 h
  split at h <;> cases h
  rfl

theorem opOrd_frame {a : BitVec 24} {s t : State} {v : Word} (h : opOrd a s = .ok (t, v)) : t = s := by
  obtain ⟨-, -, h⟩ := Op.bind_ok.1 h
  split at h <;> cases h
  rfl

theorem opFtRd_frame {b : BitVec 8} {s t : State} {v : Word} (h : opFtRd b s = .ok (t, v)) : t = s := by
  obtain ⟨-, -, h⟩ := Op.bind_ok.1 h
  cases h; rfl

theorem opPqRd_frame {k : BitVec 8} {s t : State} {v : Word} (h : opPqRd k s = .ok (t, v)) : t = s := by
  obtain ⟨-, -, h⟩ := Op.bind_ok.1 h
  split at h
  · split at h <;> cases h
    rfl
  · cases h

theorem opNdRdLink_frame {n : BitVec 9} {s t : State} {v : Word} (h : opNdRdLink n s = .ok (t, v)) : t = s := by
  simp only [opNdRdLink, Op.bind_ok] at h
  obtain ⟨_, _, _, _, h⟩ := h
  cases h; rfl

theorem opNdRdFlo_frame {n : BitVec 9} {s t : State} {v : Word} (h : opNdRdFlo n s = .ok (t, v)) : t = s := by
  simp only [opNdRdFlo, Op.bind_ok] at h
  obtain ⟨_, _, _, _, h⟩ := h
  cases h; rfl

theorem opNdRdFhi_frame {n : BitVec 9} {s t : State} {v : Word} (h : opNdRdFhi n s = .ok (t, v)) : t = s := by
  simp only [opNdRdFhi, Op.bind_ok] at h
  obtain ⟨_, _, _, _, h⟩ := h
  cases h; rfl

theorem opCtLen_frame {b : BitVec 8} {s t : State} {v : Word} (h : opCtLen b s = .ok (t, v)) : t = s := by
  obtain ⟨-, -, h⟩ := Op.bind_ok.1 h
  cases h; rfl

theorem opCtBits_frame {b : BitVec 8} {w : BitVec 3} {s t : State} {v : Word} (h : opCtBits b w s = .ok (t, v)) :
    t = s := by
  obtain ⟨-, -, h⟩ := Op.bind_ok.1 h
  cases h; rfl

/-- Every Operation but that of `RESET` leaves the ports, the parameters and the error registers alone (R42, R39). -/
theorem operation_outside {i : Instr} (hi : i ≠ .reset) {s t : State} {v : Word} (h : operation i s = .ok (t, v)) :
    SameOutside s t := by
  cases i with
  | nop => cases h; exact .refl s
  | reset => exact absurd rfl hi
  | rdReg r => rw [opRdReg_frame h]; exact .refl s
  | ipush b => obtain ⟨-, -, h⟩ := Op.bind_ok.1 h; cases h; exact ⟨rfl, rfl, rfl, rfl, rfl⟩
  | iclr => cases h; exact ⟨rfl, rfl, rfl, rfl, rfl⟩
  | ird a => rw [opIrd_frame h]; exact .refl s
  | ord a => rw [opOrd_frame h]; exact .refl s
  | oclr => cases h; exact ⟨rfl, rfl, rfl, rfl, rfl⟩
  | o2i => obtain ⟨-, -, h⟩ := Op.bind_ok.1 h; cases h; exact ⟨rfl, rfl, rfl, rfl, rfl⟩
  | freq => cases h; exact ⟨rfl, rfl, rfl, rfl, rfl⟩
  | ftRd b => rw [opFtRd_frame h]; exact .refl s
  | build =>
    obtain ⟨u, hu, h⟩ := Op.bind_ok.1 h
    cases h
    obtain ⟨-, -, -, -, e⟩ := doBuild_ok hu
    rw [e]; exact ⟨rfl, rfl, rfl, rfl, rfl⟩
  | tbInit =>
    obtain ⟨u, hu, h⟩ := Op.bind_ok.1 h
    cases h
    obtain ⟨-, -, e⟩ := doTbInit_ok hu
    rw [e, tbInitState_frame]; exact ⟨rfl, rfl, rfl, rfl, rfl⟩
  | tbStep =>
    obtain ⟨u, hu, h⟩ := Op.bind_ok.1 h
    cases h
    obtain ⟨-, _, _, _, _, _, _, e, -⟩ := doTbStep_frame hu
    rw [e]; exact ⟨rfl, rfl, rfl, rfl, rfl⟩
  | pqRd k => rw [opPqRd_frame h]; exact .refl s
  | ndRdLink n => rw [opNdRdLink_frame h]; exact .refl s
  | ndRdFlo n => rw [opNdRdFlo_frame h]; exact .refl s
  | ndRdFhi n => rw [opNdRdFhi_frame h]; exact .refl s
  | gencode =>
    obtain ⟨u, hu, h⟩ := Op.bind_ok.1 h
    cases h
    obtain ⟨-, _, e⟩ := doGencode_frame hu
    rw [e]; exact ⟨rfl, rfl, rfl, rfl, rfl⟩
  | ctLen b => rw [opCtLen_frame h]; exact .refl s
  | ctBits b w => rw [opCtBits_frame h]; exact .refl s
  | pkBit b =>
    obtain ⟨u, hu, h⟩ := Op.bind_ok.1 h
    cases h
    obtain ⟨_, _, _, e⟩ := packBit_frame hu
    rw [e]; exact ⟨rfl, rfl, rfl, rfl, rfl⟩
  | pkFlush =>
    obtain ⟨u, hu, h⟩ := Op.bind_ok.1 h
    cases h
    obtain ⟨_, _, _, e⟩ := doPkFlush_frame hu
    rw [e]; exact ⟨rfl, rfl, rfl, rfl, rfl⟩
  | upkSet a => obtain ⟨-, -, h⟩ := Op.bind_ok.1 h; cases h; exact ⟨rfl, rfl, rfl, rfl, rfl⟩
  | upkBit =>
    obtain ⟨-, -, h⟩ := Op.bind_ok.1 h
    split at h <;> cases h <;> exact ⟨rfl, rfl, rfl, rfl, rfl⟩
  | hdrWr =>
    obtain ⟨u, hu, h⟩ := Op.bind_ok.1 h
    cases h
    rw [doHdrWr_frame hu]; exact ⟨rfl, rfl, rfl, rfl, rfl⟩
  | hdrRd =>
    obtain ⟨u, hu, h⟩ := Op.bind_ok.1 h
    cases h
    obtain ⟨_, e, -⟩ := doHdrRd_ok hu
    rw [e]; exact ⟨rfl, rfl, rfl, rfl, rfl⟩
  | encSym b =>
    obtain ⟨u, hu, h⟩ := Op.bind_ok.1 h
    cases h
    obtain ⟨_, _, _, e⟩ := doEncSym_frame hu
    rw [e]; exact ⟨rfl, rfl, rfl, rfl, rfl⟩
  | decSym =>
    obtain ⟨_, _, _, e⟩ := opDecSym_frame h
    rw [e]; exact ⟨rfl, rfl, rfl, rfl, rfl⟩
  | compress =>
    obtain ⟨u, hu, h⟩ := Op.bind_ok.1 h
    cases h
    rw [doCompress_frame hu]; exact ⟨rfl, rfl, rfl, rfl, rfl⟩
  | decompress =>
    obtain ⟨u, hu, h⟩ := Op.bind_ok.1 h
    cases h
    rw [doDecompress_frame hu]; exact ⟨rfl, rfl, rfl, rfl, rfl⟩

end Sys2Proof.Machine
end

