-- ==== Sys2Proof/Laws/Symbols.lean ====
section
/-! SUPPORT. `DEC_SYM` and `ENC_SYM`: which bits a symbol takes from the payload and which symbol they give
(46_orchestration.md R240 to R245). -/

namespace Sys2Proof.Machine

open Sys2Proof

/-! ## The walk below the root -/

/-- The state after `n` more payload bits. -/
def State.advance (s : State) (n : Nat) : State := { s with bpos := s.bpos + n }

theorem State.advance_advance (s : State) (m n : Nat) : (s.advance m).advance n = s.advance (m + n) := by
  simp [State.advance, Nat.add_assoc]

theorem nextBit_snd (s : State) : (nextBit s).2 = s.advance 1 := rfl

theorem advance_bitsLeft (s : State) (n : Nat) : (s.advance n).bitsLeft = s.bitsLeft - n := by
  simp only [State.advance, State.bitsLeft, State.ilen]
  omega

theorem advance_rest (s : State) (n : Nat) :
    (s.advance n).payloadBits.drop (s.advance n).bpos = (s.payloadBits.drop s.bpos).drop n := by
  rw [List.drop_drop]
  rfl

/-- All that the walk can do on a forest: it finds a symbol after at least one bit, or the payload ends (R242, R245). -/
theorem decodeWalk_cases {nodes : List Node} (hd : Descends nodes) : ∀ n l r s, s.nodes = nodes →
    l < nodes.length → r < nodes.length → s.bitsLeft = n →
    (∃ b k, 1 ≤ k ∧ k ≤ n ∧ decodeWalk n l r s = .ok (b, s.advance k)) ∨ decodeWalk n l r s = raise .corruptContainer := by
  intro n
  induction n with
  | zero => intro l r s _ _ _ _; exact .inr rfl
  | succ n ih =>
    intro l r s hs hl hr hbits
    obtain ⟨m, hma, hm, -⟩ := nodeAt_of_lt (show (if (nextBit s).1 then r else l) < nodes.length by split <;> assumption)
    have hma' : nodeAt (nextBit s).2.nodes (if (nextBit s).1 then r else l) = .ok m := by
      rw [show (nextBit s).2.nodes = nodes from hs]; exact hma
    cases m with
    | leaf b f =>
      refine .inl ⟨b, 1, le_refl 1, by omega, ?_⟩
      simp only [decodeWalk, hma', bind, Except.bind]
      rfl
    | internal f l' r' =>
      obtain ⟨hl', hr'⟩ := hd _ f l' r' hm
      have hlt : (if (nextBit s).1 then r else l) < nodes.length := by split <;> assumption
      have hstep := ih l' r' (s.advance 1) hs (by omega) (by omega) (by rw [advance_bitsLeft]; omega)
      have hunf : decodeWalk (n + 1) l r s = decodeWalk n l' r' (s.advance 1) := by
        simp only [decodeWalk, hma', bind, Except.bind]
        rfl
      rcases hstep with ⟨b, k, h1, h2, h3⟩ | h3
      · exact .inl ⟨b, 1 + k, by omega, by omega, by rw [hunf, h3, State.advance_advance]⟩
      · exact .inr (by rw [hunf, h3])

/-- The walk follows the path of a leaf to that leaf's symbol (R242). -/
theorem decodeWalk_path {nodes : List Node} (hd : Descends nodes) : ∀ q n l r s (b : Byte) (rest : List Bool) (i f : Nat),
    s.nodes = nodes → nodes[i]? = some (Node.internal f l r) → (b, q) ∈ (treeAt nodes i).paths →
    s.payloadBits.drop s.bpos = q ++ rest → s.bitsLeft = n → decodeWalk n l r s = .ok (b, s.advance q.length) := by
  intro q
  induction q with
  | nil =>
    intro n l r s b rest i f hs hi hmem
    rw [treeAt_internal hd hi] at hmem
    exact absurd rfl (HTree.paths_ne_nil _ _ _ _ hmem)
  | cons c q ih =>
    intro n l r s b rest i f hs hi hmem hrest hbits
    have hlen : s.bitsLeft = (c :: q ++ rest).length := by rw [bitsLeft_eq, hrest]
    obtain ⟨m, rfl⟩ : ∃ m, n = m + 1 := ⟨n - 1, by rw [hbits] at hlen; simp at hlen; omega⟩
    have hcons := drop_bpos_cons s (by omega)
    rw [hrest, List.cons_append] at hcons
    obtain ⟨hc, htail⟩ := List.cons.inj hcons
    obtain ⟨hl, hr⟩ := hd i f l r hi
    have hilt : i < nodes.length := (List.getElem?_eq_some_iff.1 hi).1
    have hmem' : (b, q) ∈ (treeAt nodes (if c then r else l)).paths := by
      rw [treeAt_internal hd hi] at hmem
      simp only [HTree.paths, List.mem_append, List.mem_map] at hmem
      rcases hmem with ⟨⟨b', q'⟩, he, heq⟩ | ⟨⟨b', q'⟩, he, heq⟩ <;>
        · simp only [Prod.mk.injEq, List.cons.injEq] at heq
          obtain ⟨rfl, rfl, rfl⟩ := heq
          simpa using he
    have hlt : (if c then r else l) < nodes.length := by split <;> omega
    obtain ⟨x, hxa, hx, -⟩ := nodeAt_of_lt hlt
    have hxa' : nodeAt (nextBit s).2.nodes (if (nextBit s).1 then r else l) = .ok x := by
      rw [show (nextBit s).2.nodes = nodes from hs, ← hc]; exact hxa
    cases x with
    | leaf b' f' =>
      rw [treeAt_leaf hx] at hmem'
      simp only [HTree.paths, List.mem_singleton, Prod.mk.injEq] at hmem'
      obtain ⟨rfl, rfl⟩ := hmem'
      simp only [decodeWalk, hxa', bind, Except.bind]
      rfl
    | internal f' l' r' =>
      have hrec := ih m l' r' (s.advance 1) b rest _ f' hs hx hmem' (by rw [advance_rest, hrest]; rfl)
        (by rw [advance_bitsLeft]; omega)
      have hunf : decodeWalk (m + 1) l r s = decodeWalk m l' r' (s.advance 1) := by
        simp only [decodeWalk, hxa', bind, Except.bind]
        rfl
      rw [hunf, hrec, State.advance_advance, List.length_cons, Nat.add_comm 1]

/-! ## One symbol -/

/-- All that taking a symbol can do on a forest with its root (R242, R244, R245). -/
theorem takeSymbol_cases {s : State} (hd : Descends s.nodes) (hr : s.root < s.nextId) :
    (∃ b k, 1 ≤ k ∧ k ≤ s.bitsLeft ∧ takeSymbol s = .ok (b, s.advance k)) ∨ takeSymbol s = raise .corruptContainer := by
  obtain ⟨n, hna, hn, -⟩ := nodeAt_of_lt hr
  simp only [takeSymbol, hna, bind, Except.bind]
  cases n with
  | leaf b f =>
    by_cases h0 : 0 < s.bitsLeft
    · by_cases hb : (nextBit s).1 = s.cfg.singleCodeBit
      · refine .inl ⟨b, 1, le_refl 1, h0, ?_⟩
        simp [require, h0, hb]
        rfl
      · right
        simp [require, h0, hb]
    · right
      simp [require, h0]
  | internal f l r =>
    obtain ⟨hl, hr'⟩ := hd _ f l r hn
    have hr0 : s.root < s.nodes.length := hr
    exact decodeWalk_cases hd s.bitsLeft l r s rfl (by omega) (by omega) rfl

/-- A payload that goes on with a symbol's code gives that symbol and takes exactly the code's bits (R242 (a)). -/
theorem takeSymbol_code {s : State} (hd : Descends s.nodes) (hr : s.root < s.nextId) {b : Byte} {q rest : List Bool}
    (hmem : (b, q) ∈ (treeAt s.nodes s.root).codes s.cfg.singleCodeBit)
    (hrest : s.payloadBits.drop s.bpos = q ++ rest) : takeSymbol s = .ok (b, s.advance q.length) := by
  obtain ⟨n, hna, hn, -⟩ := nodeAt_of_lt hr
  simp only [takeSymbol, hna, bind, Except.bind]
  cases n with
  | leaf b' f =>
    rw [treeAt_leaf hn] at hmem
    simp only [HTree.codes, List.mem_singleton, Prod.mk.injEq] at hmem
    obtain ⟨rfl, rfl⟩ := hmem
    have h0 : 0 < s.bitsLeft := by rw [bitsLeft_eq, hrest]; simp
    have hcons := drop_bpos_cons s h0
    rw [hrest, List.cons_append] at hcons
    have hb := (List.cons.inj hcons).1
    simp [require, h0, ← hb]
    rfl
  | internal f l r =>
    rw [treeAt_internal hd hn] at hmem
    simp only [HTree.codes] at hmem
    rw [← treeAt_internal hd hn] at hmem
    exact decodeWalk_path hd q s.bitsLeft l r s b rest s.root f rfl hn hmem hrest rfl

/-- The state after `DEC_SYM` produced `b` from `k` bits. -/
def decodedState (s : State) (b : Byte) (k : Nat) : State :=
  { s with obuf := s.obuf ++ [b], bpos := s.bpos + k, emitted := s.emitted + 1 }

theorem opDecSym_eos {s : State} (ht : s.treeValid = true) (hc : s.curValid = true) (h : s.total ≤ s.emitted) :
    opDecSym s = .ok (s, eos) := by
  simp [opDecSym, require, ht, hc, h]
  rfl

theorem opDecSym_sequence {s : State} (h : s.treeValid = false ∨ s.curValid = false) :
    opDecSym s = raise .sequenceError := by
  have : (s.treeValid && s.curValid) = false := by rcases h with h | h <;> simp [h]
  simp [opDecSym, require, this]
  rfl

theorem opDecSym_of_take {s : State} (ht : s.treeValid = true) (hc : s.curValid = true) (hlt : s.emitted < s.total)
    {b : Byte} {k : Nat} (hk : takeSymbol s = .ok (b, s.advance k)) (hroom : s.olen < s.cfg.obufCap) :
    opDecSym s = .ok (decodedState s b k, zext32 b) := by
  have hroom' : (s.advance k).olen < (s.advance k).cfg.obufCap := hroom
  simp only [opDecSym, require, ht, hc, Bool.and_self, if_true, Nat.not_le.2 hlt, if_false, hk, bind, Except.bind,
    outByte_of_room b hroom']
  rfl

theorem opDecSym_of_take_full {s : State} (ht : s.treeValid = true) (hc : s.curValid = true)
    (hlt : s.emitted < s.total) {b : Byte} {k : Nat} (hk : takeSymbol s = .ok (b, s.advance k))
    (hfull : s.cfg.obufCap ≤ s.olen) : opDecSym s = raise .bufferOverflow := by
  have hfull' : (s.advance k).cfg.obufCap ≤ (s.advance k).olen := hfull
  simp only [opDecSym, require, ht, hc, Bool.and_self, if_true, Nat.not_le.2 hlt, if_false, hk, bind, Except.bind,
    outByte_of_full b hfull']

theorem opDecSym_of_corrupt {s : State} (ht : s.treeValid = true) (hc : s.curValid = true) (hlt : s.emitted < s.total)
    (hk : takeSymbol s = raise .corruptContainer) : opDecSym s = raise .corruptContainer := by
  simp only [opDecSym, require, ht, hc, Bool.and_self, if_true, Nat.not_le.2 hlt, if_false, hk, bind, Except.bind]

/-- All that `DEC_SYM` can do on a forest with its root (R242). -/
theorem opDecSym_cases {s : State} (hd : Descends s.nodes) (hr : s.treeValid = true → s.root < s.nextId) :
    opDecSym s = .ok (s, eos) ∨
    (s.curValid = true ∧ s.emitted < s.total ∧ s.olen < s.cfg.obufCap ∧
      ∃ b k, 1 ≤ k ∧ k ≤ s.bitsLeft ∧ opDecSym s = .ok (decodedState s b k, zext32 b)) ∨
    (∃ e, e ≠ .ioFailure ∧ opDecSym s = raise e) := by
  by_cases ht : s.treeValid = true
  · by_cases hc : s.curValid = true
    · by_cases hlt : s.emitted < s.total
      · rcases takeSymbol_cases hd (hr ht) with ⟨b, k, h1, h2, h3⟩ | h3
        · by_cases hroom : s.olen < s.cfg.obufCap
          · exact .inr (.inl ⟨hc, hlt, hroom, b, k, h1, h2, opDecSym_of_take ht hc hlt h3 hroom⟩)
          · exact .inr (.inr ⟨_, by simp, opDecSym_of_take_full ht hc hlt h3 (Nat.not_lt.1 hroom)⟩)
        · exact .inr (.inr ⟨_, by simp, opDecSym_of_corrupt ht hc hlt h3⟩)
      · exact .inl (opDecSym_eos ht hc (Nat.not_lt.1 hlt))
    · exact .inr (.inr ⟨_, by simp, opDecSym_sequence (.inr (Bool.eq_false_iff.2 hc))⟩)
  · exact .inr (.inr ⟨_, by simp, opDecSym_sequence (.inl (Bool.eq_false_iff.2 ht))⟩)

/-! ## `ENC_SYM` -/

theorem doEncSym_eq {s : State} {b : Byte} (hc : s.ctValid = true) (hb : 1 ≤ s.ctl b) :
    doEncSym b s = packBits (s.ctb b) s := by
  simp [doEncSym, requireCodes, require, hc, hb]
  rfl

theorem doEncSym_sequence {s : State} {b : Byte} (hc : s.ctValid = false) : doEncSym b s = raise .sequenceError := by
  simp [doEncSym, requireCodes, require, hc]
  rfl

theorem doEncSym_absent {s : State} {b : Byte} (hc : s.ctValid = true) (hb : s.ctl b = 0) :
    doEncSym b s = raise .encodingError := by
  simp [doEncSym, requireCodes, require, hc, hb]
  rfl

end Sys2Proof.Machine
end

