-- ==== Sys2Proof/Laws/Finished.lean ====
section
/-! SUPPORT. A completed build and what `GENCODE` and `DEC_SYM` make of it: codes are paths, each symbol of the table has
exactly one, they are prefix-free and complete (42_tree_builder.md R171; 43_code_table.md R190 to R195). -/

namespace Sys2Proof.Machine

open Sys2Proof

/-- The arena, the queue, `ROOT` and `TOTAL` are those of a completed build of the table (R171). -/
structure Finished (s : State) : Prop where
  arena : ArenaOk s.nodes [s.root]
  belongs : ArenaOf s.ft s.nodes
  someSymbol : 1 ≤ s.nsym
  size : s.nextId = 2 * s.nsym - 1
  root : s.root = s.nextId - 1
  queue : s.inq = [s.root]
  total : s.total = freqAt s.nodes s.root
  sum : s.total = countSum s.ft

theorem Building.finish {s : State} (h : Building s) (h1 : s.pqLen = 1) : Finished s := by
  obtain ⟨hr, hq, ht, hs⟩ := h.finished h1
  have hsize := h.size
  have hle := h.leaves_le
  refine ⟨hq ▸ h.arena, h.belongs, by omega, by omega, hr, hq, ht, hs⟩

theorem Finished.congr {s t : State} (h : Finished s) (hn : t.nodes = s.nodes) (hf : t.ft = s.ft) (hr : t.root = s.root)
    (hq : t.inq = s.inq) (ht : t.total = s.total) : Finished t := by
  refine ⟨?_, ?_, ?_, ?_, ?_, ?_, ?_, ?_⟩
  · rw [hn, hr]; exact h.arena
  · rw [hn, hf]; exact h.belongs
  · rw [State.nsym, hf]; exact h.someSymbol
  · rw [State.nextId, State.nsym, hn, hf]; exact h.size
  · rw [State.nextId, hn, hr]; exact h.root
  · rw [hq, hr]; exact h.queue
  · rw [ht, hn, hr]; exact h.total
  · rw [ht, hf]; exact h.sum

theorem Finished.root_lt {s : State} (h : Finished s) : s.root < s.nextId := by
  have h1 := h.root
  have h2 := h.size
  have h3 := h.someSymbol
  omega

theorem Finished.descends {s : State} (h : Finished s) : Descends s.nodes := h.arena.descending

theorem Finished.symbols {s : State} (h : Finished s) : (treeAt s.nodes s.root).symbols.Perm (s.ft.map (·.1)) :=
  root_symbols h.arena h.belongs (by have h1 := h.size; have h2 := h.someSymbol; simp only [State.nextId, State.nsym] at h1 h2; omega)

/-! ## Codes as paths -/

theorem pathTo_iff {nodes : List Node} (hd : Descends nodes) : ∀ (q : List Bool) (i : Nat) (b : Byte), i < nodes.length →
    (PathTo nodes i q b ↔ (b, q) ∈ (treeAt nodes i).paths) := by
  intro q
  induction q with
  | nil =>
    intro i b hi
    obtain ⟨n, -, hn, -⟩ := nodeAt_of_lt hi
    cases n with
    | leaf c f => simp [PathTo, hn, treeAt_leaf hn, HTree.paths, eq_comm]
    | internal f l r =>
      rw [treeAt_internal hd hn]
      simp [PathTo, hn, HTree.paths]
  | cons x q ih =>
    intro i b hi
    obtain ⟨n, -, hn, -⟩ := nodeAt_of_lt hi
    cases n with
    | leaf c f => simp [PathTo, hn, treeAt_leaf hn, HTree.paths]
    | internal f l r =>
      obtain ⟨hl, hr⟩ := hd i f l r hn
      rw [treeAt_internal hd hn]
      have hpath : PathTo nodes i (x :: q) b ↔ PathTo nodes (if x then r else l) q b := by
        simp only [PathTo, hn, Option.some.injEq, Node.internal.injEq]
        constructor
        · rintro ⟨_, _, _, ⟨rfl, rfl, rfl⟩, h⟩; exact h
        · intro h; exact ⟨f, l, r, ⟨rfl, rfl, rfl⟩, h⟩
      rw [hpath]
      cases x
      · simp [HTree.paths, ih l b (by omega)]
      · simp [HTree.paths, ih r b (by omega)]

theorem treeCode_iff {s : State} (hd : Descends s.nodes) (hr : s.root < s.nextId) (b : Byte) (q : List Bool) :
    s.treeCode b q ↔ (b, q) ∈ (treeAt s.nodes s.root).codes s.cfg.singleCodeBit := by
  obtain ⟨n, -, hn, -⟩ := nodeAt_of_lt hr
  rw [State.treeCode, pathTo_iff hd q s.root b hr]
  cases n with
  | leaf c f =>
    simp only [hn, treeAt_leaf hn, HTree.codes, HTree.paths, Option.some.injEq, Node.leaf.injEq, List.mem_singleton,
      Prod.mk.injEq]
    constructor
    · rintro (⟨⟨_, rfl, -⟩, rfl⟩ | ⟨h1, -, h2⟩)
      · exact ⟨rfl, rfl⟩
      · exact absurd h2 h1
    · rintro ⟨rfl, rfl⟩
      exact .inl ⟨⟨f, rfl, rfl⟩, rfl⟩
  | internal f l r =>
    rw [treeAt_internal hd hn]
    simp only [hn, HTree.codes, Option.some.injEq, reduceCtorEq, exists_false, false_and, false_or, and_iff_right_iff_imp]
    intro h
    exact HTree.paths_ne_nil _ _ _ _ h

/-! ## The Code Table of a completed build -/

/-- The Code Table of the tree in the arena. -/
def codesOf (s : State) : Table (List Bool) := tableOf ((treeAt s.nodes s.root).codes s.cfg.singleCodeBit)

theorem Finished.gencode {s : State} (h : Finished s) (hv : s.treeValid = true) :
    doGencode s = .ok { s with ct := codesOf s, ctValid := true } := doGencode_eq hv h.descends h.root_lt

theorem codesOf_wf (s : State) : Table.wf (codesOf s) = true := tableOf_wf _

theorem Finished.codes_nodup {s : State} (h : Finished s) (hw : Table.wf s.ft = true) :
    (((treeAt s.nodes s.root).codes s.cfg.singleCodeBit).map (·.1)).Nodup := by
  rw [HTree.codes_symbols]
  exact h.symbols.nodup_iff.2 (Table.keys_nodup hw)

theorem Finished.codes_find {s : State} (h : Finished s) (hw : Table.wf s.ft = true) (b : Byte) (q : List Bool) :
    (codesOf s).find b = some q ↔ s.treeCode b q := by
  rw [codesOf, tableOf_find (h.codes_nodup hw), treeCode_iff h.descends h.root_lt]

theorem Finished.codes_mem {s : State} (h : Finished s) (hw : Table.wf s.ft = true) (b : Byte) (q : List Bool) :
    (b, q) ∈ codesOf s ↔ (b, q) ∈ (treeAt s.nodes s.root).codes s.cfg.singleCodeBit := by
  rw [← Table.find_iff_mem (codesOf_wf s), codesOf, tableOf_find (h.codes_nodup hw)]

theorem Finished.codes_present {s : State} (h : Finished s) (hw : Table.wf s.ft = true) (b : Byte) :
    ((codesOf s).find b).isSome = s.ftv b := by
  rw [Bool.eq_iff_iff, State.ftv, Table.isSome_find_iff (t := s.ft), ← h.symbols.mem_iff,
    ← HTree.codes_symbols s.cfg.singleCodeBit, Option.isSome_iff_exists, List.mem_map]
  constructor
  · rintro ⟨q, hq⟩
    exact ⟨(b, q), (tableOf_find (h.codes_nodup hw) b q).1 hq, rfl⟩
  · rintro ⟨⟨c, q⟩, hq, rfl⟩
    exact ⟨q, (tableOf_find (h.codes_nodup hw) c q).2 hq⟩

theorem Finished.code_length {s : State} (h : Finished s) (hw : Table.wf s.ft = true) :
    ∀ e ∈ codesOf s, 1 ≤ e.2.length ∧ e.2.length ≤ 255 := by
  rintro ⟨b, q⟩ he
  rw [h.codes_mem hw] at he
  refine ⟨HTree.codes_ne_nil _ _ _ he, ?_⟩
  have hle := Table.length_le hw
  have hsize := h.size
  have hroot := h.root
  have hsome := h.someSymbol
  obtain ⟨n, -, hn, -⟩ := nodeAt_of_lt h.root_lt
  cases n with
  | leaf c f =>
    rw [treeAt_leaf hn] at he
    simp only [HTree.codes, List.mem_singleton, Prod.mk.injEq] at he
    rw [he.2]; simp
  | internal f l r =>
    rw [treeAt_internal h.descends hn] at he
    simp only [HTree.codes] at he
    rw [← treeAt_internal h.descends hn] at he
    have := path_length h.descends h.belongs _ h.root_lt _ he
    simp only [State.nextId, State.nsym] at hsize hroot hsome
    simp only at this ⊢
    omega

theorem Finished.codes_prefixFree {s : State} (h : Finished s) (hw : Table.wf s.ft = true) : PrefixFree (codesOf s) := by
  intro a b p q ha hb hne
  rw [codesOf, tableOf_find (h.codes_nodup hw)] at ha hb
  exact HTree.codes_prefixFree _ _ (h.symbols.nodup_iff.2 (Table.keys_nodup hw)) _ ha _ hb hne

/-- The paths of a tree fill the space of bit strings of any length that is long enough (R195 (d)). -/
theorem HTree.paths_complete (t : HTree) : ∀ n, (∀ e ∈ t.paths, e.2.length ≤ n) →
    (t.paths.map (fun e => 2 ^ (n - e.2.length))).sum = 2 ^ n := by
  induction t with
  | leaf i b => intro n _; simp [HTree.paths]
  | node i l r hl hr =>
    intro n hn
    have hne : ∀ t : HTree, t.paths ≠ [] := by
      intro t
      induction t with
      | leaf i b => simp [HTree.paths]
      | node i l r hl hr => simp [HTree.paths, hl]
    cases n with
    | zero =>
      obtain ⟨e, he⟩ := List.exists_mem_of_ne_nil _ (hne l)
      have := hn (e.1, false :: e.2) (by simp only [HTree.paths, List.mem_append, List.mem_map]; exact .inl ⟨e, he, rfl⟩)
      simp at this
    | succ n =>
      have e1 := hl n (fun e he => by
        have := hn (e.1, false :: e.2) (by simp only [HTree.paths, List.mem_append, List.mem_map]; exact .inl ⟨e, he, rfl⟩)
        simp only [List.length_cons] at this; omega)
      have e2 := hr n (fun e he => by
        have := hn (e.1, true :: e.2) (by simp only [HTree.paths, List.mem_append, List.mem_map]; exact .inr ⟨e, he, rfl⟩)
        simp only [List.length_cons] at this; omega)
      simp only [HTree.paths, List.map_append, List.map_map, List.sum_append, Function.comp_def, List.length_cons,
        Nat.add_sub_add_right]
      rw [e1, e2, Nat.pow_succ]; omega

/-- With at least two symbols the root is an Internal, so every code is a path (R195 (b)). -/
theorem Finished.root_internal {s : State} (h : Finished s) (h2 : 2 ≤ s.nsym) :
    ∃ f l r, s.nodes[s.root]? = some (Node.internal f l r) := by
  obtain ⟨n, -, hn, -⟩ := nodeAt_of_lt h.root_lt
  cases n with
  | leaf c f =>
    have h1 := arenaOf_isLeafAt h.belongs h.root_lt
    have hsize := h.size
    have hroot := h.root
    simp [isLeafAt, hn] at h1
    simp only [State.nextId, State.nsym] at hsize hroot h2
    omega
  | internal f l r => exact ⟨f, l, r, hn⟩

theorem Finished.root_leaf {s : State} (h : Finished s) (h1 : s.nsym = 1) : ∃ b f, s.nodes[s.root]? = some (Node.leaf b f) := by
  obtain ⟨n, -, hn, -⟩ := nodeAt_of_lt h.root_lt
  cases n with
  | leaf b f => exact ⟨b, f, hn⟩
  | internal f l r =>
    have h2 := arenaOf_isLeafAt h.belongs h.root_lt
    have hsize := h.size
    have hroot := h.root
    simp [isLeafAt, hn] at h2
    simp only [State.nextId, State.nsym] at hsize hroot h1
    omega

/-! ## Decoding -/

/-- A symbol taken from the payload is one whose code comes next (R242). -/
theorem decodeWalk_sound {nodes : List Node} (hd : Descends nodes) : ∀ n l r (s t : State) (b : Byte) (i f : Nat),
    s.nodes = nodes → nodes[i]? = some (Node.internal f l r) → s.bitsLeft = n → decodeWalk n l r s = .ok (b, t) →
    ∃ q, (b, q) ∈ (treeAt nodes i).paths ∧ q <+: s.payloadBits.drop s.bpos ∧ t = s.advance q.length := by
  intro n
  induction n with
  | zero => intro l r s t b i f _ _ _ h; cases h
  | succ n ih =>
    intro l r s t b i f hs hi hn h
    obtain ⟨hl, hr⟩ := hd i f l r hi
    have hilt : i < nodes.length := by
      by_contra hc
      rw [List.getElem?_eq_none (by omega)] at hi
      cases hi
    have hcons := drop_bpos_cons s (by omega)
    have hstep : nextBit s = ((nextBit s).1, s.advance 1) := rfl
    rw [decodeWalk, hstep] at h
    simp only at h
    obtain ⟨x, hx, h⟩ := Op.bind_ok.1 h
    have hx' := nodeAt_ok hx
    have hnodes : (s.advance 1).nodes = nodes := hs
    rw [hnodes] at hx'
    rw [treeAt_internal hd hi, hcons]
    have hmem : ∀ q, (b, q) ∈ (treeAt nodes (if (nextBit s).1 = true then r else l)).paths →
        (b, (nextBit s).1 :: q) ∈ (HTree.node i (treeAt nodes l) (treeAt nodes r)).paths := by
      intro q hq
      cases hb : (nextBit s).1 <;> rw [hb] at hq <;> simp only [Bool.false_eq_true, if_false, if_true] at hq <;>
        simp [HTree.paths, hq]
    cases x with
    | leaf c g =>
      cases h
      refine ⟨[(nextBit s).1], hmem [] ?_, by simp, rfl⟩
      rw [treeAt_leaf hx']
      simp [HTree.paths]
    | internal g l' r' =>
      have hleft : (s.advance 1).bitsLeft = n := by rw [advance_bitsLeft, hn]; rfl
      obtain ⟨q, hq, hpre, ht⟩ := ih l' r' (s.advance 1) t b _ g hnodes hx' hleft h
      refine ⟨(nextBit s).1 :: q, hmem q hq, ?_, ?_⟩
      · rw [advance_rest, hcons] at hpre
        simpa using hpre
      · rw [ht, State.advance_advance, List.length_cons, Nat.add_comm]

theorem takeSymbol_sound {s t : State} (hd : Descends s.nodes) (hr : s.root < s.nextId) {b : Byte}
    (h : takeSymbol s = .ok (b, t)) : ∃ q, (b, q) ∈ (treeAt s.nodes s.root).codes s.cfg.singleCodeBit ∧
      q <+: s.payloadBits.drop s.bpos ∧ t = s.advance q.length := by
  obtain ⟨n, hna, hn, -⟩ := nodeAt_of_lt hr
  rw [takeSymbol, hna, Op.ok_bind] at h
  cases n with
  | leaf c f =>
    obtain ⟨_, hreq, h⟩ := Op.bind_ok.1 h
    have hpos : 0 < s.bitsLeft := by simpa using require_ok.1 hreq
    have hcons := drop_bpos_cons s hpos
    have hstep : nextBit s = ((nextBit s).1, s.advance 1) := rfl
    rw [hstep] at h
    simp only at h
    obtain ⟨_, hbit, h⟩ := Op.bind_ok.1 h
    have hbit' : (nextBit s).1 = s.cfg.singleCodeBit := by simpa using require_ok.1 hbit
    cases h
    refine ⟨[s.cfg.singleCodeBit], ?_, ?_, rfl⟩
    · rw [treeAt_leaf hn]; simp [HTree.codes]
    · rw [hcons, hbit']; simp
  | internal f l r =>
    obtain ⟨q, hq, hpre, ht⟩ := decodeWalk_sound hd _ l r s t b s.root f rfl hn rfl h
    refine ⟨q, ?_, hpre, ht⟩
    rw [treeAt_internal hd hn] at hq ⊢
    exact hq

/-- When no code comes next in the payload, decoding a symbol raises `CORRUPT_CONTAINER` (R244, R245). -/
theorem takeSymbol_corrupt {s : State} (hd : Descends s.nodes) (hr : s.root < s.nextId)
    (h : ∀ b q, s.treeCode b q → ¬ q <+: s.payloadBits.drop s.bpos) : takeSymbol s = raise .corruptContainer := by
  rcases takeSymbol_cases hd hr with ⟨b, k, -, -, hk⟩ | hk
  · obtain ⟨q, hq, hpre, -⟩ := takeSymbol_sound hd hr hk
    exact absurd hpre (h b q ((treeCode_iff hd hr b q).2 hq))
  · exact hk

theorem takeSymbol_of_code {s : State} (hd : Descends s.nodes) (hr : s.root < s.nextId) {b : Byte} {q : List Bool}
    (hc : s.treeCode b q) (hpre : q <+: s.payloadBits.drop s.bpos) : takeSymbol s = .ok (b, s.advance q.length) := by
  obtain ⟨rest, hrest⟩ := hpre
  exact takeSymbol_code hd hr ((treeCode_iff hd hr b q).1 hc) hrest.symm

end Sys2Proof.Machine
end

