-- ==== Sys2Proof/Laws/Invariant.lean ====
section
/-! SUPPORT. The invariant of Safety.lean in two parts, and that each shared operation keeps each part (10_state.md R36,
R44). -/

namespace Sys2Proof.Machine

open Sys2Proof

/-- The part of the invariant about the table, the tree, the queue and the code table. -/
structure Stages (s : State) : Prop where
  table : s.ft.wf = true
  counts : ∀ e ∈ s.ft, e.2 < 2 ^ 31
  codes : s.ct.wf = true
  codeLengths : ∀ e ∈ s.ct, 1 ≤ e.2.length ∧ e.2.length ≤ 255
  arena : ArenaOk s.nodes s.inq
  arenaSize : s.nextId ≤ 511
  freqs : ∀ n ∈ s.nodes, n.freq < 2 ^ 40
  totals : s.total < 2 ^ 40
  roots : s.root < 2 ^ 9
  building : s.tbActive = true → Building s
  built : s.treeValid = true → Finished s ∧ s.ftValid = true ∧ s.tbActive = false
  coded : s.ctValid = true → s.treeValid = true ∧ s.ct = codesOf s

/-- The part of the invariant about the buffers, the packer, the cursor and the error registers. -/
structure Edges (s : State) : Prop where
  bounded : s.cfg.Bounded
  input : s.ilen ≤ s.cfg.ibufCap
  output : s.olen ≤ s.cfg.obufCap
  cursor : s.curValid = true → s.rpos ≤ s.ilen ∧ s.bpos ≤ 8 * (s.ilen - s.rpos)
  noCursor : s.curValid = false → s.rpos = 0 ∧ s.bpos = 0 ∧ s.emitted = 0
  emittedBits : s.emitted ≤ s.bpos
  packer : PackerOk s
  wiped : s.err ≠ none → s = { s.resetBlock with err := s.err, errcmd := s.errcmd }
  noError : s.err = none → s.errcmd = 0#32
  noIoFailure : s.err ≠ some .ioFailure

theorem State.Inv.finished {s : State} (h : s.Inv) (hv : s.treeValid = true) : Finished s := by
  obtain ⟨-, -, h1, h2, h3, h4, h5, h6, h7⟩ := h.built hv
  exact ⟨h4 ▸ h.arena, h5, h1, h2, h3, h4, h6, h7⟩

theorem State.Inv.inProgress {s : State} (h : s.Inv) (hv : s.tbActive = true) : Building s := by
  obtain ⟨h1, h2, h3, h4, h5, h6⟩ := h.building hv
  exact ⟨h.arena, h5, h1, h4, by omega, h6, by simp [hv, h3], by simp [h2]; omega, fun hc => by omega⟩

theorem gencode_fixed {s : State} (hf : Finished s) (hv : s.treeValid = true) (hc : s.ctValid = true) :
    doGencode s = .ok s ↔ s.ct = codesOf s := by
  rw [hf.gencode hv]
  constructor
  · intro h
    have := congrArg State.ct (Except.ok.inj h)
    exact this.symm
  · intro h
    rw [← h, ← hc]

theorem Stages.present {s : State} (h : Stages s) (hc : s.ctValid = true) (b : Byte) : 1 ≤ s.ctl b ↔ s.ftv b = true := by
  obtain ⟨hv, hct⟩ := h.coded hc
  have hf := (h.built hv).1
  rw [← hf.codes_present h.table, ← hct, State.ctl, State.ctb]
  cases hfind : s.ct.find b with
  | none => simp
  | some q =>
    have := (h.codeLengths _ (Table.mem_of_find hfind)).1
    simpa using this

theorem inv_iff (s : State) : s.Inv ↔ Stages s ∧ Edges s := by
  constructor
  · intro h
    refine ⟨⟨h.table, h.counts, h.codes, h.codeLengths, h.arena, h.arenaSize, h.freqs, h.totals, h.roots, h.inProgress,
      fun hv => ⟨h.finished hv, (h.built hv).1, (h.built hv).2.1⟩, fun hc => ?_⟩,
      ⟨h.bounded, h.input, h.output, h.cursor, h.noCursor, h.emittedBits, h.packer, h.wiped, h.noError, h.noIoFailure⟩⟩
    have hv := (h.coded hc).1
    exact ⟨hv, (gencode_fixed (h.finished hv) hv hc).1 (h.current hc)⟩
  · rintro ⟨h, g⟩
    refine ⟨g.bounded, g.input, g.output, h.table, h.counts, h.codes, h.codeLengths, h.arena, h.arenaSize, h.freqs,
      h.totals, h.roots, fun hv => ?_, fun hv => ?_, fun hc => ⟨(h.coded hc).1, h.present hc⟩, fun hc => ?_,
      g.cursor, g.noCursor, g.emittedBits, g.packer, g.wiped, g.noError, g.noIoFailure⟩
    · have hb := h.building hv
      have h2 := hb.active.1 hv
      refine ⟨hb.table, ?_, h2, hb.size, hb.belongs, hb.sum⟩
      cases ht : s.treeValid
      · rfl
      · have := hb.valid.1 ht; omega
    · obtain ⟨hf, h1, h2⟩ := h.built hv
      exact ⟨h1, h2, hf.someSymbol, hf.size, hf.root, hf.queue, hf.belongs, hf.total, hf.sum⟩
    · obtain ⟨hv, hct⟩ := h.coded hc
      exact (gencode_fixed (h.built hv).1 hv hc).2 hct

/-! ## What the two parts depend on -/

/-- A state with the same table, tree, queue, code table and stage flags has the same first part. -/
theorem Stages.congr {s t : State} (h : Stages s) (hft : t.ft = s.ft) (hn : t.nodes = s.nodes) (hq : t.inq = s.inq)
    (hr : t.root = s.root) (ht : t.total = s.total) (hct : t.ct = s.ct)
    (hcfg : t.cfg.singleCodeBit = s.cfg.singleCodeBit) (h1 : t.ftValid = s.ftValid) (h2 : t.tbActive = s.tbActive)
    (h3 : t.treeValid = s.treeValid) (h4 : t.ctValid = s.ctValid) : Stages t := by
  refine ⟨hft ▸ h.table, hft ▸ h.counts, hct ▸ h.codes, hct ▸ h.codeLengths, ?_, ?_, hn ▸ h.freqs, ht ▸ h.totals,
    hr ▸ h.roots, ?_, ?_, ?_⟩
  · rw [hn, hq]; exact h.arena
  · rw [State.nextId, hn]; exact h.arenaSize
  · intro ha
    have hb := h.building (h2 ▸ ha)
    refine ⟨?_, ?_, ?_, ?_, ?_, ?_, ?_, ?_, ?_⟩
    · rw [hn, hq]; exact hb.arena
    · rw [hft, hn]; exact hb.belongs
    · rw [h1]; exact hb.table
    · simp only [State.nextId, State.pqLen, State.nsym, hn, hq, hft]; exact hb.size
    · simp only [State.pqLen, hq]; exact hb.queued
    · rw [hn, hq, hft]; exact hb.sum
    · simp only [h2, State.pqLen, hq]; exact hb.active
    · simp only [h3, State.pqLen, hq]; exact hb.valid
    · simp only [State.pqLen, State.nextId, hq, hr, hn, ht, hft]; exact hb.finished
  · intro hv
    obtain ⟨hf, e1, e2⟩ := h.built (h3 ▸ hv)
    exact ⟨hf.congr hn hft hr hq ht, h1 ▸ e1, h2 ▸ e2⟩
  · intro hc
    obtain ⟨e1, e2⟩ := h.coded (h4 ▸ hc)
    refine ⟨h3 ▸ e1, ?_⟩
    rw [hct, e2, codesOf, codesOf, hn, hr, hcfg]

/-- A state with the same parameters, buffers, packer, cursor and error registers and no error has the same second part. -/
theorem Edges.congr {s t : State} (h : Edges s) (he : s.err = none) (h1 : t.cfg = s.cfg) (h2 : t.ibuf = s.ibuf)
    (h3 : t.obuf = s.obuf) (h4 : t.curValid = s.curValid) (h5 : t.rpos = s.rpos) (h6 : t.bpos = s.bpos)
    (h7 : t.emitted = s.emitted) (h8 : t.acc = s.acc) (h9 : t.nacc = s.nacc) (h10 : t.err = s.err)
    (h11 : t.errcmd = s.errcmd) : Edges t := by
  refine ⟨?_, ?_, ?_, ?_, ?_, ?_, ?_, ?_, ?_, ?_⟩
  · rw [h1]; exact h.bounded
  · rw [State.ilen, h1, h2]; exact h.input
  · rw [State.olen, h1, h3]; exact h.output
  · rw [State.ilen, h2, h4, h5, h6]; exact h.cursor
  · rw [h4, h5, h6, h7]; exact h.noCursor
  · rw [h6, h7]; exact h.emittedBits
  · rw [PackerOk, h8, h9]; exact h.packer
  · intro hc; rw [h10, he] at hc; exact absurd rfl hc
  · rw [h10, h11]; exact h.noError
  · rw [h10]; exact h.noIoFailure

/-! ## Reset, error entry, responses -/

theorem stages_resetBlock (s : State) : Stages s.resetBlock := by
  refine ⟨rfl, by simp, rfl, by simp, arenaOk_empty, by simp [State.nextId], by simp, by simp, by simp, ?_, ?_, ?_⟩ <;>
    simp

theorem edges_resetBlock {s : State} (hb : s.cfg.Bounded) : Edges s.resetBlock := by
  refine ⟨hb, by simp [State.ilen], by simp [State.olen], by simp, by simp, by simp, by simp [PackerOk], by simp, by simp,
    by simp⟩

theorem inv_resetBlock {s : State} (hb : s.cfg.Bounded) : s.resetBlock.Inv :=
  (inv_iff _).2 ⟨stages_resetBlock s, edges_resetBlock hb⟩

theorem inv_errorEntry {s : State} (hb : s.cfg.Bounded) (e : ErrCode) (cmd : Word) (h4 : e ≠ .ioFailure) :
    (errorEntry e cmd s).Inv := by
  refine (inv_iff _).2 ⟨(stages_resetBlock s).congr rfl rfl rfl rfl rfl rfl rfl rfl rfl rfl rfl, ?_⟩
  have h := edges_resetBlock hb
  exact ⟨h.bounded, h.input, h.output, h.cursor, h.noCursor, h.emittedBits, h.packer, fun _ => rfl,
    fun hc => (Option.some_ne_none e hc).elim, fun hc => h4 (Option.some.inj hc)⟩

/-- The ports do not matter for the invariant. -/
theorem inv_ports {s : State} (h : s.Inv) (cmds : List Word) (resps : List Response) :
    State.Inv { s with cmds := cmds, resps := resps } := by
  obtain ⟨h1, h2⟩ := (inv_iff s).1 h
  refine (inv_iff _).2 ⟨h1.congr rfl rfl rfl rfl rfl rfl rfl rfl rfl rfl rfl, ?_⟩
  refine ⟨h2.bounded, h2.input, h2.output, h2.cursor, h2.noCursor, h2.emittedBits, h2.packer, fun hc => ?_, h2.noError,
    h2.noIoFailure⟩
  have := congrArg (fun u : State => { u with cmds := cmds, resps := resps }) (h2.wiped hc)
  exact this

theorem inv_respond {s : State} (h : s.Inv) (e : Bool) (d : Word) : (s.respond e d).Inv := inv_ports h s.cmds _

/-! ## The stages -/

theorem stages_withTable {s : State} (h : Stages s) {t : Table Nat} (hw : t.wf = true) (hc : ∀ e ∈ t, e.2 < 2 ^ 31) :
    Stages (s.withTable t) := by
  refine ⟨hw, hc, h.codes, h.codeLengths, h.arena, h.arenaSize, h.freqs, h.totals, h.roots, ?_, ?_, ?_⟩ <;>
    simp [State.withTable]

theorem countSum_le {t : Table Nat} (hw : t.wf = true) (hc : ∀ e ∈ t, e.2 < 2 ^ 31) : countSum t ≤ 2 ^ 39 := by
  have hle := Table.length_le hw
  have key : ∀ l : List (Byte × Nat), (∀ e ∈ l, e.2 < 2 ^ 31) → (l.map (·.2)).sum ≤ l.length * 2 ^ 31 := by
    intro l
    induction l with
    | nil => simp
    | cons e l ih =>
      intro h
      have h1 := h e List.mem_cons_self
      have h2 := ih (fun e he => h e (List.mem_cons_of_mem _ he))
      rw [List.map_cons, List.sum_cons, List.length_cons]
      omega
  have := key t hc
  simp only [countSum]
  omega

theorem Building.stages {s : State} (h : Building s) (hw : s.ft.wf = true) (hc : ∀ e ∈ s.ft, e.2 < 2 ^ 31)
    (hct : s.ct.wf = true) (hcl : ∀ e ∈ s.ct, 1 ≤ e.2.length ∧ e.2.length ≤ 255) (hfreq : ∀ n ∈ s.nodes, n.freq < 2 ^ 40)
    (htot : s.total < 2 ^ 40) (hroot : s.root < 2 ^ 9) (hcv : s.ctValid = false) : Stages s := by
  have hle := Table.length_le hw
  have hsize := h.size
  have hq := h.queued
  refine ⟨hw, hc, hct, hcl, h.arena, ?_, hfreq, htot, hroot, fun _ => h, fun hv => ?_, fun hc' => ?_⟩
  · simp only [State.nsym] at hsize; omega
  · refine ⟨h.finish (h.valid.1 hv), h.table, ?_⟩
    have h1 := h.valid.1 hv
    cases ha : s.tbActive
    · rfl
    · have := h.active.1 ha; omega
  · rw [hcv] at hc'; cases hc'

theorem stages_tbInit {s : State} (h : Stages s) (hv : s.ftValid = true) (hn : 1 ≤ s.nsym) : Stages (tbInitState s) := by
  have hb := building_tbInit hv hn
  have hfr := tbInitState_frame s
  have hft : (tbInitState s).ft = s.ft := by rw [hfr]
  have hct : (tbInitState s).ct = s.ct := by rw [hfr]
  have hnodes : (tbInitState s).nodes = leavesOf s.ft := by rw [hfr]
  have hfreqs : ∀ n ∈ leavesOf s.ft, n.freq < 2 ^ 31 := by
    intro n hn
    obtain ⟨e, he, rfl⟩ := List.mem_map.1 hn
    exact h.counts e he
  refine hb.stages (hft ▸ h.table) (hft ▸ h.counts) (hct ▸ h.codes) (hct ▸ h.codeLengths) ?_ ?_ ?_ (by rw [hfr])
  · rw [hnodes]; intro n hn; have := hfreqs n hn; omega
  · simp only [tbInitState]
    split
    · rename_i h1
      have h0 : 0 < (leavesOf s.ft).length := by simp only [leavesOf, List.length_map]; exact hn
      obtain ⟨x, -, hx, hxf⟩ := nodeAt_of_lt h0
      have := hfreqs x (List.mem_of_getElem? hx)
      simp only [State.completeBuild_total]
      omega
    · exact h.totals
  · simp only [tbInitState]
    split
    · simp
    · exact h.roots

theorem queueSum_pair {nodes : List Node} {inq : List Nat} {a b : Nat} (ha : a ∈ inq) (hb : b ∈ inq.erase a) :
    freqAt nodes a + freqAt nodes b ≤ queueSum nodes inq := by
  have hq : inq.Perm (a :: b :: (inq.erase a).erase b) :=
    (List.perm_cons_erase ha).trans ((List.perm_cons_erase hb).cons a)
  rw [queueSum_perm hq]
  simp only [queueSum, List.map_cons, List.sum_cons]
  omega

theorem stages_merge {s : State} (h : Stages s) (hb : Building s) (h2 : 2 ≤ s.pqLen) {a b : Nat} (hm : TwoMinima s a b)
    (hcv : s.ctValid = false) : Stages (mergeState s a b) := by
  have hb' := building_merge hb h2 hm
  have hfr := mergeState_frame s a b
  have hft : (mergeState s a b).ft = s.ft := by rw [hfr]
  have hct : (mergeState s a b).ct = s.ct := by rw [hfr]
  have hsum := countSum_le h.table h.counts
  have hpair := queueSum_pair (nodes := s.nodes) hm.first hm.second
  rw [hb.sum] at hpair
  refine hb'.stages (hft ▸ h.table) (hft ▸ h.counts) (hct ▸ h.codes) (hct ▸ h.codeLengths) ?_ ?_ ?_ (by rw [hfr]; exact hcv)
  · rw [mergeState_nodes]
    intro n hn
    rcases List.mem_append.1 hn with hn | hn
    · exact h.freqs n hn
    · simp only [List.mem_singleton] at hn
      subst hn
      simp only [Node.freq]
      omega
  · simp only [mergeState]
    split
    · simp only [State.completeBuild_total]; omega
    · exact h.totals
  · simp only [mergeState]
    split
    · have := h.arenaSize
      simp only [State.completeBuild_root]; omega
    · exact h.roots

theorem stages_buildLoop : ∀ (n : Nat) (s t : State), Stages s → Building s → s.ctValid = false →
    buildLoop n s = .ok t → Stages t := by
  intro n
  induction n with
  | zero => intro s t h _ _ ht; cases ht; exact h
  | succ n ih =>
    intro s t h hb hcv ht
    rw [buildLoop] at ht
    split at ht
    · rename_i hact
      have h2 := hb.active.1 hact
      obtain ⟨a, b, hm⟩ := twoMinima_exist hb.arena h2
      rw [doTbStep_eq hact hb.arena.queueBacked hm, Op.ok_bind] at ht
      exact ih _ _ (stages_merge h hb h2 hm hcv) (building_merge hb h2 hm) (by rw [mergeState_frame]; exact hcv) ht
    · cases ht; exact h

theorem stages_build {s t : State} (h : Stages s) (ht : doBuild s = .ok t) : Stages t := by
  obtain ⟨u, hu, ht⟩ := Op.bind_ok.1 ht
  obtain ⟨hv, hn, rfl⟩ := doTbInit_ok hu
  exact stages_buildLoop _ _ _ (stages_tbInit h hv hn) (building_tbInit hv hn) (by rw [tbInitState_frame]) ht

theorem stages_gencode {s t : State} (h : Stages s) (ht : doGencode s = .ok t) : Stages t := by
  obtain ⟨hv, -⟩ := doGencode_frame ht
  obtain ⟨hf, h1, h2⟩ := h.built hv
  rw [hf.gencode hv] at ht
  cases ht
  refine ⟨h.table, h.counts, codesOf_wf s, hf.code_length h.table, h.arena, h.arenaSize, h.freqs, h.totals, h.roots,
    fun hc => ?_, fun _ => ⟨hf.congr rfl rfl rfl rfl rfl, h1, h2⟩, fun _ => ⟨hv, rfl⟩⟩
  rw [h2] at hc; cases hc

/-! ## The buffers, the packer and the cursor -/

theorem packerOk_empty {s : State} (ha : s.acc = 0#8) (hn : s.nacc = 0) : PackerOk s := by simp [PackerOk, ha, hn]

/-- How many bytes and waiting bits a packed sequence leaves. -/
theorem packed_length {s t : State} {q : List Bool} (ht : t.nacc < 8) (h : t.outputBits = s.outputBits ++ q) :
    t.olen = s.olen + (s.nacc + q.length) / 8 ∧ t.nacc = (s.nacc + q.length) % 8 := by
  have := congrArg List.length h
  rw [List.length_append, outputBits_length, outputBits_length] at this
  omega

theorem packBits_ok {q : List Bool} {s t : State} (hp : PackerOk s) (h0 : s.olen ≤ s.cfg.obufCap)
    (h : packBits q s = .ok t) :
    t = { s with obuf := t.obuf, acc := t.acc, nacc := t.nacc } ∧ PackerOk t ∧ t.outputBits = s.outputBits ++ q ∧
      s.obuf <+: t.obuf ∧ t.olen ≤ s.cfg.obufCap := by
  by_cases hroom : s.olen + (s.nacc + q.length) / 8 ≤ s.cfg.obufCap
  · obtain ⟨u, hu, hfr, hok, hbits, hpre⟩ := packBits_of_room q s hp hroom
    rw [hu] at h
    cases h
    exact ⟨hfr, hok, hbits, hpre, by rw [(packed_length hok.1 hbits).1]; exact hroom⟩
  · rw [packBits_of_full q s hp h0 (by omega)] at h
    cases h

theorem edges_packBits {q : List Bool} {s t : State} (h : Edges s) (he : s.err = none) (ht : packBits q s = .ok t) :
    Edges t := by
  obtain ⟨hfr, hok, -, -, hlen⟩ := packBits_ok h.packer h.output ht
  rw [hfr] at hok hlen ⊢
  exact ⟨h.bounded, h.input, hlen, h.cursor, h.noCursor, h.emittedBits, hok, fun hc => absurd he hc, h.noError,
    h.noIoFailure⟩

theorem packBit_eq_packBits (b : Bool) (s : State) : packBit b s = packBits [b] s := by
  rw [packBits]
  cases packBit b s <;> rfl

theorem edges_packBit {b : Bool} {s t : State} (h : Edges s) (he : s.err = none) (ht : packBit b s = .ok t) : Edges t := by
  rw [packBit_eq_packBits] at ht
  exact edges_packBits h he ht

theorem edges_flush {s t : State} (h : Edges s) (he : s.err = none) (ht : doPkFlush s = .ok t) : Edges t := by
  rw [doPkFlush] at ht
  split at ht
  · cases ht; exact h
  · obtain ⟨u, hu, ht⟩ := Op.bind_ok.1 ht
    obtain ⟨hroom, rfl⟩ := outByte_ok hu
    cases ht
    refine ⟨h.bounded, h.input, ?_, h.cursor, h.noCursor, h.emittedBits, packerOk_empty rfl rfl, fun hc => absurd he hc,
      h.noError, h.noIoFailure⟩
    simp only [State.olen] at hroom
    simpa [State.olen] using hroom

theorem outBytes_ok {bs : List Byte} {s t : State} (h0 : s.olen ≤ s.cfg.obufCap) (h : outBytes bs s = .ok t) :
    s.olen + bs.length ≤ s.cfg.obufCap ∧ t = { s with obuf := s.obuf ++ bs } := by
  refine ⟨?_, outBytes_frame h⟩
  by_contra hc
  rw [outBytes_of_full bs s h0 (by omega)] at h
  cases h

theorem edges_hdrWr {s t : State} (h : Edges s) (he : s.err = none) (ht : doHdrWr s = .ok t) : Edges t := by
  obtain ⟨-, -, ht⟩ := Op.bind_ok.1 ht
  obtain ⟨-, -, ht⟩ := Op.bind_ok.1 ht
  obtain ⟨hroom, rfl⟩ := outBytes_ok h.output ht
  refine ⟨h.bounded, h.input, ?_, h.cursor, h.noCursor, h.emittedBits, h.packer, fun hc => absurd he hc, h.noError,
    h.noIoFailure⟩
  simp only [State.olen] at hroom
  simpa [State.olen] using hroom

theorem edges_encSym {b : Byte} {s t : State} (h : Edges s) (he : s.err = none) (ht : doEncSym b s = .ok t) : Edges t := by
  obtain ⟨-, -, ht⟩ := Op.bind_ok.1 ht
  obtain ⟨-, -, ht⟩ := Op.bind_ok.1 ht
  exact edges_packBits h he ht

theorem edges_encodeAll {bs : List Byte} {s t : State} (h : Edges s) (he : s.err = none) (ht : encodeAll bs s = .ok t) :
    Edges t ∧ t.err = none := by
  induction bs generalizing s with
  | nil => cases ht; exact ⟨h, he⟩
  | cons b bs ih =>
    obtain ⟨u, hu, ht⟩ := Op.bind_ok.1 ht
    have heu : u.err = none := by obtain ⟨_, _, _, rfl⟩ := doEncSym_frame hu; exact he
    exact ih (edges_encSym h he hu) heu ht

theorem edges_setCursor {s : State} (h : Edges s) (he : s.err = none) {a : Nat} (ha : a ≤ s.ilen) :
    Edges (s.setCursor a) :=
  ⟨h.bounded, h.input, h.output, fun _ => ⟨ha, by simp [State.setCursor]⟩, by simp [State.setCursor],
    by simp [State.setCursor], h.packer, fun hc => absurd he hc, h.noError, h.noIoFailure⟩

theorem edges_decSym {s t : State} {v : Word} (h : Edges s) (hs : Stages s) (he : s.err = none)
    (ht : opDecSym s = .ok (t, v)) : Edges t := by
  rcases opDecSym_cases (s := s) hs.arena.descending (fun hv => (hs.built hv).1.root_lt) with h1 | h1 | h1
  · rw [h1] at ht; cases ht; exact h
  · obtain ⟨hc, hlt, hroom, b, k, hk1, hk2, hok⟩ := h1
    rw [hok] at ht
    cases ht
    obtain ⟨hr, hb⟩ := h.cursor hc
    have hem := h.emittedBits
    simp only [State.bitsLeft] at hk2
    refine ⟨h.bounded, h.input, ?_, fun _ => ⟨hr, ?_⟩, fun hn => ?_, ?_, h.packer, fun hc => absurd he hc,
      h.noError, h.noIoFailure⟩
    · simp only [State.olen] at hroom
      simpa [decodedState, State.olen] using hroom
    · simp only [decodedState, State.ilen] at hk2 hb ⊢; omega
    · exact absurd (hn.symm.trans hc) (by simp)
    · simp only [decodedState]; omega
  · obtain ⟨e, -, h1⟩ := h1
    rw [h1] at ht; cases ht

theorem stages_decSym {s t : State} {v : Word} (hs : Stages s) (ht : opDecSym s = .ok (t, v)) : Stages t := by
  obtain ⟨_, _, _, rfl⟩ := opDecSym_frame ht
  exact hs.congr rfl rfl rfl rfl rfl rfl rfl rfl rfl rfl rfl

theorem decodeLoop_keeps : ∀ (n : Nat) (s t : State), Edges s → Stages s → s.err = none → decodeLoop n s = .ok t →
    Edges t ∧ Stages t := by
  intro n
  induction n with
  | zero =>
    intro s t h hs he ht
    rw [decodeLoop] at ht
    split at ht
    · obtain ⟨⟨u, v⟩, hu, ht⟩ := Op.bind_ok.1 ht
      cases ht
      exact ⟨edges_decSym h hs he hu, stages_decSym hs hu⟩
    · cases ht; exact ⟨h, hs⟩
  | succ n ih =>
    intro s t h hs he ht
    rw [decodeLoop] at ht
    split at ht
    · obtain ⟨⟨u, v⟩, hu, ht⟩ := Op.bind_ok.1 ht
      have heu : u.err = none := by obtain ⟨_, _, _, rfl⟩ := opDecSym_frame hu; exact he
      exact ih _ _ (edges_decSym h hs he hu) (stages_decSym hs hu) heu ht
    · cases ht; exact ⟨h, hs⟩

/-! ## The sequencers -/

theorem counts_of_input {s : State} (h : Edges s) : ∀ e ∈ countBytes s.ibuf, e.2 < 2 ^ 31 := by
  intro e he
  have h1 := countBytes_le s.ibuf e he
  have h2 := h.input
  have h3 := h.bounded.2.1
  simp only [State.ilen] at h2
  omega

theorem compress_keeps {s t : State} (h : s.Inv) (he : s.err = none) (ht : doCompress s = .ok t) : t.Inv := by
  obtain ⟨hs, hg⟩ := (inv_iff s).1 h
  simp only [doCompress] at ht
  have hs2 : Stages { doFreq { s with nothing := false } with obuf := [], acc := 0#8, nacc := 0 } :=
    (stages_withTable hs (countBytes_wf s.ibuf) (counts_of_input hg)).congr rfl rfl rfl rfl rfl rfl rfl rfl rfl rfl rfl
  have hg2 : Edges { doFreq { s with nothing := false } with obuf := [], acc := 0#8, nacc := 0 } :=
    ⟨hg.bounded, hg.input, by simp [State.olen], hg.cursor, hg.noCursor, hg.emittedBits, packerOk_empty rfl rfl,
      fun hc => absurd he hc, hg.noError, hg.noIoFailure⟩
  split at ht
  · cases ht
    refine (inv_iff _).2 ⟨hs2.congr rfl rfl rfl rfl rfl rfl rfl rfl rfl rfl rfl, hg2.congr he rfl rfl rfl rfl rfl rfl rfl rfl rfl rfl rfl⟩
  · obtain ⟨s3, h3, ht⟩ := Op.bind_ok.1 ht
    obtain ⟨s4, h4, ht⟩ := Op.bind_ok.1 ht
    obtain ⟨s5, h5, ht⟩ := Op.bind_ok.1 ht
    obtain ⟨s6, h6, ht⟩ := Op.bind_ok.1 ht
    have hs3 := stages_build hs2 h3
    have hs4 := stages_gencode hs3 h4
    obtain ⟨-, -, -, -, e3⟩ := doBuild_ok h3
    obtain ⟨-, ct, e4⟩ := doGencode_frame h4
    have he3 : s3.err = none := by rw [e3]; exact he
    have hg3 : Edges s3 := hg2.congr he (by rw [e3]) (by rw [e3]) (by rw [e3]) (by rw [e3]) (by rw [e3]) (by rw [e3])
      (by rw [e3]) (by rw [e3]) (by rw [e3]) (by rw [e3]) (by rw [e3])
    have he4 : s4.err = none := by rw [e4]; exact he3
    have hg4 : Edges s4 := hg3.congr he3 (by rw [e4]) (by rw [e4]) (by rw [e4]) (by rw [e4]) (by rw [e4]) (by rw [e4])
      (by rw [e4]) (by rw [e4]) (by rw [e4]) (by rw [e4]) (by rw [e4])
    have e5 := doHdrWr_frame h5
    have hg5 := edges_hdrWr hg4 he4 h5
    have he5 : s5.err = none := by rw [e5]; exact he4
    obtain ⟨hg6, he6⟩ := edges_encodeAll hg5 he5 h6
    have hg7 := edges_flush hg6 he6 ht
    refine (inv_iff _).2 ⟨?_, hg7⟩
    obtain ⟨_, _, _, e6⟩ := encodeAll_frame h6
    obtain ⟨_, _, _, e7⟩ := doPkFlush_frame ht
    subst e7 e6 e5
    exact hs4.congr rfl rfl rfl rfl rfl rfl rfl rfl rfl rfl rfl

theorem hdrRd_keeps {s t : State} (hs : Stages s) (hg : Edges s) (he : s.err = none) (ht : doHdrRd s = .ok t) :
    Stages t ∧ Edges t := by
  obtain ⟨u, rfl, hw, hc, -, -, hlen⟩ := doHdrRd_ok ht
  refine ⟨(stages_withTable hs hw hc).congr rfl rfl rfl rfl rfl rfl rfl rfl rfl rfl rfl, ?_⟩
  have hg' : Edges (s.withTable u) := hg.congr he rfl rfl rfl rfl rfl rfl rfl rfl rfl rfl rfl
  exact edges_setCursor hg' he (Nat.le_of_lt hlen)

theorem build_edges {s t : State} (hg : Edges s) (he : s.err = none) (ht : doBuild s = .ok t) : Edges t := by
  obtain ⟨-, -, -, -, e⟩ := doBuild_ok ht
  exact hg.congr he (by rw [e]) (by rw [e]) (by rw [e]) (by rw [e]) (by rw [e]) (by rw [e])
    (by rw [e]) (by rw [e]) (by rw [e]) (by rw [e]) (by rw [e])

theorem decompress_keeps {s t : State} (h : s.Inv) (he : s.err = none) (ht : doDecompress s = .ok t) : t.Inv := by
  obtain ⟨hs, hg⟩ := (inv_iff s).1 h
  obtain ⟨s1, h1, ht⟩ := Op.bind_ok.1 ht
  obtain ⟨s2, h2, ht⟩ := Op.bind_ok.1 ht
  have hs0 : Stages { s with nothing := false } := hs.congr rfl rfl rfl rfl rfl rfl rfl rfl rfl rfl rfl
  have hg0 : Edges { s with nothing := false } := hg.congr he rfl rfl rfl rfl rfl rfl rfl rfl rfl rfl rfl
  obtain ⟨hs1, hg1⟩ := hdrRd_keeps hs0 hg0 he h1
  have he1 : s1.err = none := by obtain ⟨_, rfl, -⟩ := doHdrRd_ok h1; exact he
  have hs2 := stages_build hs1 h2
  have hg2 := build_edges hg1 he1 h2
  have he2 : s2.err = none := by obtain ⟨-, -, -, -, e⟩ := doBuild_ok h2; rw [e]; exact he1
  have hs3 : Stages { s2 with obuf := [] } := hs2.congr rfl rfl rfl rfl rfl rfl rfl rfl rfl rfl rfl
  have hg3 : Edges { s2 with obuf := [] } :=
    ⟨hg2.bounded, hg2.input, by simp [State.olen], hg2.cursor, hg2.noCursor, hg2.emittedBits, hg2.packer,
      fun hc => absurd he2 hc, hg2.noError, hg2.noIoFailure⟩
  obtain ⟨hg4, hs4⟩ := decodeLoop_keeps _ _ _ hg3 hs3 he2 ht
  exact (inv_iff _).2 ⟨hs4, hg4⟩

end Sys2Proof.Machine
end

