-- ==== Sys2Proof/Laws/Sequencers.lean ====
section
/-! SUPPORT. What `COMPRESS` and `DECOMPRESS` leave: the tree is a function of the table, encoding is packing the codes, decoding
takes the symbols back (42_tree_builder.md R172; 46_orchestration.md R246 to R248). -/

namespace Sys2Proof.Machine

open Sys2Proof

/-! ## The tree is a function of the table (R172) -/

theorem TwoMinima.congr {s s' : State} {a b : Nat} (h : TwoMinima s a b) (hn : s'.nodes = s.nodes) (hq : s'.inq = s.inq) :
    TwoMinima s' a b := by
  refine ⟨?_, ?_, ?_, ?_⟩
  · rw [hq]; exact h.first
  · rw [hq]; exact h.second
  · rw [hn, hq]; exact h.least
  · rw [hn, hq]; exact h.next

theorem buildLoop_same : ∀ (n : Nat) (s s' t t' : State), Building s → Building s' → s.nodes = s'.nodes →
    s.inq = s'.inq → buildLoop n s = .ok t → buildLoop n s' = .ok t' → t.nodes = t'.nodes ∧ t.inq = t'.inq := by
  intro n
  induction n with
  | zero => intro s s' t t' _ _ hn hq h h'; cases h; cases h'; exact ⟨hn, hq⟩
  | succ n ih =>
    intro s s' t t' hb hb' hn hq h h'
    have hlen : s.pqLen = s'.pqLen := by simp only [State.pqLen, hq]
    have hact : s.tbActive = s'.tbActive := by
      rw [Bool.eq_iff_iff, hb.active, hb'.active, hlen]
    rw [buildLoop] at h h'
    rw [← hact] at h'
    split at h
    · rename_i ha
      have h2 := hb.active.1 ha
      obtain ⟨a, b, hm⟩ := twoMinima_exist hb.arena h2
      have hm' := hm.congr hn.symm hq.symm
      rw [if_pos ha, doTbStep_eq (hact ▸ ha) hb'.arena.queueBacked hm', Op.ok_bind] at h'
      rw [doTbStep_eq ha hb.arena.queueBacked hm, Op.ok_bind] at h
      refine ih _ _ t t' (building_merge hb h2 hm) (building_merge hb' (hlen ▸ h2) hm') ?_ ?_ h h'
      · rw [mergeState_nodes, mergeState_nodes, hn]
      · rw [mergeState_inq, mergeState_inq, State.nextId, State.nextId, hn, hq]
    · rename_i ha
      rw [if_neg ha] at h'
      cases h; cases h'
      exact ⟨hn, hq⟩

/-- Two builds from the same table leave the same arena, queue, root and total. -/
theorem doBuild_same {s s' t t' : State} (hft : s.ft = s'.ft) (h : doBuild s = .ok t) (h' : doBuild s' = .ok t') :
    t.nodes = t'.nodes ∧ t.inq = t'.inq ∧ t.root = t'.root ∧ t.total = t'.total := by
  obtain ⟨hv, hn, hb, h1, e⟩ := doBuild_ok h
  obtain ⟨hv', hn', hb', h1', e'⟩ := doBuild_ok h'
  have hsame : t.nodes = t'.nodes ∧ t.inq = t'.inq := by
    obtain ⟨u, hu, hl⟩ := Op.bind_ok.1 h
    obtain ⟨u', hu', hl'⟩ := Op.bind_ok.1 h'
    obtain ⟨-, -, rfl⟩ := doTbInit_ok hu
    obtain ⟨-, -, rfl⟩ := doTbInit_ok hu'
    have hns : (tbInitState s).nsym = (tbInitState s').nsym := by
      rw [tbInitState_frame s, tbInitState_frame s']
      simp only [State.nsym, hft]
    rw [hns] at hl
    refine buildLoop_same _ _ _ _ _ (building_tbInit hv hn) (building_tbInit hv' hn') ?_ ?_ hl hl'
    · rw [tbInitState_frame s, tbInitState_frame s']; simp only [hft]
    · rw [tbInitState_frame s, tbInitState_frame s']; simp only [State.nsym, hft]
  have hf := hb.finish h1
  have hf' := hb'.finish h1'
  have htft : t.ft = t'.ft := by rw [e, e']; exact hft
  refine ⟨hsame.1, hsame.2, ?_, ?_⟩
  · rw [hf.root, hf'.root, State.nextId, State.nextId, hsame.1]
  · rw [hf.sum, hf'.sum, htft]

theorem codesOf_congr {s s' : State} (hn : s.nodes = s'.nodes) (hr : s.root = s'.root)
    (hc : s.cfg.singleCodeBit = s'.cfg.singleCodeBit) : codesOf s = codesOf s' := by
  rw [codesOf, codesOf, hn, hr, hc]

/-- The Code Table of a table is the one `GENCODE` makes of any build of it. -/
theorem codeTableOf_eq {s t : State} (h : doBuild s = .ok t) (cfg : Config)
    (hc : cfg.singleCodeBit = s.cfg.singleCodeBit) : codeTableOf cfg s.ft = codesOf t := by
  obtain ⟨hv, hn, -, -, e⟩ := doBuild_ok h
  obtain ⟨u, hu, hbu, h1u, eu⟩ := doBuild_completes
    (s := State.freshTable cfg s.ft) rfl hn
  have hfu := hbu.finish h1u
  have hvu : u.treeValid = true := by rw [eu]
  have hsame := doBuild_same (s := State.freshTable cfg s.ft) (s' := s) rfl hu h
  simp only [codeTableOf, hu, bind, Except.bind, hfu.gencode hvu]
  refine codesOf_congr hsame.1 hsame.2.2.1 ?_
  have h1 : u.cfg = cfg := by rw [eu]; rfl
  have h2 : t.cfg = s.cfg := by rw [e]
  rw [h1, h2, hc]

theorem codeTableOf_congr {cfg cfg' : Config} (hc : cfg.singleCodeBit = cfg'.singleCodeBit) (t : Table Nat) :
    codeTableOf cfg t = codeTableOf cfg' t := by
  by_cases hn : t.length = 0
  · have key : ∀ c : Config, codeTableOf c t = [] := by
      intro c
      simp only [codeTableOf, doBuild_empty (s := State.freshTable c t) rfl hn, bind,
        Except.bind]
    rw [key, key]
  · obtain ⟨u, hu, -, -, -⟩ := doBuild_completes
      (s := State.freshTable cfg t) rfl (Nat.one_le_iff_ne_zero.2 hn)
    exact (codeTableOf_eq hu cfg rfl).trans (codeTableOf_eq hu cfg' hc.symm).symm

/-! ## Packing a whole input -/

theorem packBits_append (p q : List Bool) (s : State) : packBits (p ++ q) s = packBits p s >>= packBits q := by
  induction p generalizing s with
  | nil => rfl
  | cons b p ih =>
    rw [List.cons_append, packBits, packBits]
    cases packBit b s with
    | error e => rfl
    | ok t => exact ih t

/-- When every byte has a code, encoding an input is packing its codes, one after another (R240, R246). -/
theorem encodeAll_eq (bs : List Byte) (s : State) (hc : s.ctValid = true) (hb : ∀ b ∈ bs, 1 ≤ s.ctl b) :
    encodeAll bs s = packBits (bs.flatMap s.ctb) s := by
  induction bs generalizing s with
  | nil => rfl
  | cons b bs ih =>
    rw [encodeAll, doEncSym_eq hc (hb b List.mem_cons_self), List.flatMap_cons, packBits_append]
    cases ht : packBits (s.ctb b) s with
    | error e => rfl
    | ok t =>
      obtain ⟨_, _, _, e⟩ := packBits_frame ht
      have hct : t.ctb = s.ctb := by rw [e]; rfl
      have := ih t (by rw [e]; exact hc) (fun c hm => by
        rw [State.ctl, hct]; exact hb c (List.mem_cons_of_mem _ hm))
      rw [hct] at this
      exact this

/-- The accumulator as a byte: the waiting bits, then zeros (10_state.md R35). -/
theorem bitsOfByte_acc {s : State} (h : PackerOk s) :
    bitsOfByte s.acc = s.waiting ++ List.replicate (8 - s.nacc) false := by
  have hn := h.1
  apply List.ext_getElem?
  intro k
  by_cases hk : k < s.nacc
  · rw [List.getElem?_append_left (by rw [waiting_length]; exact hk)]
    simp [bitsOfByte, State.waiting, hk, show k < 8 by omega]
  · rw [List.getElem?_append_right (by rw [waiting_length]; omega), waiting_length]
    by_cases hk8 : k < 8
    · have := low_bits_zero h.2 (i := 7 - k) (by omega)
      simp [bitsOfByte, hk8, show k - s.nacc < 8 - s.nacc by omega, this]
    · simp [bitsOfByte, hk8, show ¬ k - s.nacc < 8 - s.nacc by omega]

/-- Packing a bit sequence from an empty packer and flushing appends the sequence padded to whole bytes (R200, R203). -/
theorem pack_flush_of_room (q : List Bool) (s : State) (ha : s.acc = 0#8) (hn : s.nacc = 0)
    (hroom : s.olen + (q.length + 7) / 8 ≤ s.cfg.obufCap) : ∃ payload,
    (packBits q s >>= doPkFlush) = .ok { s with obuf := s.obuf ++ payload, acc := 0#8, nacc := 0 } ∧
    bitsOf payload = padded q ∧ payload.length = (q.length + 7) / 8 := by
  have hp : PackerOk s := packerOk_empty ha hn
  obtain ⟨t, ht, hfr, hok, hbits, ⟨pre, hpre⟩⟩ := packBits_of_room q s hp (by rw [hn]; omega)
  obtain ⟨hlen, hnacc⟩ := packed_length hok.1 hbits
  rw [hn] at hlen hnacc
  simp only [Nat.zero_add] at hlen hnacc
  have hwait : s.waiting = [] := by rw [State.waiting, hn]; rfl
  have hpay : bitsOf pre ++ t.waiting = q := by
    rw [State.outputBits, State.outputBits, hwait, List.append_nil, ← hpre, bitsOf_append, List.append_assoc] at hbits
    exact List.append_cancel_left hbits
  have hprelen : pre.length = q.length / 8 := by
    have := congrArg List.length hpay
    rw [List.length_append, bitsOf_length, waiting_length] at this
    omega
  rw [ht, Op.ok_bind, doPkFlush]
  by_cases h0 : t.nacc = 0
  · refine ⟨pre, ?_, ?_, ?_⟩
    · rw [if_pos h0, hpre]
      have hacc : t.acc = 0#8 := by
        have := hok.2
        rw [h0] at this
        apply BitVec.eq_of_toNat_eq
        simpa [Nat.mod_eq_of_lt t.acc.isLt] using this
      rw [hfr]
      simp only [hacc, h0]
    · have hw : t.waiting = [] := by rw [State.waiting, h0]; rfl
      rw [hw, List.append_nil] at hpay
      rw [hpay, padded, padCount]
      rw [show (8 - q.length % 8) % 8 = 0 by omega]
      simp
    · omega
  · refine ⟨pre ++ [t.acc], ?_, ?_, ?_⟩
    · have hcap : t.cfg = s.cfg := by rw [hfr]
      rw [if_neg h0, outByte_of_room t.acc (by rw [hcap]; omega), Op.ok_bind, ← List.append_assoc, hpre]
      rw [hfr]
    · rw [bitsOf_append, bitsOf_singleton, bitsOfByte_acc hok, ← List.append_assoc, hpay, padded, padCount, hnacc]
      rw [show (8 - q.length % 8) % 8 = 8 - q.length % 8 by omega]
    · simp only [List.length_append, List.length_singleton]
      omega

theorem pack_flush_of_full (q : List Bool) (s : State) (ha : s.acc = 0#8) (hn : s.nacc = 0) (h0 : s.olen ≤ s.cfg.obufCap)
    (hfull : s.cfg.obufCap < s.olen + (q.length + 7) / 8) : (packBits q s >>= doPkFlush) = raise .bufferOverflow := by
  have hp : PackerOk s := packerOk_empty ha hn
  by_cases hroom : s.olen + q.length / 8 ≤ s.cfg.obufCap
  · obtain ⟨t, ht, hfr, hok, hbits, -⟩ := packBits_of_room q s hp (by rw [hn]; simpa using hroom)
    obtain ⟨hlen, hnacc⟩ := packed_length hok.1 hbits
    rw [hn] at hlen hnacc
    simp only [Nat.zero_add] at hlen hnacc
    have hcap : t.cfg = s.cfg := by rw [hfr]
    rw [ht, Op.ok_bind, doPkFlush, if_neg (by omega), outByte_of_full t.acc (by rw [hcap]; omega), Op.error_bind]
  · rw [packBits_of_full q s hp h0 (by rw [hn]; simp only [Nat.zero_add]; omega), Op.error_bind]

/-! ## `COMPRESS` (R246) -/

/-- The state in which `COMPRESS` starts to build: the input counted, the output and the packer emptied. -/
def compressStart (s : State) : State :=
  { s with nothing := false, obuf := [], acc := 0#8, nacc := 0, ft := countBytes s.ibuf, ftValid := true, tbActive := false,
           treeValid := false, ctValid := false }

theorem doCompress_empty {s : State} (h : s.ibuf = []) : doCompress s =
    .ok { s with obuf := [], acc := 0#8, nacc := 0, ft := [], ftValid := true, tbActive := false, treeValid := false,
                 ctValid := false, nothing := true } := by
  have h0 : s.ilen = 0 := by rw [State.ilen, h]; rfl
  simp only [doCompress, doFreq, State.withTable, State.ilen, h, List.length_nil, if_true, countBytes_nil]

theorem count_ne_zero_of_mem {bs : List Byte} {b : Byte} (h : b ∈ bs) : bs.count b ≠ 0 := by
  have := List.count_pos_iff.2 h
  omega

/-- What `COMPRESS` does with an input that is not empty: it builds the tree and the codes of the counted input, then writes the
header and the packed codes if they fit, and raises `BUFFER_OVERFLOW` if not. -/
theorem doCompress_spec {s : State} (hne : s.ibuf ≠ []) : ∃ t : State,
    doBuild (compressStart s) = .ok t ∧ Finished t ∧
    t = { compressStart s with nodes := t.nodes, inq := t.inq, root := t.root, total := t.total, treeValid := true } ∧
    (∀ b ∈ s.ibuf, ((codesOf t).find b).isSome = true) ∧
    codeTableOf s.cfg (countBytes s.ibuf) = codesOf t ∧
    (containerLength s.cfg s.ibuf ≤ s.cfg.obufCap → ∃ payload,
      doCompress s = .ok { t with ct := codesOf t, ctValid := true,
                                  obuf := headerBytes s.cfg.byteOrder (countBytes s.ibuf) ++ payload } ∧
      bitsOf payload = padded (codeBits s.cfg s.ibuf) ∧ payload.length = ((codeBits s.cfg s.ibuf).length + 7) / 8) ∧
    (s.cfg.obufCap < containerLength s.cfg s.ibuf → doCompress s = raise .bufferOverflow) := by
  have hsym : 1 ≤ (compressStart s).nsym := countBytes_ne_nil hne
  obtain ⟨t, ht, hb, h1, hfr⟩ := doBuild_completes (s := compressStart s) rfl hsym
  have hfr' : t = { compressStart s with nodes := t.nodes, inq := t.inq, root := t.root, total := t.total,
                                         treeValid := true } := hfr
  have hfin := hb.finish h1
  have hv : t.treeValid = true := by rw [hfr']
  have htft : t.ft = countBytes s.ibuf := by rw [hfr']; rfl
  have hw : Table.wf t.ft = true := by rw [htft]; exact countBytes_wf _
  have hcode : codeTableOf s.cfg (countBytes s.ibuf) = codesOf t := codeTableOf_eq (s := compressStart s) ht s.cfg rfl
  have hpres : ∀ b ∈ s.ibuf, ((codesOf t).find b).isSome = true := by
    intro b hmem
    rw [hfin.codes_present hw, State.ftv, htft, countBytes_find, if_neg (count_ne_zero_of_mem hmem)]
    rfl
  refine ⟨t, ht, hfin, hfr', hpres, hcode, ?_⟩
  -- the state with its code table
  have hgen := hfin.gencode hv
  have hbits : s.ibuf.flatMap ({ t with ct := codesOf t, ctValid := true } : State).ctb = codeBits s.cfg s.ibuf := by
    rw [codeBits, hcode]; rfl
  have hne' : ¬ s.ilen = 0 := fun hc => hne (List.length_eq_zero_iff.1 hc)
  have hrun : doCompress s = (doHdrWr { t with ct := codesOf t, ctValid := true } >>= fun s5 =>
      encodeAll s5.ibuf s5 >>= doPkFlush) := by
    have hstart : ({ doFreq { s with nothing := false } with obuf := [], acc := 0#8, nacc := 0 } : State) =
        compressStart s := rfl
    simp only [doCompress, hstart]
    rw [if_neg (show ¬ (compressStart s).ilen = 0 from hne'), ht, Op.ok_bind, hgen, Op.ok_bind]
  have hcfg : t.cfg = s.cfg := by rw [hfr']; rfl
  have hobuf : t.obuf = [] := by rw [hfr']; rfl
  have hacc : t.acc = 0#8 := by rw [hfr']; rfl
  have hnacc : t.nacc = 0 := by rw [hfr']; rfl
  have hibuf : t.ibuf = s.ibuf := by rw [hfr']; rfl
  have hftv : t.ftValid = true := by rw [hfr']; rfl
  have hlen : (headerBytes s.cfg.byteOrder (countBytes s.ibuf)).length = headerLength (countBytes s.ibuf).length :=
    headerBytes_length _ _
  have hnsym : t.nsym = (countBytes s.ibuf).length := by rw [State.nsym, htft]
  by_cases hhdr : headerLength (countBytes s.ibuf).length ≤ s.cfg.obufCap
  · -- the header fits
    have h5 : doHdrWr { t with ct := codesOf t, ctValid := true } =
        .ok { t with ct := codesOf t, ctValid := true, obuf := headerBytes s.cfg.byteOrder (countBytes s.ibuf) } := by
      rw [doHdrWr_of_room (s := { t with ct := codesOf t, ctValid := true }) hftv hfin.someSymbol (by
        have e1 : ({ t with ct := codesOf t, ctValid := true } : State).olen = 0 := by simp only [State.olen, hobuf]; rfl
        have e2 : ({ t with ct := codesOf t, ctValid := true } : State).nsym = (countBytes s.ibuf).length := hnsym
        rw [e1, e2]
        simp only [hcfg]
        omega)]
      simp only [hobuf, hcfg, htft, List.nil_append]
    have h6 := encodeAll_eq s.ibuf
      { t with ct := codesOf t, ctValid := true, obuf := headerBytes s.cfg.byteOrder (countBytes s.ibuf) } rfl (by
        intro b hmem
        obtain ⟨q, hq⟩ := Option.isSome_iff_exists.1 (hpres b hmem)
        have := (hfin.code_length hw _ (Table.mem_of_find hq)).1
        simpa [State.ctl, State.ctb, hq] using this)
    have hbits' : s.ibuf.flatMap ({ t with ct := codesOf t, ctValid := true, obuf := headerBytes s.cfg.byteOrder (countBytes s.ibuf) } : State).ctb =
        codeBits s.cfg s.ibuf := hbits
    rw [hbits'] at h6
    have hrun' : doCompress s = (packBits (codeBits s.cfg s.ibuf)
        { t with ct := codesOf t, ctValid := true, obuf := headerBytes s.cfg.byteOrder (countBytes s.ibuf) } >>= doPkFlush) := by
      have h6' : encodeAll t.ibuf { t with ct := codesOf t, ctValid := true, obuf := headerBytes s.cfg.byteOrder (countBytes s.ibuf) } =
          packBits (codeBits s.cfg s.ibuf)
            { t with ct := codesOf t, ctValid := true, obuf := headerBytes s.cfg.byteOrder (countBytes s.ibuf) } :=
        (congrArg (fun l => encodeAll l _) hibuf).trans h6
      rw [hrun, h5, Op.ok_bind]
      exact congrArg (· >>= doPkFlush) h6'
    constructor
    · intro hroom
      obtain ⟨payload, hp, hpb, hpl⟩ := pack_flush_of_room (codeBits s.cfg s.ibuf)
        { t with ct := codesOf t, ctValid := true, obuf := headerBytes s.cfg.byteOrder (countBytes s.ibuf) } hacc hnacc (by
          simp only [State.olen, hlen, hcfg]
          simp only [containerLength] at hroom
          exact hroom)
      refine ⟨payload, ?_, hpb, hpl⟩
      rw [hrun', hp]
      simp [hacc, hnacc]
    · intro hfull
      rw [hrun']
      refine pack_flush_of_full _ _ hacc hnacc ?_ ?_
      · simp only [State.olen, hlen, hcfg]; exact hhdr
      · simp only [State.olen, hlen, hcfg]
        simp only [containerLength] at hfull
        exact hfull
  · -- the header does not fit
    constructor
    · intro hroom
      simp only [containerLength] at hroom
      omega
    · intro _
      rw [hrun, doHdrWr_of_full (s := { t with ct := codesOf t, ctValid := true }) hftv hfin.someSymbol, Op.error_bind]
      · simp only [State.olen, hobuf, hcfg]; simp
      · have e1 : ({ t with ct := codesOf t, ctValid := true } : State).olen = 0 := by simp only [State.olen, hobuf]; rfl
        have e2 : ({ t with ct := codesOf t, ctValid := true } : State).nsym = (countBytes s.ibuf).length := hnsym
        rw [e1, e2]
        simp only [hcfg]
        omega

/-! ## `DECOMPRESS` (R248) -/

/-- The state after decoding the symbols `xs` from `n` payload bits. -/
def decodedAll (s : State) (xs : List Byte) (n : Nat) : State :=
  { s with obuf := s.obuf ++ xs, bpos := s.bpos + n, emitted := s.emitted + xs.length }

theorem decodedState_eq (s : State) (b : Byte) (k : Nat) : decodedState s b k = decodedAll s [b] k := rfl

/-- The loop of `DECOMPRESS` takes the symbols whose codes come next, as long as symbols are wanted and the output has room
(R242, R243). -/
theorem decodeLoop_symbols : ∀ (xs : List Byte) (n : Nat) (s : State) (code : Byte → List Bool) (rest : List Bool),
    Finished s → s.treeValid = true → s.curValid = true → (∀ x ∈ xs, s.treeCode x (code x)) →
    s.payloadBits.drop s.bpos = xs.flatMap code ++ rest → s.emitted + xs.length ≤ s.total →
    s.olen + xs.length ≤ s.cfg.obufCap → xs.length ≤ n →
    decodeLoop n s = decodeLoop (n - xs.length) (decodedAll s xs (xs.flatMap code).length) := by
  intro xs
  induction xs with
  | nil => intro n s code rest _ _ _ _ _ _ _ _; simp [decodedAll]
  | cons x xs ih =>
    intro n s code rest hf hv hc hcodes hbits htot hroom hn
    simp only [List.length_cons] at htot hroom hn
    obtain ⟨m, rfl⟩ : ∃ m, n = m + 1 := ⟨n - 1, by omega⟩
    have hx := hcodes x List.mem_cons_self
    have hpre : code x <+: s.payloadBits.drop s.bpos := by
      rw [hbits, List.flatMap_cons, List.append_assoc]
      exact List.prefix_append _ _
    have htake := takeSymbol_of_code hf.descends hf.root_lt hx hpre
    have hop := opDecSym_of_take hv hc (by omega) htake (by omega)
    have hrest : (decodedAll s [x] (code x).length).payloadBits.drop (decodedAll s [x] (code x).length).bpos =
        xs.flatMap code ++ rest := by
      have h1 : (decodedAll s [x] (code x).length).payloadBits = s.payloadBits := rfl
      have h2 : (decodedAll s [x] (code x).length).bpos = s.bpos + (code x).length := rfl
      rw [h1, h2, ← List.drop_drop, hbits, List.flatMap_cons, List.append_assoc, List.drop_left]
    have hstep := ih m (decodedAll s [x] (code x).length) code rest (hf.congr rfl rfl rfl rfl rfl) hv hc
      (fun y hy => hcodes y (List.mem_cons_of_mem _ hy)) hrest
      (by simp only [decodedAll, List.length_singleton]; omega)
      (by simp only [decodedAll, State.olen, List.length_append, List.length_singleton] at hroom ⊢; omega) (by omega)
    rw [decodeLoop, if_pos (by omega), hop, Op.ok_bind]
    simp only [decodedState_eq, hstep]
    rw [List.length_cons, Nat.add_sub_add_right]
    congr 1
    simp [decodedAll, Nat.add_assoc, Nat.add_comm 1]

theorem decodeLoop_done {s : State} (h : s.total ≤ s.emitted) (n : Nat) : decodeLoop n s = .ok s := by
  cases n <;> simp [decodeLoop, Nat.not_lt.2 h]

theorem decodeLoop_raise {s : State} (h : s.emitted < s.total) {e : ErrCode} (hr : opDecSym s = raise e) (n : Nat) :
    decodeLoop n s = raise e := by
  cases n <;> simp [decodeLoop, h, hr, bind, Except.bind]

/-- Decoding raises `CORRUPT_CONTAINER` or `BUFFER_OVERFLOW` or completes; it never needs a node the arena lacks. -/
theorem decodeLoop_cases : ∀ (n : Nat) (s : State), Finished s → s.treeValid = true → s.curValid = true →
    (∃ t, decodeLoop n s = .ok t) ∨ decodeLoop n s = raise .corruptContainer ∨ decodeLoop n s = raise .bufferOverflow := by
  have hone : ∀ s : State, Finished s → s.treeValid = true → s.curValid = true → s.emitted < s.total →
      (∃ b k, opDecSym s = .ok (decodedState s b k, zext32 b)) ∨ opDecSym s = raise .corruptContainer ∨
      opDecSym s = raise .bufferOverflow := by
    intro s hf hv hc hlt
    rcases takeSymbol_cases hf.descends hf.root_lt with ⟨b, k, -, -, hk⟩ | hk
    · by_cases hroom : s.olen < s.cfg.obufCap
      · exact .inl ⟨b, k, opDecSym_of_take hv hc hlt hk hroom⟩
      · exact .inr (.inr (opDecSym_of_take_full hv hc hlt hk (by omega)))
    · exact .inr (.inl (opDecSym_of_corrupt hv hc hlt hk))
  intro n
  induction n with
  | zero =>
    intro s hf hv hc
    by_cases hlt : s.emitted < s.total
    · rw [decodeLoop, if_pos hlt]
      rcases hone s hf hv hc hlt with ⟨b, k, h⟩ | h | h <;> rw [h]
      · exact .inl ⟨_, rfl⟩
      · exact .inr (.inl rfl)
      · exact .inr (.inr rfl)
    · exact .inl ⟨s, decodeLoop_done (by omega) 0⟩
  | succ n ih =>
    intro s hf hv hc
    by_cases hlt : s.emitted < s.total
    · rw [decodeLoop, if_pos hlt]
      rcases hone s hf hv hc hlt with ⟨b, k, h⟩ | h | h <;> rw [h]
      · exact ih _ (hf.congr rfl rfl rfl rfl rfl) hv hc
      · exact .inr (.inl rfl)
      · exact .inr (.inr rfl)
    · exact .inl ⟨s, decodeLoop_done (by omega) (n + 1)⟩

/-- The state in which `DECOMPRESS` starts to decode, from a table and a payload's position. -/
theorem doDecompress_header {s : State} {t : Table Nat} {pos : Nat}
    (h : doHdrRd { s with nothing := false } = .ok (({ s with nothing := false } : State).withTable t |>.setCursor pos))
    (hn : 1 ≤ t.length) : ∃ u : State, Finished u ∧
    u = { s with nothing := false, ft := t, ftValid := true, tbActive := false, treeValid := true, ctValid := false,
                 rpos := pos, bpos := 0, emitted := 0, curValid := true, obuf := [], nodes := u.nodes, inq := u.inq,
                 root := u.root, total := u.total } ∧
    codeTableOf s.cfg t = codesOf u ∧ doDecompress s = decodeLoop u.bitsLeft u := by
  obtain ⟨v, hv, hb, h1, hfr⟩ := doBuild_completes
    (s := (({ s with nothing := false } : State).withTable t).setCursor pos) rfl hn
  refine ⟨{ v with obuf := [] }, (hb.finish h1).congr rfl rfl rfl rfl rfl, ?_, ?_, ?_⟩
  · rw [hfr]; rfl
  · exact codeTableOf_eq hv s.cfg rfl
  · rw [doDecompress, h, Op.ok_bind, hv, Op.ok_bind]

/-- `HDR_RD` does not look at `NOTHING`. -/
theorem doHdrRd_nothing (s : State) : doHdrRd { s with nothing := false } =
    (doHdrRd s).map (fun t => { t with nothing := false }) := by
  obtain ⟨cfg, cmds, resps, ibuf, obuf, ft, nodes, inq, root, total, ct, acc, nacc, rpos, bpos, emitted, err, errcmd,
    ftValid, tbActive, treeValid, ctValid, curValid, nothing⟩ := s
  cases ibuf with
  | nil => rfl
  | cons size body =>
    simp only [doHdrRd, State.ilen, List.length_cons]
    by_cases h1 : headerLength (pairsAnnounced size) ≤ body.length + 1
    · cases hp : parsePairs cfg.byteOrder (pairsAnnounced size) body [] with
      | error e => simp only [require, h1, decide_true, if_true, bind, Except.bind, Except.map]
      | ok t =>
        by_cases h2 : headerLength (pairsAnnounced size) < body.length + 1
        · simp only [require, h1, h2, decide_true, if_true, bind, Except.bind, Except.map]
          rfl
        · simp only [require, h1, h2, decide_true, decide_false, if_true, Bool.false_eq_true, if_false, bind, Except.bind,
            Except.map]
    · simp only [require, h1, decide_false, Bool.false_eq_true, if_false, bind, Except.bind, Except.map]

theorem doDecompress_corrupt {s : State} (h : doHdrRd s = raise .corruptContainer) :
    doDecompress s = raise .corruptContainer := by
  rw [doDecompress, doHdrRd_nothing, h]
  rfl

end Sys2Proof.Machine
end

