-- ==== Sys2Proof/Laws/Outcomes.lean ====
section
/-! SUPPORT. How the Operation of each command can end: which errors it raises (60_exceptions.md R268), that it never stops with
the model's fault in a state that meets the invariant (70_reset_and_hazards.md R304), and that it keeps the invariant
(10_state.md R44). -/

namespace Sys2Proof.Machine

open Sys2Proof

/-! ## The errors an Operation raises -/

theorem bind_raise {α β : Type} {x : Op α} {f : α → Op β} {e : ErrCode} (h : (x >>= f) = raise e) :
    x = raise e ∨ ∃ a, x = .ok a ∧ f a = raise e := Op.bind_error.1 h

theorem require_raise {c : Bool} {e e' : ErrCode} (h : require c e = raise e') : e' = e := by
  have := (require_error.1 h).2
  simpa [eq_comm] using this

theorem nodeAt_ne_raise {nodes : List Node} {i : Nat} {e : ErrCode} : nodeAt nodes i ≠ raise e := by
  simp only [nodeAt]
  split <;> simp

theorem outByte_raise {b : Byte} {s : State} {e : ErrCode} (h : outByte b s = raise e) : e = .bufferOverflow := by
  rw [outByte] at h
  split at h
  · cases h
  · simpa [eq_comm] using h

theorem outBytes_raise {bs : List Byte} {s : State} {e : ErrCode} (h : outBytes bs s = raise e) : e = .bufferOverflow := by
  induction bs generalizing s with
  | nil => cases h
  | cons b bs ih =>
    rcases bind_raise h with h | ⟨t, -, h⟩
    · exact outByte_raise h
    · exact ih h

theorem packBit_raise {b : Bool} {s : State} {e : ErrCode} (h : packBit b s = raise e) : e = .bufferOverflow := by
  simp only [packBit] at h
  split at h
  · rcases bind_raise h with h | ⟨t, -, h⟩
    · exact outByte_raise h
    · cases h
  · cases h

theorem packBits_raise {q : List Bool} {s : State} {e : ErrCode} (h : packBits q s = raise e) : e = .bufferOverflow := by
  induction q generalizing s with
  | nil => cases h
  | cons b q ih =>
    rcases bind_raise h with h | ⟨t, -, h⟩
    · exact packBit_raise h
    · exact ih h

theorem doPkFlush_raise {s : State} {e : ErrCode} (h : doPkFlush s = raise e) : e = .bufferOverflow := by
  rw [doPkFlush] at h
  split at h
  · cases h
  · rcases bind_raise h with h | ⟨t, -, h⟩
    · exact outByte_raise h
    · cases h

theorem decodeWalk_raise {n l r : Nat} {s : State} {e : ErrCode} (h : decodeWalk n l r s = raise e) :
    e = .corruptContainer := by
  induction n generalizing l r s with
  | zero => simpa [decodeWalk, eq_comm] using h
  | succ n ih =>
    rw [decodeWalk] at h
    rcases bind_raise h with h | ⟨x, -, h⟩
    · exact absurd h nodeAt_ne_raise
    · cases x with
      | leaf sym f => cases h
      | internal f l' r' => exact ih h

theorem takeSymbol_raise {s : State} {e : ErrCode} (h : takeSymbol s = raise e) : e = .corruptContainer := by
  rcases bind_raise h with h | ⟨x, -, h⟩
  · exact absurd h nodeAt_ne_raise
  · cases x with
    | leaf sym f =>
      rcases bind_raise h with h | ⟨_, -, h⟩
      · exact require_raise h
      · rcases bind_raise h with h | ⟨_, -, h⟩
        · exact require_raise h
        · cases h
    | internal f l r => exact decodeWalk_raise h

theorem doTbInit_raise {s : State} {e : ErrCode} (h : doTbInit s = raise e) : e = .sequenceError ∨ e = .invalidInput := by
  rcases doTbInit_cases s with ⟨-, -, h3⟩ | ⟨-, h3⟩ | ⟨-, -, h3⟩ <;> rw [h3] at h <;> cases h <;> simp

theorem doBuild_raise {s : State} {e : ErrCode} (h : doBuild s = raise e) : e = .sequenceError ∨ e = .invalidInput := by
  cases hv : s.ftValid
  · rw [doBuild_noTable hv] at h; cases h; simp
  · by_cases hn : s.nsym = 0
    · rw [doBuild_empty hv hn] at h; cases h; simp
    · obtain ⟨t, ht, -⟩ := doBuild_completes hv (Nat.one_le_iff_ne_zero.2 hn)
      rw [ht] at h; cases h

theorem doTbStep_raise {s : State} {e : ErrCode} (h : doTbStep s = raise e) : e = .sequenceError := by
  rcases bind_raise h with h | ⟨_, -, h⟩
  · exact require_raise h
  rcases bind_raise h with h | ⟨⟨a, q1⟩, -, h⟩
  · exact absurd h (extractMin_ne_raise _)
  rcases bind_raise h with h | ⟨⟨b, q2⟩, -, h⟩
  · exact absurd h (extractMin_ne_raise _)
  rcases bind_raise h with h | ⟨na, -, h⟩
  · exact absurd h nodeAt_ne_raise
  rcases bind_raise h with h | ⟨nb, -, h⟩
  · exact absurd h nodeAt_ne_raise
  simp only at h
  split at h <;> cases h

theorem walk_ne_raise {nodes : List Node} {n i : Nat} {path : List Bool} {ct : Table (List Bool)} {e : ErrCode} :
    walk nodes n i path ct ≠ raise e := by
  induction n generalizing i path ct with
  | zero => simp [walk]
  | succ n ih =>
    intro h
    rw [walk] at h
    rcases bind_raise h with h | ⟨x, -, h⟩
    · exact nodeAt_ne_raise h
    · cases x with
      | leaf sym f => cases h
      | internal f l r =>
        rcases bind_raise h with h | ⟨_, -, h⟩
        · exact ih h
        · exact ih h

theorem doGencode_raise {s : State} {e : ErrCode} (h : doGencode s = raise e) : e = .sequenceError := by
  rcases bind_raise h with h | ⟨_, -, h⟩
  · exact require_raise h
  rcases bind_raise h with h | ⟨x, -, h⟩
  · exact absurd h nodeAt_ne_raise
  cases x with
  | leaf sym f => cases h
  | internal f l r =>
    rcases bind_raise h with h | ⟨_, -, h⟩
    · exact absurd h walk_ne_raise
    · cases h

theorem doHdrRd_raise {s : State} {e : ErrCode} (h : doHdrRd s = raise e) : e = .corruptContainer := by
  rcases doHdrRd_cases s with ⟨t, h1, -⟩ | h1 <;> rw [h1] at h <;> cases h
  rfl

theorem doCompress_raise {s : State} {e : ErrCode} (h : doCompress s = raise e) : e = .bufferOverflow := by
  by_cases hne : s.ibuf = []
  · rw [doCompress_empty hne] at h; cases h
  · obtain ⟨t, -, -, -, -, -, hfit, hfull⟩ := doCompress_spec hne
    by_cases hc : containerLength s.cfg s.ibuf ≤ s.cfg.obufCap
    · obtain ⟨p, h1, -⟩ := hfit hc
      rw [h1] at h; cases h
    · rw [hfull (by omega)] at h; cases h; rfl

/-- What `DECOMPRESS` can do: it completes, or raises one of the two errors R268 lists for it. -/
theorem doDecompress_cases (s : State) : (∃ t, doDecompress s = .ok t) ∨ doDecompress s = raise .corruptContainer ∨
    doDecompress s = raise .bufferOverflow := by
  rcases doHdrRd_cases { s with nothing := false } with ⟨t, h1, -, -, hn, -⟩ | h1
  · obtain ⟨u, hf, hu, -, hd⟩ := doDecompress_header h1 hn
    rw [hd]
    exact decodeLoop_cases _ _ hf (by rw [hu]) (by rw [hu])
  · exact .inr (.inl (by rw [doDecompress, h1]; rfl))

/-- A command raises only the errors R268 lists for it. -/
theorem operation_raise {i : Instr} {s : State} {e : ErrCode} (h : operation i s = raise e) : e ∈ raisable i := by
  cases i with
  | nop => cases h
  | reset => cases h
  | rdReg r =>
    rcases bind_raise h with h | ⟨_, -, h⟩
    · simp [raisable, require_raise h]
    · split at h <;> cases h
      simp [raisable]
  | ipush b =>
    rcases bind_raise h with h | ⟨_, -, h⟩
    · simp [raisable, require_raise h]
    · cases h
  | iclr => cases h
  | ird a =>
    rcases bind_raise h with h | ⟨_, -, h⟩
    · simp [raisable, require_raise h]
    · split at h <;> cases h
      simp [raisable]
  | ord a =>
    rcases bind_raise h with h | ⟨_, -, h⟩
    · simp [raisable, require_raise h]
    · split at h <;> cases h
      simp [raisable]
  | oclr => cases h
  | o2i =>
    rcases bind_raise h with h | ⟨_, -, h⟩
    · simp [raisable, require_raise h]
    · cases h
  | freq => cases h
  | ftRd b =>
    rcases bind_raise h with h | ⟨_, -, h⟩
    · simp [raisable, require_raise h]
    · cases h
  | build =>
    rcases bind_raise h with h | ⟨_, -, h⟩
    · rcases doBuild_raise h with rfl | rfl <;> simp [raisable]
    · cases h
  | tbInit =>
    rcases bind_raise h with h | ⟨_, -, h⟩
    · rcases doTbInit_raise h with rfl | rfl <;> simp [raisable]
    · cases h
  | tbStep =>
    rcases bind_raise h with h | ⟨_, -, h⟩
    · simp [raisable, doTbStep_raise h]
    · cases h
  | pqRd k =>
    rcases bind_raise h with h | ⟨_, -, h⟩
    · simp [raisable, require_raise h]
    · split at h
      · split at h <;> cases h
      · cases h
  | ndRdLink n =>
    rcases bind_raise h with h | ⟨_, -, h⟩
    · simp [raisable, require_raise h]
    · rcases bind_raise h with h | ⟨_, -, h⟩
      · exact absurd h nodeAt_ne_raise
      · cases h
  | ndRdFlo n =>
    rcases bind_raise h with h | ⟨_, -, h⟩
    · simp [raisable, require_raise h]
    · rcases bind_raise h with h | ⟨_, -, h⟩
      · exact absurd h nodeAt_ne_raise
      · cases h
  | ndRdFhi n =>
    rcases bind_raise h with h | ⟨_, -, h⟩
    · simp [raisable, require_raise h]
    · rcases bind_raise h with h | ⟨_, -, h⟩
      · exact absurd h nodeAt_ne_raise
      · cases h
  | gencode =>
    rcases bind_raise h with h | ⟨_, -, h⟩
    · simp [raisable, doGencode_raise h]
    · cases h
  | ctLen b =>
    rcases bind_raise h with h | ⟨_, -, h⟩
    · simp [raisable, require_raise h]
    · cases h
  | ctBits b w =>
    rcases bind_raise h with h | ⟨_, -, h⟩
    · simp [raisable, require_raise h]
    · cases h
  | pkBit b =>
    rcases bind_raise h with h | ⟨_, -, h⟩
    · simp [raisable, packBit_raise h]
    · cases h
  | pkFlush =>
    rcases bind_raise h with h | ⟨_, -, h⟩
    · simp [raisable, doPkFlush_raise h]
    · cases h
  | upkSet a =>
    rcases bind_raise h with h | ⟨_, -, h⟩
    · simp [raisable, require_raise h]
    · cases h
  | upkBit =>
    rcases bind_raise h with h | ⟨_, -, h⟩
    · simp [raisable, require_raise h]
    · split at h <;> cases h
  | hdrWr =>
    rcases bind_raise h with h | ⟨_, -, h⟩
    · rcases bind_raise h with h | ⟨_, -, h⟩
      · simp [raisable, require_raise h]
      · rcases bind_raise h with h | ⟨_, -, h⟩
        · simp [raisable, require_raise h]
        · simp [raisable, outBytes_raise h]
    · cases h
  | hdrRd =>
    rcases bind_raise h with h | ⟨_, -, h⟩
    · simp [raisable, doHdrRd_raise h]
    · cases h
  | encSym b =>
    rcases bind_raise h with h | ⟨_, -, h⟩
    · rcases bind_raise h with h | ⟨_, -, h⟩
      · simp [raisable, require_raise h]
      · rcases bind_raise h with h | ⟨_, -, h⟩
        · simp [raisable, require_raise h]
        · simp [raisable, packBits_raise h]
    · cases h
  | decSym =>
    rcases bind_raise h with h | ⟨_, -, h⟩
    · simp [raisable, require_raise h]
    · simp only at h
      split at h
      · cases h
      · rcases bind_raise h with h | ⟨⟨x, u⟩, -, h⟩
        · simp [raisable, takeSymbol_raise h]
        · rcases bind_raise h with h | ⟨_, -, h⟩
          · simp [raisable, outByte_raise h]
          · cases h
  | compress =>
    rcases bind_raise h with h | ⟨_, -, h⟩
    · simp [raisable, doCompress_raise h]
    · cases h
  | decompress =>
    rcases bind_raise h with h | ⟨_, -, h⟩
    · rcases doDecompress_cases s with ⟨t, h1⟩ | h1 | h1 <;> rw [h1] at h <;> cases h <;> simp [raisable]
    · cases h

theorem ioFailure_not_raisable (i : Instr) : ErrCode.ioFailure ∉ raisable i := by
  cases i <;> simp [raisable]

/-! ## No Operation faults under the invariant -/

theorem bind_fault {α β : Type} {x : Op α} {f : α → Op β} {z : Fault} (h : (x >>= f) = .error (.fault z)) :
    x = .error (.fault z) ∨ ∃ a, x = .ok a ∧ f a = .error (.fault z) := Op.bind_error.1 h

theorem require_ne_fault {c : Bool} {e : ErrCode} {z : Fault} : require c e ≠ .error (.fault z) := by
  intro h
  have := (require_error.1 h).2
  simp at this

theorem nodeAt_ne_fault {nodes : List Node} {i : Nat} (hi : i < nodes.length) {z : Fault} :
    nodeAt nodes i ≠ .error (.fault z) := by
  simp [nodeAt, List.getElem?_eq_getElem hi]

theorem outByte_ne_fault {b : Byte} {s : State} {z : Fault} : outByte b s ≠ .error (.fault z) := by
  rw [outByte]
  split <;> simp

theorem outBytes_ne_fault {bs : List Byte} {s : State} {z : Fault} : outBytes bs s ≠ .error (.fault z) := by
  induction bs generalizing s with
  | nil => simp [outBytes]
  | cons b bs ih =>
    intro h
    rcases bind_fault h with h | ⟨t, -, h⟩
    · exact outByte_ne_fault h
    · exact ih h

theorem packBit_ne_fault {b : Bool} {s : State} {z : Fault} : packBit b s ≠ .error (.fault z) := by
  intro h
  simp only [packBit] at h
  split at h
  · rcases bind_fault h with h | ⟨t, -, h⟩
    · exact outByte_ne_fault h
    · cases h
  · cases h

theorem packBits_ne_fault {q : List Bool} {s : State} {z : Fault} : packBits q s ≠ .error (.fault z) := by
  induction q generalizing s with
  | nil => simp [packBits]
  | cons b q ih =>
    intro h
    rcases bind_fault h with h | ⟨t, -, h⟩
    · exact packBit_ne_fault h
    · exact ih h

theorem doCompress_ne_fault {s : State} {z : Fault} : doCompress s ≠ .error (.fault z) := by
  intro h
  by_cases hne : s.ibuf = []
  · rw [doCompress_empty hne] at h; cases h
  · obtain ⟨t, -, -, -, -, -, hfit, hfull⟩ := doCompress_spec hne
    by_cases hc : containerLength s.cfg s.ibuf ≤ s.cfg.obufCap
    · obtain ⟨p, h1, -⟩ := hfit hc
      rw [h1] at h; cases h
    · rw [hfull (by omega)] at h; cases h

/-- In a state that meets the invariant no command stops with the model's fault. -/
theorem operation_ne_fault {i : Instr} {s : State} (hi : s.Inv) {z : Fault} : operation i s ≠ .error (.fault z) := by
  intro h
  cases i with
  | nop => cases h
  | reset => cases h
  | rdReg r =>
    rcases bind_fault h with h | ⟨_, -, h⟩
    · exact require_ne_fault h
    · split at h <;> cases h
  | ipush b =>
    rcases bind_fault h with h | ⟨_, -, h⟩
    · exact require_ne_fault h
    · cases h
  | iclr => cases h
  | ird a =>
    rcases bind_fault h with h | ⟨_, -, h⟩
    · exact require_ne_fault h
    · split at h <;> cases h
  | ord a =>
    rcases bind_fault h with h | ⟨_, -, h⟩
    · exact require_ne_fault h
    · split at h <;> cases h
  | oclr => cases h
  | o2i =>
    rcases bind_fault h with h | ⟨_, -, h⟩
    · exact require_ne_fault h
    · cases h
  | freq => cases h
  | ftRd b =>
    rcases bind_fault h with h | ⟨_, -, h⟩
    · exact require_ne_fault h
    · cases h
  | build =>
    rcases bind_fault h with h | ⟨_, -, h⟩
    · cases hv : s.ftValid
      · rw [doBuild_noTable hv] at h; cases h
      · by_cases hn : s.nsym = 0
        · rw [doBuild_empty hv hn] at h; cases h
        · obtain ⟨t, ht, -⟩ := doBuild_completes hv (Nat.one_le_iff_ne_zero.2 hn)
          rw [ht] at h; cases h
    · cases h
  | tbInit =>
    rcases bind_fault h with h | ⟨_, -, h⟩
    · rcases doTbInit_cases s with ⟨-, -, h3⟩ | ⟨-, h3⟩ | ⟨-, -, h3⟩ <;> rw [h3] at h <;> cases h
    · cases h
  | tbStep =>
    rcases bind_fault h with h | ⟨_, -, h⟩
    · rcases doTbStep_cases hi.arena (fun hc => (hi.building hc).2.2.1) with ⟨-, h1⟩ | ⟨-, a, b, -, h1⟩ <;> rw [h1] at h <;>
        cases h
    · cases h
  | pqRd k =>
    rcases bind_fault h with h | ⟨_, hr, h⟩
    · exact require_ne_fault h
    · have hk : k.toNat < s.inq.length := of_decide_eq_true (require_ok.1 hr)
      obtain ⟨m, hm, -⟩ := memberOfRank_exists s.nodes hi.arena.nodup hk
      rw [if_pos hi.arena.queueBacked] at h
      simp only [operand, hm] at h
      cases h
  | ndRdLink n =>
    rcases bind_fault h with h | ⟨_, hr, h⟩
    · exact require_ne_fault h
    · rcases bind_fault h with h | ⟨_, -, h⟩
      · exact nodeAt_ne_fault (of_decide_eq_true (require_ok.1 hr)) h
      · cases h
  | ndRdFlo n =>
    rcases bind_fault h with h | ⟨_, hr, h⟩
    · exact require_ne_fault h
    · rcases bind_fault h with h | ⟨_, -, h⟩
      · exact nodeAt_ne_fault (of_decide_eq_true (require_ok.1 hr)) h
      · cases h
  | ndRdFhi n =>
    rcases bind_fault h with h | ⟨_, hr, h⟩
    · exact require_ne_fault h
    · rcases bind_fault h with h | ⟨_, -, h⟩
      · exact nodeAt_ne_fault (of_decide_eq_true (require_ok.1 hr)) h
      · cases h
  | gencode =>
    rcases bind_fault h with h | ⟨_, -, h⟩
    · cases hv : s.treeValid
      · have : doGencode s = raise .sequenceError := by simp [doGencode, requireTree, require, hv]; rfl
        rw [this] at h; cases h
      · rw [(hi.finished hv).gencode hv] at h; cases h
    · cases h
  | ctLen b =>
    rcases bind_fault h with h | ⟨_, -, h⟩
    · exact require_ne_fault h
    · cases h
  | ctBits b w =>
    rcases bind_fault h with h | ⟨_, -, h⟩
    · exact require_ne_fault h
    · cases h
  | pkBit b =>
    rcases bind_fault h with h | ⟨_, -, h⟩
    · exact packBit_ne_fault h
    · cases h
  | pkFlush =>
    rcases bind_fault h with h | ⟨_, -, h⟩
    · rw [doPkFlush] at h
      split at h
      · cases h
      · rcases bind_fault h with h | ⟨_, -, h⟩
        · exact outByte_ne_fault h
        · cases h
    · cases h
  | upkSet a =>
    rcases bind_fault h with h | ⟨_, -, h⟩
    · exact require_ne_fault h
    · cases h
  | upkBit =>
    rcases bind_fault h with h | ⟨_, -, h⟩
    · exact require_ne_fault h
    · split at h <;> cases h
  | hdrWr =>
    rcases bind_fault h with h | ⟨_, -, h⟩
    · rcases bind_fault h with h | ⟨_, -, h⟩
      · exact require_ne_fault h
      · rcases bind_fault h with h | ⟨_, -, h⟩
        · exact require_ne_fault h
        · exact outBytes_ne_fault h
    · cases h
  | hdrRd =>
    rcases bind_fault h with h | ⟨_, -, h⟩
    · rcases doHdrRd_cases s with ⟨t, h1, -⟩ | h1 <;> rw [h1] at h <;> cases h
    · cases h
  | encSym b =>
    rcases bind_fault h with h | ⟨_, -, h⟩
    · rcases bind_fault h with h | ⟨_, -, h⟩
      · exact require_ne_fault h
      · rcases bind_fault h with h | ⟨_, -, h⟩
        · exact require_ne_fault h
        · exact packBits_ne_fault h
    · cases h
  | decSym =>
    have h' : opDecSym s = .error (.fault z) := h
    rcases opDecSym_cases (s := s) hi.arena.descending (fun hv => (hi.finished hv).root_lt) with h1 | h1 | h1
    · rw [h1] at h'; cases h'
    · obtain ⟨-, -, -, b, k, -, -, h1⟩ := h1
      rw [h1] at h'; cases h'
    · obtain ⟨e, -, h1⟩ := h1
      rw [h1] at h'; cases h'
  | compress =>
    rcases bind_fault h with h | ⟨_, -, h⟩
    · exact doCompress_ne_fault h
    · cases h
  | decompress =>
    rcases bind_fault h with h | ⟨_, -, h⟩
    · rcases doDecompress_cases s with ⟨t, h1⟩ | h1 | h1 <;> rw [h1] at h <;> cases h
    · cases h

/-! ## Every Operation keeps the invariant -/

/-- An Operation that completes outside the error state keeps the invariant. -/
theorem operation_keeps {i : Instr} {s t : State} {v : Word} (h : s.Inv) (he : s.err = none)
    (ht : operation i s = .ok (t, v)) : t.Inv := by
  obtain ⟨hs, hg⟩ := (inv_iff s).1 h
  cases i with
  | nop => cases ht; exact h
  | reset => cases ht; exact inv_resetBlock h.bounded
  | rdReg r => rw [opRdReg_frame ht]; exact h
  | ipush b =>
    obtain ⟨_, hr, ht⟩ := Op.bind_ok.1 ht
    cases ht
    have hlt : s.ilen < s.cfg.ibufCap := of_decide_eq_true (require_ok.1 hr)
    refine (inv_iff _).2 ⟨hs.congr rfl rfl rfl rfl rfl rfl rfl rfl rfl rfl rfl, hg.bounded, ?_, hg.output, fun hc => ?_,
      hg.noCursor, hg.emittedBits, hg.packer, fun hc => absurd he hc, hg.noError, hg.noIoFailure⟩
    · simp only [State.ilen] at hlt
      simpa [State.ilen] using hlt
    · obtain ⟨h1, h2⟩ := hg.cursor hc
      simp only [State.ilen, List.length_append, List.length_singleton] at h1 h2 ⊢
      exact ⟨by omega, by omega⟩
  | iclr =>
    cases ht
    refine (inv_iff _).2 ⟨hs.congr rfl rfl rfl rfl rfl rfl rfl rfl rfl rfl rfl, hg.bounded, Nat.zero_le _, hg.output,
      fun hc => (by cases hc), fun _ => ⟨rfl, rfl, rfl⟩, Nat.le_refl _, hg.packer, fun hc => absurd he hc, hg.noError,
      hg.noIoFailure⟩
  | ird a => rw [opIrd_frame ht]; exact h
  | ord a => rw [opOrd_frame ht]; exact h
  | oclr =>
    cases ht
    refine (inv_iff _).2 ⟨hs.congr rfl rfl rfl rfl rfl rfl rfl rfl rfl rfl rfl, hg.bounded, hg.input, Nat.zero_le _,
      hg.cursor, hg.noCursor, hg.emittedBits, hg.packer, fun hc => absurd he hc, hg.noError, hg.noIoFailure⟩
  | o2i =>
    obtain ⟨_, hr, ht⟩ := Op.bind_ok.1 ht
    cases ht
    refine (inv_iff _).2 ⟨hs.congr rfl rfl rfl rfl rfl rfl rfl rfl rfl rfl rfl, hg.bounded,
      of_decide_eq_true (require_ok.1 hr), Nat.zero_le _, fun hc => (by cases hc), fun _ => ⟨rfl, rfl, rfl⟩, Nat.le_refl _,
      hg.packer, fun hc => absurd he hc, hg.noError, hg.noIoFailure⟩
  | freq =>
    cases ht
    exact (inv_iff _).2 ⟨stages_withTable hs (countBytes_wf s.ibuf) (counts_of_input hg),
      hg.congr he rfl rfl rfl rfl rfl rfl rfl rfl rfl rfl rfl⟩
  | ftRd b => rw [opFtRd_frame ht]; exact h
  | build =>
    obtain ⟨u, hu, ht⟩ := Op.bind_ok.1 ht
    cases ht
    exact (inv_iff _).2 ⟨stages_build hs hu, build_edges hg he hu⟩
  | tbInit =>
    obtain ⟨u, hu, ht⟩ := Op.bind_ok.1 ht
    cases ht
    obtain ⟨hv, hn, rfl⟩ := doTbInit_ok hu
    have e := tbInitState_frame s
    exact (inv_iff _).2 ⟨stages_tbInit hs hv hn, hg.congr he (by rw [e]) (by rw [e]) (by rw [e]) (by rw [e]) (by rw [e])
      (by rw [e]) (by rw [e]) (by rw [e]) (by rw [e]) (by rw [e]) (by rw [e])⟩
  | tbStep =>
    obtain ⟨u, hu, ht⟩ := Op.bind_ok.1 ht
    cases ht
    rcases doTbStep_cases h.arena (fun hc => (h.building hc).2.2.1) with ⟨-, h1⟩ | ⟨hact, a, b, hm, h1⟩
    · rw [h1] at hu; cases hu
    · rw [h1] at hu; cases hu
      have e := mergeState_frame s a b
      have hb := h.inProgress hact
      have hcv : s.ctValid = false := by
        cases hc : s.ctValid
        · rfl
        · have := (h.coded hc).1
          have h2 := (h.building hact).2.1
          rw [h2] at this; cases this
      exact (inv_iff _).2 ⟨stages_merge hs hb (hb.active.1 hact) hm hcv, hg.congr he (by rw [e]) (by rw [e]) (by rw [e])
        (by rw [e]) (by rw [e]) (by rw [e]) (by rw [e]) (by rw [e]) (by rw [e]) (by rw [e]) (by rw [e])⟩
  | pqRd k => rw [opPqRd_frame ht]; exact h
  | ndRdLink n => rw [opNdRdLink_frame ht]; exact h
  | ndRdFlo n => rw [opNdRdFlo_frame ht]; exact h
  | ndRdFhi n => rw [opNdRdFhi_frame ht]; exact h
  | gencode =>
    obtain ⟨u, hu, ht⟩ := Op.bind_ok.1 ht
    cases ht
    obtain ⟨-, ct, e⟩ := doGencode_frame hu
    exact (inv_iff _).2 ⟨stages_gencode hs hu, hg.congr he (by rw [e]) (by rw [e]) (by rw [e])
        (by rw [e]) (by rw [e]) (by rw [e]) (by rw [e]) (by rw [e]) (by rw [e]) (by rw [e]) (by rw [e])⟩
  | ctLen b => rw [opCtLen_frame ht]; exact h
  | ctBits b w => rw [opCtBits_frame ht]; exact h
  | pkBit b =>
    obtain ⟨u, hu, ht⟩ := Op.bind_ok.1 ht
    cases ht
    refine (inv_iff _).2 ⟨?_, edges_packBit hg he hu⟩
    obtain ⟨_, _, _, rfl⟩ := packBit_frame hu
    exact hs.congr rfl rfl rfl rfl rfl rfl rfl rfl rfl rfl rfl
  | pkFlush =>
    obtain ⟨u, hu, ht⟩ := Op.bind_ok.1 ht
    cases ht
    refine (inv_iff _).2 ⟨?_, edges_flush hg he hu⟩
    obtain ⟨_, _, _, rfl⟩ := doPkFlush_frame hu
    exact hs.congr rfl rfl rfl rfl rfl rfl rfl rfl rfl rfl rfl
  | upkSet a =>
    obtain ⟨_, hr, ht⟩ := Op.bind_ok.1 ht
    cases ht
    exact (inv_iff _).2 ⟨hs.congr rfl rfl rfl rfl rfl rfl rfl rfl rfl rfl rfl,
      edges_setCursor hg he (of_decide_eq_true (require_ok.1 hr))⟩
  | upkBit =>
    obtain ⟨_, hr, ht⟩ := Op.bind_ok.1 ht
    split at ht
    · cases ht; exact h
    · rename_i hleft
      cases ht
      obtain ⟨h1, h2⟩ := hg.cursor (require_ok.1 hr)
      have h3 := hg.emittedBits
      simp only [State.bitsLeft] at hleft
      refine (inv_iff _).2 ⟨hs.congr rfl rfl rfl rfl rfl rfl rfl rfl rfl rfl rfl, hg.bounded, hg.input, hg.output,
        fun _ => ⟨h1, ?_⟩, fun hc => absurd (hc.symm.trans (require_ok.1 hr)) (by simp), ?_, hg.packer,
        fun hc => absurd he hc, hg.noError, hg.noIoFailure⟩
      · simp only [nextBit, State.ilen] at hleft ⊢; omega
      · simp only [nextBit]; omega
  | hdrWr =>
    obtain ⟨u, hu, ht⟩ := Op.bind_ok.1 ht
    cases ht
    refine (inv_iff _).2 ⟨?_, edges_hdrWr hg he hu⟩
    rw [doHdrWr_frame hu]
    exact hs.congr rfl rfl rfl rfl rfl rfl rfl rfl rfl rfl rfl
  | hdrRd =>
    obtain ⟨u, hu, ht⟩ := Op.bind_ok.1 ht
    cases ht
    exact (inv_iff _).2 (hdrRd_keeps hs hg he hu)
  | encSym b =>
    obtain ⟨u, hu, ht⟩ := Op.bind_ok.1 ht
    cases ht
    refine (inv_iff _).2 ⟨?_, edges_encSym hg he hu⟩
    obtain ⟨_, _, _, rfl⟩ := doEncSym_frame hu
    exact hs.congr rfl rfl rfl rfl rfl rfl rfl rfl rfl rfl rfl
  | decSym => exact (inv_iff _).2 ⟨stages_decSym hs ht, edges_decSym hg hs he ht⟩
  | compress =>
    obtain ⟨u, hu, ht⟩ := Op.bind_ok.1 ht
    cases ht
    exact compress_keeps h he hu
  | decompress =>
    obtain ⟨u, hu, ht⟩ := Op.bind_ok.1 ht
    cases ht
    exact decompress_keeps h he hu

/-! ## Every command, also in the error state -/

/-- A command that gives a next state keeps the invariant. -/
theorem exec_keeps {i : Instr} {s t : State} (h : s.Inv) (ht : exec i s = .next t) : t.Inv := by
  have hio : ∀ e, operation i s = raise e → e ≠ .ioFailure :=
    fun e h1 hc => ioFailure_not_raisable i (hc ▸ operation_raise h1)
  cases he : s.err with
  | none =>
    rcases exec_next he ht with ⟨u, v, h1, rfl⟩ | ⟨e, h1, rfl⟩
    · exact inv_respond (operation_keeps h he h1) _ _
    · exact inv_errorEntry h.bounded _ _ (hio e h1)
  | some e =>
    by_cases hr : runsInErrorState i = true
    · rw [exec_eq, hr] at ht
      simp only [if_true, runAlways] at ht
      rcases conclude_next ht with ⟨u, v, h1, rfl⟩ | ⟨e, h1, rfl⟩
      · refine inv_respond ?_ _ _
        cases i <;> simp [runsInErrorState] at hr
        · cases h1; exact h
        · cases h1; exact inv_resetBlock h.bounded
        · rw [opRdReg_frame h1]; exact h
      · exact inv_errorEntry h.bounded _ _ (hio e h1)
    · rw [exec_gated he (by simpa using hr)] at ht
      cases ht; exact inv_respond h _ _

/-- In a state that meets the invariant every command gives a next state. -/
theorem exec_total {i : Instr} {s : State} (h : s.Inv) : ∃ t, exec i s = .next t := by
  have key : ∃ t, conclude (encode i) s (operation i s) = .next t := by
    match ho : operation i s with
    | .ok (u, v) => exact ⟨_, rfl⟩
    | .error (.raise e) => exact ⟨_, rfl⟩
    | .error (.fault f) => exact absurd ho (operation_ne_fault h)
  rw [exec_eq]
  split
  · exact key
  · rw [runGated]
    split
    · exact key
    · exact ⟨_, rfl⟩

/-- A sequence of commands keeps the invariant. -/
theorem runCommands_keeps {is : List Instr} {s t : State} (h : s.Inv) (ht : runCommands is s = some t) : t.Inv := by
  induction is generalizing s with
  | nil => cases ht; exact h
  | cons i is ih =>
    rw [runCommands] at ht
    split at ht
    · rename_i u hu
      exact ih (exec_keeps h hu) ht
    · cases ht

end Sys2Proof.Machine
end

