-- ==== Sys2Proof/Laws/Pairs.lean ====
section
/-! SUPPORT. The pairs of a header in any order: their bytes by offset, what parsing makes of them and when it refuses them
(45_container.md R220 to R229). -/

namespace Sys2Proof.Machine
open Sys2Proof

/-- A canonical table is determined by its entries, whatever their order. -/
theorem tableOfPairs_perm {es : List (Byte × Nat)} (hnd : (es.map (·.1)).Nodup) : (tableOfPairs es []).Perm es := by
  have hw := tableOfPairs_wf es [] rfl
  have h1 : (tableOfPairs es []).Nodup := List.Nodup.of_map _ (Table.keys_nodup hw)
  rw [List.perm_ext_iff_of_nodup h1 (List.Nodup.of_map _ hnd)]
  rintro ⟨k, c⟩
  rw [← Table.find_iff_mem hw, tableOfPairs_find es [] hnd]
  have hor : (Table.find es k).or (Table.find ([] : Table Nat) k) = Table.find es k := by
    simp [Table.find]
  rw [hor]
  constructor
  · exact Table.mem_of_find
  · clear hor h1 hw
    induction es with
    | nil => simp
    | cons e es ih =>
      rw [List.map_cons, List.nodup_cons] at hnd
      intro hm
      obtain ⟨k', c'⟩ := e
      rw [Table.find_cons]
      rcases List.mem_cons.1 hm with h | h
      · cases h; simp
      · have hne : k' ≠ k := fun hc => hnd.1 (hc ▸ List.mem_map.2 ⟨_, h, rfl⟩)
        simp [hne, ih hnd.2 h]

theorem Table.eq_of_perm {α : Type} {t u : Table α} (ht : Table.wf t = true) (hu : Table.wf u = true) (h : t.Perm u) :
    t = u := by
  apply Table.ext_find ht hu
  intro k
  apply Option.ext
  intro v
  exact (Table.find_iff_mem ht).trans (h.mem_iff.trans (Table.find_iff_mem hu).symm)

/-- Parsing raises `CORRUPT_CONTAINER` at a count with bit 31 set and at a symbol listed already (R227 (3), (4)). -/
theorem parsePairs_bad (o : ByteOrder) : ∀ (es : List (Byte × Nat)) (t : Table Nat) (rest : List Byte),
    (∀ e ∈ es, e.2 < 2 ^ 32) →
    ((∃ e ∈ es, 2 ^ 31 ≤ e.2) ∨ ¬ (es.map (·.1)).Nodup ∨ ∃ e ∈ es, t.find e.1 ≠ none) →
    parsePairs o es.length (pairBytes o es ++ rest) t = raise .corruptContainer := by
  intro es
  induction es with
  | nil => intro t rest _ h; simp at h
  | cons e es ih =>
    intro t rest hc hbad
    obtain ⟨b, c⟩ := e
    obtain ⟨b0, b1, b2, b3, hbytes, hword⟩ := countBytesOf_eq o c
    have hsplit : pairBytes o ((b, c) :: es) ++ rest = b :: b0 :: b1 :: b2 :: b3 :: (pairBytes o es ++ rest) := by
      simp [pairBytes, hbytes]
    rw [hsplit, List.length_cons, parsePairs]
    by_cases hc31 : c < 2 ^ 31
    · have hcb := word_of_count hc31
      cases hf : t.find b with
      | some v =>
        simp only [hword, hcb.1, require, Bool.not_false, if_true, Option.isNone_some, Bool.false_eq_true, if_false,
          bind, Except.bind]
      | none =>
        simp only [hword, hcb.1, hcb.2, require, Bool.not_false, if_true, Option.isNone_none, bind, Except.bind]
        apply ih
        · exact fun e he => hc e (List.mem_cons_of_mem _ he)
        · rcases hbad with ⟨e, he, h31⟩ | hnd | ⟨e, he, hfe⟩
          · rcases List.mem_cons.1 he with rfl | he
            · exact absurd hc31 (Nat.not_lt.2 h31)
            · exact .inl ⟨e, he, h31⟩
          · rw [List.map_cons, List.nodup_cons, not_and_or, not_not] at hnd
            rcases hnd with hnd | hnd
            · obtain ⟨e, he, rfl⟩ := List.mem_map.1 hnd
              exact .inr (.inr ⟨e, he, by rw [Table.find_put_same]; simp⟩)
            · exact .inr (.inl hnd)
          · rcases List.mem_cons.1 he with rfl | he
            · exact absurd hf hfe
            · by_cases hb : e.1 = b
              · exact .inr (.inr ⟨e, he, by rw [hb, Table.find_put_same]; simp⟩)
              · exact .inr (.inr ⟨e, he, by rw [Table.find_put_other _ _ hb]; exact hfe⟩)
    · have h31 : (word c).getLsbD 31 = true := by
        have h32 := hc (b, c) List.mem_cons_self
        rw [BitVec.getLsbD_ofNat]
        have : c / 2 ^ 31 = 1 := by simp only at h32; omega
        simp [Nat.testBit, Nat.shiftRight_eq_div_pow]
        omega
      simp only [hword, h31, require, Bool.not_true, Bool.false_eq_true, if_false, bind, Except.bind]

/-- All that `HDR_RD` does with the header of some pairs (R227). -/
theorem doHdrRd_pairs {s : State} {es : List (Byte × Nat)} {payload : List Byte} (hn : 1 ≤ es.length) (hn2 : es.length ≤ 256)
    (hb : s.ibuf = headerBytes s.cfg.byteOrder es ++ payload) :
    doHdrRd s = (parsePairs s.cfg.byteOrder es.length (pairBytes s.cfg.byteOrder es ++ payload) [] >>= fun t =>
      require (payload ≠ []) .corruptContainer >>= fun _ => .ok ((s.withTable t).setCursor (headerLength es.length))) := by
  have hann := pairsAnnounced_sizeByte hn hn2
  have hlen : s.ilen = headerLength es.length + payload.length := by
    rw [State.ilen, hb, List.length_append, headerBytes_length]
  have hreq : (decide (headerLength es.length < s.ilen)) = decide (payload ≠ []) := by
    rw [Bool.eq_iff_iff, decide_eq_true_iff, decide_eq_true_iff, ← List.length_pos_iff, hlen]
    omega
  simp only [doHdrRd, hb, headerBytes, List.cons_append, hann, hreq]
  rw [require_true (by simp [hlen]), Op.ok_bind]

/-! ## The bytes of a header, by offset (R220 to R223) -/

theorem pairBytes_getElem? (o : ByteOrder) (es : List (Byte × Nat)) : ∀ (i : Nat) (e : Byte × Nat), es[i]? = some e → ∀ j < 5,
    (pairBytes o es)[5 * i + j]? = (e.1 :: countBytesOf o e.2)[j]? := by
  induction es with
  | nil => intro i e h; simp at h
  | cons x es ih =>
    intro i e h j hj
    have hx : (x.1 :: countBytesOf o x.2).length = 5 := by simp [countBytesOf_length]
    have hcons : pairBytes o (x :: es) = (x.1 :: countBytesOf o x.2) ++ pairBytes o es := by simp [pairBytes]
    rw [hcons]
    cases i with
    | zero =>
      simp only [List.getElem?_cons_zero, Option.some.injEq] at h
      subst h
      rw [List.getElem?_append_left (by rw [hx]; omega)]
      simp
    | succ i =>
      rw [List.getElem?_append_right (by rw [hx]; omega), hx]
      simp only [List.getElem?_cons_succ] at h
      rw [show 5 * (i + 1) + j - 5 = 5 * i + j by omega]
      exact ih i e h j hj

theorem countBytesOf_getElem? (o : ByteOrder) {c : Nat} (hc : c < 2 ^ 32) {j : Nat} (hj : j < 4) :
    (countBytesOf o c)[j]? = some (BitVec.ofNat 8 (c / 256 ^ (match o with | .little => j | .big => 3 - j))) := by
  have key : ∀ k, (word c).extractLsb' (8 * k) 8 = BitVec.ofNat 8 (c / 256 ^ k) := by
    intro k
    apply BitVec.eq_of_toNat_eq
    rw [BitVec.extractLsb'_toNat, BitVec.toNat_ofNat, BitVec.toNat_ofNat, Nat.mod_eq_of_lt hc, Nat.shiftRight_eq_div_pow,
      Nat.pow_mul]
  have h : j = 0 ∨ j = 1 ∨ j = 2 ∨ j = 3 := by omega
  cases o <;> rcases h with rfl | rfl | rfl | rfl
  · simpa [countBytesOf] using key 0
  · simpa [countBytesOf] using key 1
  · simpa [countBytesOf] using key 2
  · simpa [countBytesOf] using key 3
  · simpa [countBytesOf] using key 3
  · simpa [countBytesOf] using key 2
  · simpa [countBytesOf] using key 1
  · simpa [countBytesOf] using key 0
/-! ## `DECOMPRESS` of pairs in any order (R248) -/

/-- The symbols of pairs that list a canonical table are all different. -/
theorem keys_nodup_of_perm {t : Table Nat} {ps : List (Byte × Nat)} (hw : Table.wf t = true) (hp : t.Perm ps) :
    (ps.map (·.1)).Nodup :=
  ((hp.map _).nodup_iff).1 (Table.keys_nodup hw)

/-- Each symbol's code takes at least one bit. -/
theorem length_le_codes {xs : List Byte} {code : Byte → List Bool} (h : ∀ x ∈ xs, 1 ≤ (code x).length) :
    xs.length ≤ (xs.flatMap code).length := by
  induction xs with
  | nil => simp
  | cons x xs ih =>
    have := ih (fun y hy => h y (List.mem_cons_of_mem _ hy))
    have := h x List.mem_cons_self
    simp only [List.length_cons, List.flatMap_cons, List.length_append]
    omega

/-- `DECOMPRESS` of a header of some pairs and a payload that starts with the codes of the symbols `xs`: where it stands after
those symbols (R248). -/
theorem doDecompress_symbols {s : State} {t : Table Nat} {ps : List (Byte × Nat)} {payload xs : List Byte}
    {rest : List Bool} (hib : s.ibuf = headerBytes s.cfg.byteOrder ps ++ payload) (hn : 1 ≤ ps.length)
    (hn2 : ps.length ≤ 256) (hcnt : ∀ e ∈ ps, e.2 < 2 ^ 31) (hpay : payload ≠ []) (hw : Table.wf t = true)
    (hperm : t.Perm ps) (hpres : ∀ x ∈ xs, (t.find x).isSome = true)
    (hbits : bitsOf payload = xs.flatMap (fun x => ((codeTableOf s.cfg t).find x).getD []) ++ rest)
    (hlen : xs.length ≤ (ps.map (·.2)).sum) (hcap : xs.length ≤ s.cfg.obufCap) : ∃ u : State, Finished u ∧
    u = { s with nothing := false, ft := t, ftValid := true, tbActive := false, treeValid := true, ctValid := false,
                 rpos := 1 + 5 * ps.length, bpos := 0, emitted := 0, curValid := true, obuf := [], nodes := u.nodes,
                 inq := u.inq, root := u.root, total := u.total } ∧
    u.total = (ps.map (·.2)).sum ∧ codeTableOf s.cfg t = codesOf u ∧
    doDecompress s = decodeLoop (u.bitsLeft - xs.length)
      (decodedAll u xs (xs.flatMap (fun x => ((codeTableOf s.cfg t).find x).getD [])).length) ∧
    u.payloadBits = bitsOf payload := by
  have hnd := keys_nodup_of_perm hw hperm
  have htab : tableOfPairs ps [] = t :=
    Table.eq_of_perm (tableOfPairs_wf _ _ rfl) hw ((tableOfPairs_perm hnd).trans hperm.symm)
  have hr : doHdrRd { s with nothing := false } =
      .ok (({ s with nothing := false } : State).withTable t |>.setCursor (1 + 5 * ps.length)) := by
    rw [doHdrRd_pairs (s := { s with nothing := false }) hn hn2 hib]
    simp only
    rw [parsePairs_pairBytes _ ps [] payload hcnt hnd (fun _ _ => rfl), Op.ok_bind, require_true (by simp [hpay]),
      Op.ok_bind, htab]
    rfl
  obtain ⟨u, hf, hu, hct, hd⟩ := doDecompress_header hr (by rw [hperm.length_eq]; exact hn)
  have hpb : u.payloadBits = bitsOf payload := by
    have e1 : u.ibuf = s.ibuf := by rw [hu]
    have e2 : u.rpos = 1 + 5 * ps.length := by rw [hu]
    rw [State.payloadBits, e1, e2, hib]
    congr 1
    exact List.drop_left' (by rw [headerBytes_length]; rfl)
  have hft : u.ft = t := by rw [hu]
  have htot : u.total = (ps.map (·.2)).sum := by
    rw [hf.sum, hft, countSum]; exact (hperm.map _).sum_eq
  have hbp : u.bpos = 0 := by rw [hu]
  have hem : u.emitted = 0 := by rw [hu]
  have hol : u.olen = 0 := by rw [State.olen, hu]; rfl
  have hcf : u.cfg = s.cfg := by rw [hu]
  have hw' : Table.wf u.ft = true := by rw [hft]; exact hw
  have hcode : ∀ x ∈ xs, ∃ q, (codesOf u).find x = some q := by
    intro x hx
    rw [← Option.isSome_iff_exists, hf.codes_present hw', State.ftv, hft]; exact hpres x hx
  refine ⟨u, hf, hu, htot, hct, ?_, hpb⟩
  rw [hd]
  refine decodeLoop_symbols xs _ u (fun x => ((codeTableOf s.cfg t).find x).getD []) rest hf (by rw [hu]) (by rw [hu]) ?_ ?_ ?_ ?_ ?_
  · intro x hx
    obtain ⟨q, hq⟩ := hcode x hx
    rw [hct, hq]; exact (hf.codes_find hw' x q).1 hq
  · rw [hpb, hbp, List.drop_zero, hbits]
  · omega
  · rw [hcf]; omega
  · rw [bitsLeft_eq, hpb, hbp, List.drop_zero, hbits, List.length_append]
    have := length_le_codes (xs := xs) (code := fun x => ((codeTableOf s.cfg t).find x).getD []) (by
      intro x hx
      obtain ⟨q, hq⟩ := hcode x hx
      simp only [hct, hq]
      exact (hf.code_length hw' _ (Table.mem_of_find hq)).1)
    omega

end Sys2Proof.Machine
end

