-- ==== Sys2Proof/Laws/PerInstr.lean ====
section
/-! SUPPORT. One lemma for each command: the encoder's word selects the command's row of the opcode map of R104. -/

namespace Sys2Proof.Laws.Row

open Sys2Proof

/-- The row of R104 with the command's mnemonic selects the command's word. -/
def Statement (i : Instr) : Prop := ∃ r ∈ opcodeMap, r.mnemonic = i.mnemonic ∧ r.selects (encode i) = true

/-- A row at a given place of the map selects a word whose fixed bits are the row's pattern. -/
theorem of_row {i : Instr} (k : Nat) (r : Row) (hr : opcodeMap[k]? = some r) (hm : r.mnemonic = i.mnemonic)
    (hw : encode i &&& r.format.mask = r.pattern) : Statement i :=
  ⟨r, List.mem_of_getElem? hr, hm, by simp [Row.selects, hw]⟩

theorem nop : Statement .nop := of_row 0 _ rfl rfl (masked_c0 0x00#8)

theorem reset : Statement .reset := of_row 1 _ rfl rfl (masked_c0 0x01#8)

theorem rdReg (r : BitVec 8) : Statement (.rdReg r) := of_row 2 _ rfl rfl (masked_c8 0x02#8 r)

theorem ipush (b : BitVec 8) : Statement (.ipush b) := of_row 3 _ rfl rfl (masked_c8 0x03#8 b)

theorem iclr : Statement .iclr := of_row 4 _ rfl rfl (masked_c0 0x04#8)

theorem ird (a : BitVec 24) : Statement (.ird a) := of_row 5 _ rfl rfl (masked_c24 0x05#8 a)

theorem ord (a : BitVec 24) : Statement (.ord a) := of_row 6 _ rfl rfl (masked_c24 0x06#8 a)

theorem oclr : Statement .oclr := of_row 7 _ rfl rfl (masked_c0 0x07#8)

theorem o2i : Statement .o2i := of_row 8 _ rfl rfl (masked_c0 0x08#8)

theorem freq : Statement .freq := of_row 9 _ rfl rfl (masked_c0 0x10#8)

theorem ftRd (s : BitVec 8) : Statement (.ftRd s) := of_row 10 _ rfl rfl (masked_c8 0x11#8 s)

theorem build : Statement .build := of_row 11 _ rfl rfl (masked_c0 0x20#8)

theorem tbInit : Statement .tbInit := of_row 12 _ rfl rfl (masked_c0 0x21#8)

theorem tbStep : Statement .tbStep := of_row 13 _ rfl rfl (masked_c0 0x22#8)

theorem pqRd (k : BitVec 8) : Statement (.pqRd k) := of_row 14 _ rfl rfl (masked_c8 0x23#8 k)

theorem ndRdLink (i : BitVec 9) : Statement (.ndRdLink i) := of_row 15 _ rfl rfl (masked_c9 0x24#8 i)

theorem ndRdFlo (i : BitVec 9) : Statement (.ndRdFlo i) := of_row 16 _ rfl rfl (masked_c9 0x25#8 i)

theorem ndRdFhi (i : BitVec 9) : Statement (.ndRdFhi i) := of_row 17 _ rfl rfl (masked_c9 0x26#8 i)

theorem gencode : Statement .gencode := of_row 18 _ rfl rfl (masked_c0 0x30#8)

theorem ctLen (s : BitVec 8) : Statement (.ctLen s) := of_row 19 _ rfl rfl (masked_c8 0x31#8 s)

theorem ctBits (s : BitVec 8) (w : BitVec 3) : Statement (.ctBits s w) := of_row 20 _ rfl rfl (masked_c11 0x32#8 s w)

theorem pkBit (b : BitVec 1) : Statement (.pkBit b) := of_row 21 _ rfl rfl (masked_c1 0x40#8 b)

theorem pkFlush : Statement .pkFlush := of_row 22 _ rfl rfl (masked_c0 0x41#8)

theorem upkSet (a : BitVec 24) : Statement (.upkSet a) := of_row 23 _ rfl rfl (masked_c24 0x42#8 a)

theorem upkBit : Statement .upkBit := of_row 24 _ rfl rfl (masked_c0 0x43#8)

theorem hdrWr : Statement .hdrWr := of_row 25 _ rfl rfl (masked_c0 0x50#8)

theorem hdrRd : Statement .hdrRd := of_row 26 _ rfl rfl (masked_c0 0x51#8)

theorem encSym (s : BitVec 8) : Statement (.encSym s) := of_row 27 _ rfl rfl (masked_c8 0x60#8 s)

theorem decSym : Statement .decSym := of_row 28 _ rfl rfl (masked_c0 0x61#8)

theorem compress : Statement .compress := of_row 29 _ rfl rfl (masked_c0 0x62#8)

theorem decompress : Statement .decompress := of_row 30 _ rfl rfl (masked_c0 0x63#8)

end Sys2Proof.Laws.Row
end

