-- ==== Sys2Proof/Laws/Runs.lean ====
section
/-! SUPPORT. What sequences of one command do (20_memory.md R83): pushing an input, packing and unpacking bit by bit, building
step by step, encoding symbol by symbol. -/

namespace Sys2Proof.Machine
open Sys2Proof

/-- `IPUSH` of each byte of a sequence that fits appends the sequence (R134). -/
theorem run_ipush : ∀ (bytes : List Byte) (s : State), s.err = none → s.ilen + bytes.length ≤ s.cfg.ibufCap →
    ∃ r, runCommands (bytes.map .ipush) s = some { s with ibuf := s.ibuf ++ bytes, resps := r } := by
  intro bytes
  induction bytes with
  | nil => intro s _ _; exact ⟨s.resps, by simp [runCommands]⟩
  | cons b bytes ih =>
    intro s he h
    simp only [List.length_cons] at h
    have h1 : exec (.ipush b) s = .next (State.respond { s with ibuf := s.ibuf ++ [b] } false (word (s.ilen + 1))) := by
      refine exec_of_ok he ?_
      simp only [operation, opIpush]
      rw [require_true (by simp; omega), Op.ok_bind]
      simp [State.ilen]
    rw [List.map_cons, runCommands_cons h1]
    obtain ⟨r, hr⟩ := ih (State.respond { s with ibuf := s.ibuf ++ [b] } false (word (s.ilen + 1))) he (by
      simp [State.respond, State.ilen] at h ⊢; omega)
    refine ⟨r, ?_⟩
    rw [hr]
    simp [State.respond]

/-- An Operation on the packer does not look at the responses. -/
theorem packBits_resps (q : List Bool) (s : State) (r : List Response) :
    packBits q { s with resps := r } = (packBits q s).map (fun t => { t with resps := r }) := by
  induction q generalizing s with
  | nil => rfl
  | cons b q ih =>
    have h1 : packBit b { s with resps := r } = (packBit b s).map (fun t => { t with resps := r }) := by
      simp only [packBit, outByte, State.olen]
      by_cases h7 : s.nacc = 7
      · by_cases hroom : s.obuf.length < s.cfg.obufCap
        · simp [h7, hroom, bind, Except.bind, Except.map]
        · simp [h7, hroom, bind, Except.bind, Except.map]
      · simp [h7, Except.map]
    rw [packBits, packBits, h1]
    cases packBit b s with
    | error e => rfl
    | ok t => exact ih t

/-- `PK_BIT` of each bit of a sequence is packing the sequence (R202). -/
theorem run_pkBit : ∀ (q : List Bool) (s t : State), s.err = none → packBits q s = .ok t →
    ∃ r, runCommands (q.map (fun b => .pkBit (if b then 1#1 else 0#1))) s = some { t with resps := r } := by
  intro q
  induction q with
  | nil => intro s t _ h; cases h; exact ⟨s.resps, rfl⟩
  | cons b q ih =>
    intro s t he h
    obtain ⟨u, hu, h⟩ := Op.bind_ok.1 h
    have h1 : exec (.pkBit (if b then 1#1 else 0#1)) s = .next (u.respond false (lowField 3 u.nacc)) := by
      refine exec_of_ok he ?_
      have hb : operandBit (if b then 1#1 else 0#1) = b := by cases b <;> rfl
      simp only [operation, opPkBit, hb, hu, Op.ok_bind]
    rw [List.map_cons, runCommands_cons h1]
    have heu : u.err = none := by obtain ⟨_, _, _, rfl⟩ := packBit_frame hu; exact he
    have h2 : packBits q (u.respond false (lowField 3 u.nacc)) =
        .ok { t with resps := u.resps ++ [⟨false, lowField 3 u.nacc⟩] } := by
      rw [State.respond, packBits_resps, h]; rfl
    obtain ⟨r, hr⟩ := ih _ _ (show (u.respond false (lowField 3 u.nacc)).err = none from heu) h2
    exact ⟨r, hr⟩

/-- `ENC_SYM` of each symbol of an input is encoding the input (R246). -/
theorem run_encSym : ∀ (bs : List Byte) (s t : State), s.err = none → encodeAll bs s = .ok t →
    ∃ r, runCommands (bs.map .encSym) s = some { t with resps := r } := by
  intro bs
  induction bs with
  | nil => intro s t _ h; cases h; exact ⟨s.resps, rfl⟩
  | cons b bs ih =>
    intro s t he h
    obtain ⟨u, hu, h⟩ := Op.bind_ok.1 h
    have h1 : exec (.encSym b) s = .next (u.respond false (lowField 8 (s.ctl b))) := by
      refine exec_of_ok he ?_
      simp only [operation, opEncSym, hu, Op.ok_bind]
    rw [List.map_cons, runCommands_cons h1]
    have heu : u.err = none := by obtain ⟨_, _, _, rfl⟩ := doEncSym_frame hu; exact he
    have key : ∀ (bs : List Byte) (s : State) (r : List Response),
        encodeAll bs { s with resps := r } = (encodeAll bs s).map (fun t => { t with resps := r }) := by
      intro bs
      induction bs with
      | nil => intro s r; rfl
      | cons b bs ih =>
        intro s r
        have h1 : doEncSym b { s with resps := r } = (doEncSym b s).map (fun t => { t with resps := r }) := by
          change (require s.ctValid .sequenceError >>= fun _ => require (decide (1 ≤ s.ctl b)) .encodingError >>= fun _ =>
            packBits (s.ctb b) { s with resps := r }) = _
          rw [packBits_resps, doEncSym, requireCodes]
          cases require s.ctValid .sequenceError with
          | error e => rfl
          | ok u =>
            cases require (decide (1 ≤ s.ctl b)) .encodingError with
            | error e => rfl
            | ok u => rfl
        rw [encodeAll, encodeAll, h1]
        cases doEncSym b s with
        | error e => rfl
        | ok t => exact ih t r
    have h2 := key bs u (u.resps ++ [⟨false, lowField 8 (s.ctl b)⟩])
    rw [h] at h2
    obtain ⟨r, hr⟩ := ih _ _ (show (u.respond false (lowField 8 (s.ctl b))).err = none from heu) h2
    exact ⟨r, hr⟩

/-- `UPK_BIT` as often as there are payload bits left gives those bits, in order (R206, R208). -/
theorem run_upkBit : ∀ (q : List Bool) (s : State), s.err = none → s.curValid = true → q <+: s.payloadBits.drop s.bpos →
    runCommands (List.replicate q.length .upkBit) s =
      some { s with bpos := s.bpos + q.length,
                    resps := s.resps ++ q.map (fun b => ⟨false, if b then 1#32 else 0#32⟩) } := by
  intro q
  induction q with
  | nil => intro s _ _ _; simp [runCommands]
  | cons b q ih =>
    intro s he hc h
    have hpos : 0 < s.bitsLeft := by
      rw [bitsLeft_eq]; have := h.length_le; simp only [List.length_cons] at this; omega
    have hcons := drop_bpos_cons s hpos
    rw [hcons, List.cons_prefix_cons] at h
    have h1 : exec .upkBit s = .next ((s.advance 1).respond false (if b then 1#32 else 0#32)) := by
      refine exec_of_ok he ?_
      simp only [operation, opUpkBit, requireCursor]
      rw [require_true hc, Op.ok_bind, if_neg (by omega), nextBit_snd]
      have : (nextBit s).1 = b := h.1.symm
      rw [this]
      rfl
    rw [List.length_cons, List.replicate_succ, runCommands_cons h1]
    rw [ih ((s.advance 1).respond false (if b then 1#32 else 0#32)) he hc
      (by simpa [State.respond, State.advance, State.payloadBits] using h.2)]
    simp [State.respond, State.advance, Nat.add_assoc, Nat.add_comm 1]

/-- `PK_FLUSH` does not look at the responses. -/
theorem doPkFlush_resps (s : State) (r : List Response) :
    doPkFlush { s with resps := r } = (doPkFlush s).map (fun t => { t with resps := r }) := by
  simp only [doPkFlush, outByte, State.olen]
  by_cases h0 : s.nacc = 0
  · simp [h0, Except.map]
  · by_cases hroom : s.obuf.length < s.cfg.obufCap
    · simp [h0, hroom, bind, Except.bind, Except.map]
    · simp [h0, hroom, bind, Except.bind, Except.map]

/-! ## Building by steps -/

theorem mergeState_resps (s : State) (a b : Nat) (r : List Response) :
    mergeState { s with resps := r } a b = { mergeState s a b with resps := r } := by
  simp only [mergeState, State.nextId, State.pqLen]
  by_cases h : (pqInsert ((s.inq.erase a).erase b) s.nodes.length).length = 1
  · simp only [h, if_true, State.completeBuild]
  · simp only [h, if_false]

/-- The loop of `BUILD` does not look at the responses. -/
theorem buildLoop_resps : ∀ (n : Nat) (s t : State) (r : List Response), Building s → buildLoop n s = .ok t →
    buildLoop n { s with resps := r } = .ok { t with resps := r } := by
  intro n
  induction n with
  | zero => intro s t r _ h; cases h; rfl
  | succ n ih =>
    intro s t r hb h
    rw [buildLoop] at h ⊢
    split at h
    · rename_i ha
      have h2 := hb.active.1 ha
      obtain ⟨x, y, hxy⟩ := twoMinima_exist hb.arena h2
      rw [doTbStep_eq ha hb.arena.queueBacked hxy, Op.ok_bind] at h
      rw [if_pos (show ({ s with resps := r } : State).tbActive = true from ha),
        doTbStep_eq (s := { s with resps := r }) ha hb.arena.queueBacked (hxy.congr rfl rfl), Op.ok_bind,
        mergeState_resps]
      exact ih _ _ r (building_merge hb h2 hxy) h
    · rename_i ha
      rw [if_neg (show ¬ ({ s with resps := r } : State).tbActive = true from ha)]
      cases h; rfl

/-- `TB_STEP` as often as a build needs does what the loop of `BUILD` does (R166). -/
theorem run_tbStep : ∀ (n : Nat) (s t : State), s.err = none → Building s → s.pqLen = n + 1 → buildLoop n s = .ok t →
    ∃ r, runCommands (List.replicate n .tbStep) s = some { t with resps := r } := by
  intro n
  induction n with
  | zero => intro s t _ _ _ h; cases h; exact ⟨s.resps, rfl⟩
  | succ n ih =>
    intro s t he hb hn h
    have h2 : 2 ≤ s.pqLen := by omega
    have hact := hb.active.2 h2
    obtain ⟨a, b, hm⟩ := twoMinima_exist hb.arena h2
    have hstep := doTbStep_eq hact hb.arena.queueBacked hm
    rw [buildLoop, if_pos hact, hstep, Op.ok_bind] at h
    have h1 : ∃ v, exec .tbStep s = .next ((mergeState s a b).respond false v) :=
      ⟨_, exec_of_ok he (by simp only [operation, opTbStep, hstep, Op.ok_bind]; rfl)⟩
    obtain ⟨v, h1⟩ := h1
    have hb' := building_merge hb h2 hm
    have hl := buildLoop_resps n (mergeState s a b) t ((mergeState s a b).resps ++ [⟨false, v⟩]) hb' h
    have hbr : Building ((mergeState s a b).respond false v) :=
      ⟨hb'.arena, hb'.belongs, hb'.table, hb'.size, hb'.queued, hb'.sum, hb'.active, hb'.valid, hb'.finished⟩
    rw [List.replicate_succ, runCommands_cons h1]
    have hlen := mergeState_pqLen hm
    obtain ⟨r, hr⟩ := ih ((mergeState s a b).respond false v) _ (by
      show (mergeState s a b).err = none
      rw [mergeState_frame]; exact he) hbr (by show (mergeState s a b).pqLen = _; omega) hl
    exact ⟨r, hr⟩

end Sys2Proof.Machine
end

