-- ==== Sys2Proof/Tests/Slice0.lean ====
section
/-! SUPPORT. Tests of the model against words and values that spec/30_encoding.md and spec/95_test_vectors.md give, and for each
obligation with hypotheses a concrete input that meets them. -/

set_option maxRecDepth 8000

namespace Sys2Proof.Tests

open Sys2Proof Sys2Proof.Machine

/-! ## Well-formed words and commands (R102, R104, R105) -/

theorem test_wellFormed_words : [0x00000000#32, 0x32000761#32, 0x40000001#32, 0x240001FF#32, 0x05FFFFFF#32].all
    Word.wellFormed = true := by decide

theorem test_illFormed_opcode : [0x09000000#32, 0x64000000#32, 0xFF000000#32].any Word.wellFormed = false := by decide

theorem test_illFormed_c0 : Word.wellFormed 0x01000001#32 = false := by decide

theorem test_illFormed_c1 : Word.wellFormed 0x40000002#32 = false := by decide

theorem test_illFormed_c8 : Word.wellFormed 0x03000100#32 = false := by decide

theorem test_illFormed_c9 : Word.wellFormed 0x24000200#32 = false := by decide

theorem test_illFormed_c11 : Word.wellFormed 0x32000800#32 = false := by decide

/-- D-30-12: a well-formed word whose operand is out of range. -/
theorem test_illFormed_register : Instr.wellFormed (.rdReg 19#8) = false ∧ Instr.wellFormed (.rdReg 18#8) = true := by
  decide

theorem test_rows_disjoint : opcodeMap.Pairwise (fun r q => r.pattern.extractLsb' 24 8 ≠ q.pattern.extractLsb' 24 8) := by
  decide

/-! ## Decoding: a word of each command, written out from R102 and R104 -/

theorem test_decode_system :
    [0x00000000#32, 0x01000000#32, 0x02000012#32, 0x03000061#32, 0x04000000#32, 0x05000001#32, 0x06000011#32, 0x07000000#32,
      0x08000000#32].map (fun w => decodeTableWord 32 w.toNat) =
    [some .nop, some .reset, some (.rdReg 18#8), some (.ipush 97#8), some .iclr, some (.ird 1#24), some (.ord 17#24),
      some .oclr, some .o2i] := by decide

theorem test_decode_table_and_tree :
    [0x10000000#32, 0x11000062#32, 0x20000000#32, 0x21000000#32, 0x22000000#32, 0x23000002#32, 0x240001FE#32, 0x25000004#32,
      0x26000004#32].map (fun w => decodeTableWord 32 w.toNat) =
    [some .freq, some (.ftRd 98#8), some .build, some .tbInit, some .tbStep, some (.pqRd 2#8), some (.ndRdLink 510#9),
      some (.ndRdFlo 4#9), some (.ndRdFhi 4#9)] := by decide

theorem test_decode_codes_and_bits :
    [0x30000000#32, 0x31000061#32, 0x32000161#32, 0x40000001#32, 0x41000000#32, 0x42FFFFFF#32, 0x43000000#32].map
      (fun w => decodeTableWord 32 w.toNat) =
    [some .gencode, some (.ctLen 97#8), some (.ctBits 97#8 1#3), some (.pkBit 1#1), some .pkFlush,
      some (.upkSet 16777215#24), some .upkBit] := by decide

theorem test_decode_container_and_flows :
    [0x50000000#32, 0x51000000#32, 0x6000007A#32, 0x61000000#32, 0x62000000#32, 0x63000000#32].map
      (fun w => decodeTableWord 32 w.toNat) =
    [some .hdrWr, some .hdrRd, some (.encSym 122#8), some .decSym, some .compress, some .decompress] := by decide

/-- D-30-6 to D-30-11. -/
theorem test_decode_refuses :
    [0x09000000#32, 0x00000001#32, 0x40000002#32, 0x32000800#32, 0x24000200#32, 0x64000000#32, 0xFF000000#32].map
      (fun w => decodeTableWord 32 w.toNat) = [none, none, none, none, none, none, none] := by decide

/-- R110's examples. -/
theorem test_assemble : assembleText "IPUSH 'a'".toList = some [0x03000061#32] ∧
    assembleText "CT_BITS 'a', 1 ; second word".toList = some [0x32000161#32] := by decide

theorem test_assemble_refuses : assembleText "IPUSH 256".toList = none ∧ assembleText "PK_BIT 2".toList = none := by decide

/-- The first bytes of program P3. -/
theorem test_assemble_bytes : assembleText "IPUSHB 03 63 B0".toList =
    some [0x03000003#32, 0x03000063#32, 0x030000B0#32] := by decide

/-! ## Small states -/

/-- What a command answers. -/
def answer (i : Instr) (s : State) : Option Response :=
  match exec i s with
  | .next t => t.resps.getLast?
  | _ => none

/-- A part of the state a command leaves. -/
def after {α : Type} (i : Instr) (s : State) (f : State → α) : Option α :=
  match exec i s with
  | .next t => some (f t)
  | _ => none

/-- The response (0, `v`). -/
def good (v : Word) : Option Response := some ⟨false, v⟩

/-- The response (1, `v`). -/
def bad (v : Word) : Option Response := some ⟨true, v⟩

/-- A text as bytes. -/
def bytesOf (text : List Nat) : List Byte := text.map (BitVec.ofNat 8)

/-- From reset, with an input. -/
def withInput (text : List Nat) : State := { State.reset with ibuf := bytesOf text }

/-- "aabbbcc" (V1). -/
def aabbbcc : List Nat := [97, 97, 98, 98, 98, 99, 99]

/-- The table of V1. -/
def tableV1 : Table Nat := [(97#8, 2), (98#8, 3), (99#8, 2)]

/-- V1's input with its table. -/
def counted : State := { withInput aabbbcc with ft := tableV1, ftValid := true }

/-- V1's build after `TB_INIT`. -/
def started : State :=
  { counted with nodes := [.leaf 97#8 2, .leaf 98#8 3, .leaf 99#8 2], inq := [0, 1, 2], tbActive := true }

/-- V1's build after merge 1. -/
def halfway : State :=
  { started with nodes := started.nodes ++ [.internal 4 0 2], inq := [1, 3] }

/-- V1's tree. -/
def treed : State :=
  { counted with nodes := halfway.nodes ++ [.internal 7 1 3], inq := [4], root := 4, total := 7, treeValid := true }

/-- V1's tree with its codes: a = 10, b = 0, c = 11. -/
def coded : State :=
  { treed with ct := [(97#8, [true, false]), (98#8, [false]), (99#8, [true, true])], ctValid := true }

/-- The header of V1. -/
def headerV1 : List Nat := [3, 97, 2, 0, 0, 0, 98, 3, 0, 0, 0, 99, 2, 0, 0, 0]

/-- V1's tree with V1's payload A1 E0 under the cursor. -/
def decoding : State :=
  { treed with ibuf := bytesOf (headerV1 ++ [0xA1, 0xE0]), rpos := 16, curValid := true }

/-- The error state after `GENCODE` from reset (D-40-8). -/
def failed : State := errorEntry .sequenceError 0x30000000#32 State.reset

/-! ## One step of each command -/

theorem test_nop : answer .nop failed = good 0#32 ∧ after .nop failed (·.err) = some (some .sequenceError) := by decide

theorem test_reset : answer .reset failed = good 0#32 ∧ after .reset failed (·.err) = some none := by decide

theorem test_rdReg : answer (.rdReg 0#8) State.reset = good 0x48554601#32 ∧
    answer (.rdReg 3#8) failed = good 0x30000000#32 ∧ answer (.rdReg 1#8) failed = good 0x40#32 := by decide

theorem test_rdReg_refused : answer (.rdReg 19#8) State.reset = bad 5#32 ∧ answer (.rdReg 19#8) failed = bad 6#32 := by
  decide

theorem test_ipush : answer (.ipush 98#8) (withInput [97]) = good 2#32 ∧
    after (.ipush 98#8) (withInput [97]) (·.ibuf) = some (bytesOf [97, 98]) := by decide

/-- D-40-3. -/
theorem test_ipush_full : answer (.ipush 3#8) { withInput [1, 2] with cfg := { Config.reference with ibufCap := 2 } } =
    bad 7#32 := by decide

theorem test_iclr : after .iclr decoding (fun t => (t.ibuf, t.rpos, t.curValid)) = some ([], 0, false) := by decide

/-- D-40-2. -/
theorem test_ird : answer (.ird 1#24) (withInput [97, 98]) = good 98#32 ∧
    answer (.ird 2#24) (withInput [97, 98]) = bad 5#32 := by decide

theorem test_ord : answer (.ord 0#24) { State.reset with obuf := [0x80#8] } = good 0x80#32 ∧
    answer (.ord 0#24) State.reset = bad 5#32 := by decide

/-- D-40-6: the packer is untouched. -/
theorem test_oclr : after .oclr { State.reset with obuf := [1#8], acc := 0x80#8, nacc := 1 } (fun t => (t.obuf, t.pkState)) =
    some ([], 0x180#32) := by decide

theorem test_o2i : after .o2i { decoding with obuf := [7#8] } (fun t => (t.ibuf, t.obuf, t.curValid)) =
    some ([7#8], [], false) := by decide

/-- V1. -/
theorem test_freq : answer .freq (withInput aabbbcc) = good 3#32 ∧
    after .freq (withInput aabbbcc) (·.ft) = some tableV1 := by decide

/-- D-41-2. -/
theorem test_ftRd : answer (.ftRd 98#8) counted = good 0x80000003#32 ∧ answer (.ftRd 100#8) counted = good 0#32 := by decide

theorem test_build : answer .build counted = good 4#32 ∧ after .build counted (fun t => (t.nodes, t.total)) =
    some (treed.nodes, 7) := by decide

theorem test_build_empty : answer .build { State.reset with ftValid := true } = bad 1#32 := by decide

theorem test_tbInit : answer .tbInit counted = good 3#32 ∧ after .tbInit counted (·.nodes) = some started.nodes := by decide

/-- V1, merges 1 and 2. -/
theorem test_tbStep : after .tbStep started (fun t => (t.nodes, t.inq)) = some (halfway.nodes, [1, 3]) ∧
    answer .tbStep halfway = good 0x80000004#32 := by decide

/-- D-42-11. -/
theorem test_pqRd : [0#8, 1#8, 2#8].map (fun k => answer (.pqRd k) started) = [good 0#32, good 2#32, good 1#32] ∧
    answer (.pqRd 2#8) halfway = bad 5#32 := by decide

theorem test_ndRdLink : answer (.ndRdLink 4#9) treed = good 0x80010003#32 ∧ answer (.ndRdLink 2#9) treed = good 99#32 := by
  decide

/-- D-42-10's node 4. -/
theorem test_ndRdFreq : answer (.ndRdFlo 0#9) { treed with nodes := [.internal 0x17FFFFFFD 2 3] } = good 0x7FFFFFFD#32 ∧
    answer (.ndRdFhi 0#9) { treed with nodes := [.internal 0x17FFFFFFD 2 3] } = good 1#32 := by decide

theorem test_gencode : answer .gencode treed = good 3#32 ∧ after .gencode treed (·.ct) = some coded.ct := by decide

/-- D-43-1. -/
theorem test_ctLen : answer (.ctLen 97#8) coded = good 2#32 ∧ answer (.ctLen 122#8) coded = good 0#32 := by decide

theorem test_ctBits : answer (.ctBits 97#8 0#3) coded = good 0x80000000#32 ∧
    answer (.ctBits 99#8 0#3) coded = good 0xC0000000#32 ∧ answer (.ctBits 97#8 7#3) coded = good 0#32 := by decide

/-- P5, command 4. -/
theorem test_pkBit : after (.pkBit 1#1) { State.reset with acc := 0xA0#8, nacc := 3 } (fun t => (t.acc, t.nacc)) =
    some (0xB0#8, 4) := by decide

/-- D-44-2: the eighth bit. -/
theorem test_pkBit_byte : answer (.pkBit 1#1) { State.reset with acc := 0xFE#8, nacc := 7 } = good 0#32 ∧
    after (.pkBit 1#1) { State.reset with acc := 0xFE#8, nacc := 7 } (·.obuf) = some [0xFF#8] := by decide

/-- P5, command 6. -/
theorem test_pkFlush : answer .pkFlush { State.reset with acc := 0xB0#8, nacc := 5 } = good 3#32 ∧
    after .pkFlush { State.reset with acc := 0xB0#8, nacc := 5 } (·.obuf) = some [0xB0#8] := by decide

/-- D-44-5. -/
theorem test_upkSet : answer (.upkSet 1#24) (withInput [1]) = good 0#32 ∧ answer (.upkSet 2#24) (withInput [1]) = bad 5#32 := by
  decide

/-- D-44-6: bits 0, 1 and 7 of A1, and the end of the stream. -/
theorem test_upkBit : [0, 1, 7, 16].map (fun k => answer .upkBit
      { withInput [0xA1, 0xE0] with curValid := true, bpos := k }) = [good 1#32, good 0#32, good 1#32, good 0x100#32] := by
  decide

/-- D-45-1. -/
theorem test_hdrWr : answer .hdrWr counted = good 16#32 ∧ after .hdrWr counted (·.obuf) = some (bytesOf headerV1) := by decide

theorem test_hdrWr_big : after .hdrWr { counted with cfg := { Config.reference with byteOrder := .big } } (·.obuf) =
    some (bytesOf [3, 97, 0, 0, 0, 2, 98, 0, 0, 0, 3, 99, 0, 0, 0, 2]) := by decide

/-- P3, command 17: the pairs come out of order. -/
theorem test_hdrRd : answer .hdrRd (withInput [3, 99, 2, 0, 0, 0, 97, 1, 0, 0, 0, 98, 1, 0, 0, 0, 0xB0]) = good 16#32 ∧
    after .hdrRd (withInput [3, 99, 2, 0, 0, 0, 97, 1, 0, 0, 0, 98, 1, 0, 0, 0, 0xB0]) (·.ft) =
      some [(97#8, 1), (98#8, 1), (99#8, 2)] := by decide

/-- D-45-2, D-45-4 to D-45-7. -/
theorem test_hdrRd_corrupt : [[], [2, 97, 1, 0, 0, 0, 98, 1, 0, 0], [1, 97, 0, 0, 0, 0x80, 0],
      [2, 97, 1, 0, 0, 0, 97, 1, 0, 0, 0, 0], [1, 97, 4, 0, 0, 0]].map (fun b => answer .hdrRd (withInput b)) =
    [bad 2#32, bad 2#32, bad 2#32, bad 2#32, bad 2#32] := by decide

theorem test_encSym : answer (.encSym 97#8) coded = good 2#32 ∧
    after (.encSym 97#8) coded (fun t => (t.acc, t.nacc)) = some (0x80#8, 2) := by decide

/-- D-46-13. -/
theorem test_encSym_absent : answer (.encSym 122#8) coded = bad 3#32 ∧
    after (.encSym 122#8) coded (·.errcmd) = some 0x6000007A#32 := by decide

theorem test_decSym : answer .decSym decoding = good 97#32 ∧
    after .decSym decoding (fun t => (t.obuf, t.bpos, t.emitted)) = some ([97#8], 2, 1) := by decide

/-- D-46-11: the payload's bit is not the code bit. -/
theorem test_decSym_single : answer .decSym { withInput [1, 97, 4, 0, 0, 0, 0x10] with
      ft := [(97#8, 4)], ftValid := true, nodes := [.leaf 97#8 4], inq := [0], total := 4, treeValid := true, rpos := 6,
      bpos := 3, emitted := 3, curValid := true } = bad 2#32 := by decide

/-- D-46-2. -/
theorem test_compress : answer .compress (withInput [97, 98]) = good 12#32 ∧ after .compress (withInput [97, 98]) (·.obuf) =
    some (bytesOf [2, 97, 1, 0, 0, 0, 98, 1, 0, 0, 0, 0x40]) := by decide

/-- D-46-9, D-46-15. -/
theorem test_compress_edges : answer .compress State.reset = good 0#32 ∧ after .compress State.reset State.status =
      some 0x21#32 ∧
    answer .compress { withInput [97, 97] with cfg := { Config.reference with obufCap := 6 } } = bad 7#32 := by decide

/-- P2, command 7. -/
theorem test_decompress : answer .decompress (withInput [1, 97, 4, 0, 0, 0, 0]) = good 4#32 ∧
    after .decompress (withInput [1, 97, 4, 0, 0, 0, 0]) (fun t => (t.obuf, t.bpos, t.status)) =
      some (bytesOf [97, 97, 97, 97], 4, 0x15#32) := by decide

/-- D-45-8: a zero count. -/
theorem test_decompress_zero : after .decompress (withInput [2, 97, 0, 0, 0, 0, 98, 3, 0, 0, 0, 0x80]) (·.obuf) =
    some (bytesOf [98, 97, 97]) := by decide

/-! ## Steps -/

/-- The next state of a step, as data. -/
def stepped (s : State) : Option State :=
  match step s with
  | .next t => some t
  | _ => none

theorem test_step_runs : (stepped (State.reset.withFetchWord 32 0x03000061)).map (·.ibuf) = some [97#8] := by decide

/-- D-30-6. -/
theorem test_step_illegal : (stepped (State.reset.withFetchWord 32 0x09000000)).map (fun t => (t.err, t.errcmd)) =
    some (some .illegalCommand, 0x09000000#32) := by decide

theorem test_step_idle : stepped State.reset = some State.reset := by decide

/-! ## States that meet the invariant -/

theorem reset_inv : State.reset.Inv := by
  have h : State.reset = State.resetBlock State.reset := rfl
  rw [h]
  exact inv_resetBlock (by decide)

theorem failed_inv : failed.Inv := inv_errorEntry (by decide) _ _ (by decide)

/-- The state a sequence of commands leaves from reset. -/
def runFrom (is : List Instr) : State := (runCommands is State.reset).getD State.reset

theorem runFrom_inv (is : List Instr) : (runFrom is).Inv := by
  rw [runFrom]
  cases h : runCommands is State.reset with
  | none => exact reset_inv
  | some t => exact runCommands_keeps reset_inv h

/-- "ab" pushed and counted. -/
def abCounted : State := runFrom [.ipush 97#8, .ipush 98#8, .freq]

/-- "abc" pushed, counted and a build started. -/
def abcStarted : State := runFrom [.ipush 97#8, .ipush 98#8, .ipush 99#8, .freq, .tbInit]

/-- "ab" with its tree and codes. -/
def abCoded : State := runFrom [.ipush 97#8, .ipush 98#8, .freq, .build, .gencode]

/-- "a" with its tree and code. -/
def aCoded : State := runFrom [.ipush 97#8, .freq, .build, .gencode]

/-- "ab" compressed, moved to the input and its header read and tree built. -/
def abDecoding : State := runFrom [.ipush 97#8, .ipush 98#8, .compress, .o2i, .hdrRd, .build]

/-- The command completes: it gives a next state in which no error is recorded. -/
def completes (i : Instr) (s : State) : Bool :=
  match exec i s with
  | .next t => t.err.isNone
  | _ => false

theorem next_of_completes {i : Instr} {s : State} (h : completes i s = true) : ∃ t, exec i s = .next t ∧ t.err = none := by
  rw [completes] at h
  cases hx : exec i s with
  | next t => rw [hx] at h; exact ⟨t, rfl, by simpa using h⟩
  | fault f => rw [hx] at h; cases h
  | refused r => rw [hx] at h; cases h

/-- The command raises the error. -/
def raises (e : ErrCode) (i : Instr) (s : State) : Bool :=
  match exec i s with
  | .next t => t.err == some e
  | _ => false

theorem next_of_raises {e : ErrCode} {i : Instr} {s : State} (h : raises e i s = true) :
    ∃ t, exec i s = .next t ∧ t.err = some e := by
  rw [raises] at h
  cases hx : exec i s with
  | next t => rw [hx] at h; exact ⟨t, rfl, by simpa using h⟩
  | fault f => rw [hx] at h; cases h
  | refused r => rw [hx] at h; cases h

/-! ## Witnesses: for each obligation with hypotheses an input that meets them, clause by clause -/

theorem witness_WordsAndRows : decode 0x03000061#32 = .ok (.ipush 97#8) ∧ decode 0x09000000#32 = .error .undefinedOpcode ∧
    decode 0x00000001#32 = .error .reservedBits := ⟨rfl, rfl, rfl⟩

theorem witness_PseudoInstructions : ('a'.toNat < 128 ∧ 'a' ≠ asmDoubleQuote) ∧ ('~'.toNat < 128 ∧ '~' ≠ asmDoubleQuote) ∧
    [0#8, 255#8] ≠ [] := by decide

theorem witness_StepRunsDecodedCommand :
    ({ State.reset with cmds := [0x03000061#32] } : State).cmds = 0x03000061#32 :: [] ∧
    decode 0x03000061#32 = .ok (.ipush 97#8) ∧ decode (encode (.ipush 255#8)) = .ok (.ipush 255#8) := ⟨rfl, rfl, rfl⟩

theorem witness_IllegalWords :
    ({ State.reset with cmds := [0xFF000000#32] } : State).cmds = 0xFF000000#32 :: [] ∧ State.reset.err = none ∧
    ({ failed with cmds := [0xFF000000#32] } : State).err = some .sequenceError ∧
    decode 0xFF000000#32 = .error .undefinedOpcode ∧ State.reset.cmds = [] := ⟨rfl, rfl, rfl, rfl, rfl⟩

/-- A step that completes, one that raises an error, one that is gated. -/
theorem witness_OneResponse : ∀ s ∈ [({ State.reset with cmds := [0x00000000#32] } : State),
      { State.reset with cmds := [0x30000000#32] }, { failed with cmds := [0x30000000#32] }],
    (stepped s).isSome = true ∧ s.cmds.length = 1 := by decide

/-- A command that raises, and a word that decodes to none. -/
theorem witness_FailingCommandState : State.reset.err = none ∧
    (stepped { State.reset with cmds := [0x30000000#32] }).map (·.err) = some (some .sequenceError) ∧
    (stepped { State.reset with cmds := [0xFF000000#32] }).map (·.err) = some (some .illegalCommand) :=
  ⟨rfl, by decide, by decide⟩

theorem witness_ErrorCodes : State.reset.err = none ∧
    (∃ t, exec .hdrRd State.reset = .next t ∧ t.err = some .corruptContainer) ∧
    (stepped { State.reset with cmds := [0xFF000000#32] }).map (·.err) = some (some .illegalCommand) :=
  ⟨rfl, next_of_raises (by decide), by decide⟩

theorem toNat_readRegWord (r : BitVec 8) : (0x02000000#32 ||| zext32 r).toNat = 0x02000000 + r.toNat := by
  have h := Nat.shiftLeft_add_eq_or_of_lt (i := 8) r.isLt 0x020000
  have hr : r.toNat % 4294967296 = r.toNat := Nat.mod_eq_of_lt (Nat.lt_trans r.isLt (by decide))
  simpa [zext32, hr] using h.symm

theorem ne_readRegWord {w : Word} (h : w.toNat < 0x02000000 ∨ 0x02000012 < w.toNat) (r : BitVec 8) (hr : r.toNat ≤ 18) :
    w ≠ (0x02000000#32 ||| zext32 r) := by
  rintro rfl
  rw [toNat_readRegWord] at h
  omega

/-- The first and the last register, and a word of each kind that is gated: the register behind the last, a command,
    a word with reserved bits and one with an undefined opcode. -/
theorem witness_ErrorStateGating : failed.err = some .sequenceError ∧
    (0#8).toNat ≤ 18 ∧ (18#8).toNat ≤ 18 ∧ 0x02000012#32 = (0x02000000#32 ||| zext32 18#8) ∧
    (0x02000013#32 ≠ 0x00000000#32 ∧ 0x02000013#32 ≠ 0x01000000#32 ∧
      ∀ r : BitVec 8, r.toNat ≤ 18 → 0x02000013#32 ≠ (0x02000000#32 ||| zext32 r)) ∧
    (0x03000061#32 ≠ 0x00000000#32 ∧ 0x03000061#32 ≠ 0x01000000#32 ∧
      ∀ r : BitVec 8, r.toNat ≤ 18 → 0x03000061#32 ≠ (0x02000000#32 ||| zext32 r)) ∧
    (0x00000001#32 ≠ 0x00000000#32 ∧ 0x00000001#32 ≠ 0x01000000#32 ∧
      ∀ r : BitVec 8, r.toNat ≤ 18 → 0x00000001#32 ≠ (0x02000000#32 ||| zext32 r)) ∧
    (0xFF000000#32 ≠ 0x00000000#32 ∧ 0xFF000000#32 ≠ 0x01000000#32 ∧
      ∀ r : BitVec 8, r.toNat ≤ 18 → 0xFF000000#32 ≠ (0x02000000#32 ||| zext32 r)) :=
  ⟨rfl, by decide, by decide, rfl, ⟨by decide, by decide, ne_readRegWord (by decide)⟩,
    ⟨by decide, by decide, ne_readRegWord (by decide)⟩, ⟨by decide, by decide, ne_readRegWord (by decide)⟩,
    ⟨by decide, by decide, ne_readRegWord (by decide)⟩⟩

theorem witness_OnlyResetLeavesErrorState :
    ({ failed with cmds := [0x01000000#32] } : State).err = some .sequenceError ∧
    (stepped { failed with cmds := [0x01000000#32] }).isSome = true ∧
    (stepped { failed with cmds := [0x30000000#32] }).isSome = true := ⟨rfl, by decide, by decide⟩

theorem witness_SequenceErrors : State.reset.err = none ∧ State.reset.ftValid = false ∧ State.reset.tbActive = false ∧
    State.reset.treeValid = false ∧ State.reset.ctValid = false ∧ State.reset.curValid = false ∧
    (treed.err = none ∧ treed.treeValid = true ∧ treed.curValid = false) := by decide

/-- Each operand just outside its range. -/
theorem witness_IllegalCommandCauses : treed.err = none ∧ Word.wellFormed 0x00000001#32 = false ∧ 18 < (19#8).toNat ∧
    treed.ilen ≤ (7#24).toNat ∧ treed.olen ≤ (0#24).toNat ∧ treed.pqLen ≤ (1#8).toNat ∧ treed.nextId ≤ (5#9).toNat ∧
    treed.ilen < (8#24).toNat := by decide

theorem witness_InvalidInput : ({ State.reset with ftValid := true } : State).err = none ∧
    ({ State.reset with ftValid := true } : State).nsym = 0 ∧ completes .compress State.reset = true := by decide

theorem witness_EncodingError : coded.err = none ∧ coded.ctValid = true ∧ coded.ctl 122#8 = 0 ∧
    completes .compress State.reset = true := by decide

theorem witness_NopDoesNothing : ({ State.reset with cmds := [0x00000001#32] } : State).cmds = 0x00000001#32 :: [] ∧
    State.reset.err = none ∧ (0x00000000#32).extractLsb' 24 8 = 0x00#8 ∧ (0x00000001#32).extractLsb' 24 8 = 0x00#8 :=
  ⟨rfl, rfl, rfl, rfl⟩

theorem witness_ResetState : (0x01000000#32).extractLsb' 24 8 = 0x01#8 ∧ (0x01000001#32).extractLsb' 24 8 = 0x01#8 ∧
    ({ failed with cmds := [0x01000001#32] } : State).cmds = 0x01000001#32 :: [] ∧ failed.err = some .sequenceError ∧
    ({ State.reset with cmds := [0x01000001#32] } : State).err = none := ⟨rfl, rfl, rfl, rfl, rfl⟩

theorem witness_ReadRegister : (0x02000012#32).extractLsb' 24 8 = 0x02#8 ∧ (0x02000100#32).extractLsb' 24 8 = 0x02#8 ∧
    (0x02000100#32).extractLsb' 8 16 ≠ 0#16 ∧ (18#8).toNat ≤ 18 ∧ 18 < (19#8).toNat ∧ State.reset.err = none ∧ failed.err = some .sequenceError :=
  ⟨rfl, rfl, by decide, by decide, by decide, rfl, rfl⟩

theorem witness_RegisterLayout : State.reset.Inv ∧ failed.Inv ∧ abCoded.Inv := ⟨reset_inv, failed_inv, runFrom_inv _⟩

/-- One byte of room, and none. -/
theorem witness_InputPush : State.reset.err = none ∧
    (let s : State := { withInput [1] with cfg := { Config.reference with ibufCap := 2 } }; s.ilen + 1 = s.cfg.ibufCap) ∧
    (let s : State := { withInput [1] with cfg := { Config.reference with ibufCap := 1 } }; s.cfg.ibufCap ≤ s.ilen) := by
  decide

theorem witness_ClearBuffers : decoding.err = none := rfl

/-- The last byte, and the index behind it. -/
theorem witness_ReadBuffers : (let s : State := { withInput [97, 98] with obuf := [7#8] };
    s.err = none ∧ (1#24).toNat < s.ilen ∧ s.ilen ≤ (2#24).toNat ∧ (0#24).toNat < s.olen ∧ s.olen ≤ (1#24).toNat) := by
  decide

/-- An output that just fits the input buffer, and one that does not. -/
theorem witness_OutputToInput :
    (let s : State := { State.reset with obuf := [7#8], cfg := { Config.reference with ibufCap := 1 } };
      s.err = none ∧ s.olen ≤ s.cfg.ibufCap) ∧
    (let s : State := { State.reset with obuf := [7#8, 8#8], cfg := { Config.reference with ibufCap := 1 } };
      s.err = none ∧ s.cfg.ibufCap < s.olen) := by decide

theorem witness_FrequencyCount : (withInput aabbbcc).err = none := rfl

theorem witness_FrequencyRead : abCounted.Inv ∧ abCounted.err = none ∧ abCounted.ftValid = true ∧
    State.reset.Inv ∧ State.reset.ftValid = false := ⟨runFrom_inv _, by decide, by decide, reset_inv, rfl⟩

theorem witness_BuildStart : State.reset.Inv ∧ State.reset.ftValid = false ∧
    ({ State.reset with ftValid := true } : State).nsym = 0 ∧
    ({ State.reset with ftValid := true, ft := [(97#8, 4)] } : State).ft = [(97#8, 4)] ∧
    2 ≤ ({ State.reset with ftValid := true, ft := [(97#8, 1), (98#8, 1)] } : State).nsym :=
  ⟨reset_inv, by decide, by decide, by decide, by decide⟩

/-- Three members in the queue, then two, then no build in progress. -/
theorem witness_BuildStep : abcStarted.Inv ∧ abcStarted.err = none ∧ abcStarted.tbActive = true ∧ abcStarted.pqLen = 3 ∧
    (runFrom [.ipush 97#8, .ipush 98#8, .freq, .tbInit]).Inv ∧
    (runFrom [.ipush 97#8, .ipush 98#8, .freq, .tbInit]).err = none ∧
    (runFrom [.ipush 97#8, .ipush 98#8, .freq, .tbInit]).tbActive = true ∧
    (runFrom [.ipush 97#8, .ipush 98#8, .freq, .tbInit]).pqLen = 2 ∧ State.reset.Inv ∧ State.reset.tbActive = false :=
  ⟨runFrom_inv _, by decide, by decide, by decide, runFrom_inv _, by decide, by decide, by decide, reset_inv, rfl⟩

theorem witness_BuildEqualsSteps : State.reset.ftValid = false ∧ ({ State.reset with ftValid := true } : State).nsym = 0 ∧
    counted.err = none ∧ counted.ftValid = true ∧ 1 ≤ counted.nsym := by decide

theorem witness_BuiltTree : ∀ s ∈ [counted, { State.reset with ftValid := true, ft := [(97#8, 4)] }],
    s.err = none ∧ s.ftValid = true ∧ 1 ≤ s.nsym := by decide

theorem witness_TreeOfTable : counted.err = none ∧ treed.err = none ∧ counted.ftValid = true ∧ treed.ftValid = true ∧
    counted.ft = treed.ft ∧ (∃ t, exec .build counted = .next t ∧ t.err = none) ∧
    (∃ t, exec .build treed = .next t ∧ t.err = none) :=
  ⟨rfl, rfl, rfl, rfl, rfl, next_of_completes (by decide), next_of_completes (by decide)⟩

/-- The last rank, and the one behind it. -/
theorem witness_QueueRead : abcStarted.Inv ∧ abcStarted.err = none ∧ (2#8).toNat < abcStarted.pqLen ∧
    abcStarted.pqLen ≤ (3#8).toNat := ⟨runFrom_inv _, by decide, by decide, by decide⟩

/-- A leaf, an Internal at the last index, and the index behind it. -/
theorem witness_NodeReads : abCoded.Inv ∧ abCoded.err = none ∧ abCoded.nodes[(0#9).toNat]? = some (.leaf 97#8 1) ∧
    abCoded.nodes[(2#9).toNat]? = some (.internal 2 0 1) ∧ abCoded.nextId ≤ (3#9).toNat ∧ (2#9).toNat < abCoded.nextId :=
  ⟨runFrom_inv _, by decide, by decide, by decide, by decide, by decide⟩

theorem witness_GenerateCodes : abCoded.Inv ∧ abCoded.err = none ∧ abCoded.treeValid = true ∧ State.reset.Inv ∧
    State.reset.treeValid = false := ⟨runFrom_inv _, by decide, by decide, reset_inv, rfl⟩

/-- An alphabet of two symbols, and of one. -/
theorem witness_PrefixFreeCodes : abCoded.Inv ∧ abCoded.ctValid = true ∧ 2 ≤ abCoded.nsym ∧
    (abCoded.ct.find 97#8, abCoded.ct.find 98#8) = (some [false], some [true]) ∧
    aCoded.Inv ∧ aCoded.ctValid = true ∧ aCoded.nsym = 1 ∧ aCoded.ct.find 97#8 = some [false] :=
  ⟨runFrom_inv _, by decide, by decide, by decide, runFrom_inv _, by decide, by decide, by decide⟩

theorem witness_CodeReads : abCoded.Inv ∧ abCoded.err = none ∧ abCoded.ctValid = true ∧ State.reset.Inv ∧
    State.reset.ctValid = false := ⟨runFrom_inv _, by decide, by decide, reset_inv, rfl⟩

/-- The seventh bit, the eighth with room, the eighth without. -/
theorem witness_PackBit : (let s : State := { State.reset with nacc := 6 }; s.err = none ∧ s.nacc < 7) ∧
    (let s : State := { State.reset with nacc := 7 }; s.nacc = 7 ∧ s.olen < s.cfg.obufCap) ∧
    (let s : State := { State.reset with nacc := 7, obuf := [1#8], cfg := { Config.reference with obufCap := 1 } };
      s.err = none ∧ s.nacc = 7 ∧ s.cfg.obufCap ≤ s.olen) := by decide

theorem witness_PackFlush : State.reset.nacc = 0 ∧
    (let s : State := { State.reset with nacc := 1 }; s.err = none ∧ s.nacc ≠ 0 ∧ s.olen < s.cfg.obufCap) ∧
    (let s : State := { State.reset with nacc := 7, obuf := [1#8], cfg := { Config.reference with obufCap := 1 } };
      s.nacc ≠ 0 ∧ s.cfg.obufCap ≤ s.olen) := by decide

/-- V5's five bits; two whole bytes that just fit. -/
theorem witness_PackThenUnpack : State.reset.err = none ∧ State.reset.obuf = [] ∧ State.reset.acc = 0#8 ∧
    State.reset.nacc = 0 ∧ ([true, false, true, true, false].length + 7) / 8 ≤ State.reset.cfg.obufCap ∧
    ((List.replicate 16 true).length + 7) / 8 ≤ 2 := by decide

theorem witness_UnpackSet : (withInput [1]).err = none ∧ (1#24).toNat ≤ (withInput [1]).ilen ∧
    (withInput [1]).ilen < (2#24).toNat := by decide

/-- A payload of one byte at its first bit and at its end; a payload of no byte; no cursor. -/
theorem witness_UnpackBit :
    (∀ is ∈ [[.ipush 0xA1#8, .upkSet 0#24], .ipush 0xA1#8 :: .upkSet 0#24 :: List.replicate 8 .upkBit,
      [.ipush 0xA1#8, .upkSet 1#24]], (runFrom is).Inv) ∧
    (let s := runFrom [.ipush 0xA1#8, .upkSet 0#24];
      s.err = none ∧ s.curValid = true ∧ s.bpos ≠ 8 * (s.ilen - s.rpos)) ∧
    (let s := runFrom (.ipush 0xA1#8 :: .upkSet 0#24 :: List.replicate 8 .upkBit);
      s.err = none ∧ s.curValid = true ∧ s.bpos = 8 * (s.ilen - s.rpos)) ∧
    (let s := runFrom [.ipush 0xA1#8, .upkSet 1#24];
      s.err = none ∧ s.curValid = true ∧ s.bpos = 8 * (s.ilen - s.rpos)) ∧ State.reset.curValid = false :=
  ⟨fun is _ => runFrom_inv is, by decide, by decide, by decide, rfl⟩

/-- A header that just fits, and one byte less of room. -/
theorem witness_HeaderWrite : State.reset.ftValid = false ∧ ({ State.reset with ftValid := true } : State).nsym = 0 ∧
    (let s : State := { counted with cfg := { Config.reference with obufCap := 16 } };
      s.err = none ∧ s.ftValid = true ∧ 1 ≤ s.nsym ∧ s.olen + (1 + 5 * s.nsym) ≤ s.cfg.obufCap) ∧
    (let s : State := { counted with cfg := { Config.reference with obufCap := 15 } };
      s.olen ≤ s.cfg.obufCap ∧ s.cfg.obufCap < s.olen + (1 + 5 * s.nsym)) := by decide

theorem witness_HeaderLayout : let t : List (Byte × Nat) := [(255#8, 2147483647), (0#8, 0)];
    1 ≤ t.length ∧ t.length ≤ 256 ∧ (∀ e ∈ t, e.2 < 2 ^ 31) ∧ t[1]? = some (0#8, 0) := by decide

/-- D-45-2 to D-45-7: no byte, a header cut short, 256 pairs announced, and headers of pairs that are refused and accepted. -/
theorem witness_HeaderRead : (withInput []).ibuf = [] ∧ (withInput []).err = none ∧
    (withInput [1, 97, 1, 0, 0]).ilen < 1 + 5 * (if 1#8 = 0#8 then 256 else (1#8).toNat) ∧
    (withInput [0]).ilen < 1 + 5 * (if 0#8 = 0#8 then 256 else (0#8).toNat) ∧
    (∀ ps ∈ [[(97#8, 2147483648)], [(97#8, 1), (97#8, 1)], [(99#8, 2), (97#8, 2147483647)]],
      1 ≤ ps.length ∧ ps.length ≤ 256 ∧ (∀ e ∈ ps, e.2 < 2 ^ 32)) ∧
    (withInput [1, 97, 0, 0, 0, 0x80, 0]).ibuf = headerBytes .little [(97#8, 2147483648)] ++ [0#8] ∧
    (withInput [2, 97, 1, 0, 0, 0, 97, 1, 0, 0, 0, 0]).ibuf = headerBytes .little [(97#8, 1), (97#8, 1)] ++ [0#8] ∧
    ¬ ([(97#8, 1), (97#8, 1)].map (·.1)).Nodup ∧
    (withInput [2, 99, 2, 0, 0, 0, 97, 0xFF, 0xFF, 0xFF, 0x7F, 0]).ibuf =
      headerBytes .little [(99#8, 2), (97#8, 2147483647)] ++ [0#8] ∧
    ([(99#8, 2), (97#8, 2147483647)].map (·.1)).Nodup := by decide

/-- A symbol with a code and one without; an output with room for the completed byte, and without. -/
theorem witness_EncodeSymbol : abCoded.Inv ∧ abCoded.err = none ∧ abCoded.ctValid = true ∧ abCoded.ctl 122#8 = 0 ∧
    1 ≤ abCoded.ctl 98#8 ∧ abCoded.olen + (abCoded.nacc + abCoded.ctl 98#8) / 8 ≤ abCoded.cfg.obufCap ∧
    State.reset.Inv ∧ State.reset.ctValid = false :=
  ⟨runFrom_inv _, by decide, by decide, by decide, by decide, by decide, reset_inv, rfl⟩

/-- The output full and seven bits waiting: the same from a state with the smallest output buffer. -/
theorem witness_EncodeSymbol_full :
    let s0 : State := State.atReset { Config.reference with obufCap := 1 } [] [];
    let s : State := (runCommands ([.ipush 97#8, .ipush 98#8, .freq, .build, .gencode] ++
      List.replicate 15 (.pkBit 1#1)) s0).getD s0;
    s.Inv ∧ s.err = none ∧ s.ctValid = true ∧ 1 ≤ s.ctl 98#8 ∧ s.cfg.obufCap < s.olen + (s.nacc + s.ctl 98#8) / 8 := by
  intro s0 s
  refine ⟨?_, by decide, by decide, by decide, by decide⟩
  have h0 : s0.Inv := by
    have h : s0 = State.resetBlock s0 := rfl
    rw [h]
    exact inv_resetBlock (by decide)
  show State.Inv ((runCommands _ s0).getD s0)
  cases h : runCommands ([.ipush 97#8, .ipush 98#8, .freq, .build, .gencode] ++ List.replicate 15 (.pkBit 1#1)) s0 with
  | none => exact h0
  | some t => exact runCommands_keeps h0 h

/-- A symbol comes next; all are out; the flags missing. -/
theorem witness_DecodeSymbol : abDecoding.Inv ∧ abDecoding.err = none ∧ abDecoding.treeValid = true ∧
    abDecoding.curValid = true ∧ abDecoding.emitted < abDecoding.total ∧ abDecoding.treeCode 97#8 [false] ∧
    [false] <+: abDecoding.payloadBits.drop abDecoding.bpos ∧ abDecoding.olen < abDecoding.cfg.obufCap ∧
    (let s := runFrom [.ipush 97#8, .ipush 98#8, .compress, .o2i, .hdrRd, .build, .decSym, .decSym];
      s.Inv ∧ s.treeValid = true ∧ s.curValid = true ∧ s.total ≤ s.emitted) ∧ State.reset.treeValid = false := by
  refine ⟨runFrom_inv _, by decide, by decide, by decide, by decide, ?_, by decide, by decide,
    ⟨runFrom_inv _, by decide, by decide, by decide⟩, rfl⟩
  exact .inr ⟨by simp, 2, 0, 1, by decide, 1, by decide⟩

/-- No code comes next: the payload is empty (`UPK_SET` at the end of the input). -/
theorem witness_DecodeSymbol_corrupt :
    let s := runFrom [.ipush 97#8, .ipush 98#8, .freq, .build, .upkSet 2#24];
    s.Inv ∧ s.err = none ∧ s.treeValid = true ∧ s.curValid = true ∧ s.emitted < s.total ∧
    ∀ b q, s.treeCode b q → ¬ q <+: s.payloadBits.drop s.bpos := by
  refine ⟨runFrom_inv _, by decide, by decide, by decide, by decide, ?_⟩
  intro b q hq hpre
  have h0 : (runFrom [.ipush 97#8, .ipush 98#8, .freq, .build, .upkSet 2#24]).payloadBits.drop
      (runFrom [.ipush 97#8, .ipush 98#8, .freq, .build, .upkSet 2#24]).bpos = [] := by decide
  rw [h0] at hpre
  have hnil := List.prefix_nil.1 hpre
  rcases hq with ⟨-, hq⟩ | ⟨hq, -⟩
  · rw [hnil] at hq; cases hq
  · exact hq hnil

/-- D-46-15's capacities: the container of "aa" just fits 7 bytes and does not fit 6. -/
theorem witness_CompressContainer : (withInput []).ibuf = [] ∧ (withInput [97, 97]).err = none ∧
    (withInput [97, 97]).ibuf ≠ [] ∧
    containerLength { Config.reference with obufCap := 7 } (bytesOf [97, 97]) ≤ 7 ∧
    6 < containerLength { Config.reference with obufCap := 6 } (bytesOf [97, 97]) := by decide

theorem witness_CompressEqualsCommands : (withInput [97, 98]).err = none ∧ (withInput [97, 98]).ibuf ≠ [] ∧
    containerLength (withInput [97, 98]).cfg (withInput [97, 98]).ibuf ≤ (withInput [97, 98]).cfg.obufCap := by decide

/-- D-46-2's container with its pairs out of order: the payload 40 is the codes 0 and 1, then six more bits. -/
theorem witness_DecompressOutput :
    let s := withInput [2, 98, 1, 0, 0, 0, 97, 1, 0, 0, 0, 0x40];
    let ps : List (Byte × Nat) := [(98#8, 1), (97#8, 1)];
    let t : Table Nat := [(97#8, 1), (98#8, 1)];
    s.err = none ∧ s.ibuf = headerBytes s.cfg.byteOrder ps ++ [0x40#8] ∧ 1 ≤ ps.length ∧ ps.length ≤ 256 ∧
    (∀ e ∈ ps, e.2 < 2 ^ 31) ∧ [0x40#8] ≠ [] ∧ Table.wf t = true ∧ t.Perm ps ∧
    (∀ x ∈ bytesOf [97, 98], (t.find x).isSome = true) ∧
    bitsOf [0x40#8] = (bytesOf [97, 98]).flatMap (fun x => ((codeTableOf s.cfg t).find x).getD []) ++
      List.replicate 6 false ∧
    (bytesOf [97, 98]).length = (ps.map (·.2)).sum ∧ (bytesOf [97, 98]).length ≤ s.cfg.obufCap := by
  refine ⟨by decide, by decide, by decide, by decide, by decide, by decide, by decide, ?_, by decide, by decide, by decide,
    by decide⟩
  exact List.Perm.swap _ _ _

/-- V1's pairs out of order. -/
def pairsV1 : List (Byte × Nat) := [(99#8, 2), (97#8, 2), (98#8, 3)]

theorem pairsV1_perm : tableV1.Perm pairsV1 := by decide

/-- V1's header with the pairs out of order, and a payload of one byte. -/
def unorderedV1 : List Nat := [3, 99, 2, 0, 0, 0, 97, 2, 0, 0, 0, 98, 3, 0, 0, 0, 0xA1]

/-- D-46-10's cut payload: after a, a, b, b, b the bit 1 is left; and an output full after the first symbol. -/
theorem witness_DecompressErrors : (∃ t, exec .hdrRd State.reset = .next t ∧ t.err = some .corruptContainer) ∧
    (1 ≤ pairsV1.length ∧ pairsV1.length ≤ 256 ∧ (∀ e ∈ pairsV1, e.2 < 2 ^ 31) ∧ Table.wf tableV1 = true ∧
      tableV1.Perm pairsV1) ∧
    (let s := withInput unorderedV1;
      s.err = none ∧ s.ibuf = headerBytes s.cfg.byteOrder pairsV1 ++ [0xA1#8] ∧
      (∀ x ∈ bytesOf [97, 97, 98, 98, 98], (tableV1.find x).isSome = true) ∧
      bitsOf [0xA1#8] = (bytesOf [97, 97, 98, 98, 98]).flatMap
        (fun x => ((codeTableOf s.cfg tableV1).find x).getD []) ++ [true] ∧
      (bytesOf [97, 97, 98, 98, 98]).length < (pairsV1.map (·.2)).sum ∧
      (bytesOf [97, 97, 98, 98, 98]).length ≤ s.cfg.obufCap) ∧
    (let s : State := { withInput unorderedV1 with cfg := { Config.reference with obufCap := 1 } };
      s.err = none ∧ s.ibuf = headerBytes s.cfg.byteOrder pairsV1 ++ [0xA1#8] ∧
      bitsOf [0xA1#8] = (bytesOf [97]).flatMap (fun x => ((codeTableOf s.cfg tableV1).find x).getD []) ++
        [true, false, false, false, false, true] ∧
      (codeTableOf s.cfg tableV1).find 97#8 = some [true, false] ∧
      [true, false] <+: [true, false, false, false, false, true] ∧ (bytesOf [97]).length = s.cfg.obufCap) :=
  ⟨next_of_raises (by decide), ⟨by decide, by decide, by decide, by decide, pairsV1_perm⟩, by decide, by decide⟩

theorem witness_DecompressErrors_noCode : ∀ b q,
    (codeTableOf Config.reference tableV1).find b = some q → ¬ q <+: [true] := by
  have h : codeTableOf Config.reference tableV1 =
      [(97#8, [true, false]), (98#8, [false]), (99#8, [true, true])] := by decide
  intro b q hq
  rw [h] at hq
  have hm := Table.mem_of_find hq
  simp only [List.mem_cons, Prod.mk.injEq, List.not_mem_nil, or_false] at hm
  rcases hm with ⟨-, rfl⟩ | ⟨-, rfl⟩ | ⟨-, rfl⟩ <;> decide

theorem witness_RoundTrip : State.reset.err = none ∧ State.reset.ibuf = [] ∧ State.reset.cfg.Bounded ∧
    (bytesOf [97, 98]) ≠ [] ∧ (bytesOf [97, 98]).length ≤ State.reset.cfg.ibufCap ∧
    containerLength State.reset.cfg (bytesOf [97, 98]) ≤ State.reset.cfg.ibufCap := by decide

theorem witness_CompressDeterminism : (withInput [97, 98]).err = none ∧
    ({ treed with ibuf := bytesOf [97, 98] } : State).err = none ∧
    (withInput [97, 98]).ibuf = ({ treed with ibuf := bytesOf [97, 98] } : State).ibuf ∧
    completes .compress (withInput [97, 98]) = true ∧
    completes .compress { treed with ibuf := bytesOf [97, 98] } = true := by decide

theorem witness_InvariantKept : State.Inv { abCoded with cmds := [0x62000000#32] } ∧
    (stepped { abCoded with cmds := [0x62000000#32] }).isSome = true :=
  ⟨inv_ports (runFrom_inv _) _ _, by decide⟩

theorem witness_StepsComplete : State.Inv { abCoded with cmds := [0x62000000#32] } := inv_ports (runFrom_inv _) _ _

/-- Each read completes, and one fails. -/
theorem witness_ReadsChangeNothing : (∀ i ∈ [.rdReg 18#8, .ird 6#24, .ftRd 97#8, .pqRd 0#8, .ndRdLink 4#9, .ndRdFlo 4#9,
      .ndRdFhi 4#9, .ctLen 97#8, .ctBits 97#8 7#3], completes i coded = true) ∧
    completes (.ord 0#24) { State.reset with obuf := [1#8] } = true ∧ raises .illegalCommand (.ird 7#24) coded = true ∧
    coded.err = none := by decide

theorem witness_BufferFrame : decoding.err = none ∧
    (∀ i ∈ [.ipush 1#8, .iclr, .oclr, .o2i, .upkSet 18#24, .upkBit], completes i decoding = true) := by decide

theorem witness_OutputFrame : coded.err = none ∧ decoding.err = none ∧
    (∀ i ∈ [.pkBit 1#1, .pkFlush, .encSym 99#8, .hdrWr], completes i coded = true) ∧ completes .decSym decoding = true := by
  decide

theorem witness_StageFrame : counted.err = none ∧ (∀ i ∈ [.freq, .tbInit, .build, .compress], completes i counted = true) ∧
    completes .tbStep started = true ∧ completes .gencode treed = true ∧ completes .hdrRd decoding = true ∧
    completes .decompress decoding = true := by decide

/-- Each change of a flag that the statement allows, once. -/
theorem witness_FlagChanges : after .freq State.reset (·.ftValid) = some true ∧ after .tbInit counted (·.tbActive) = some true ∧
    after .tbStep halfway (fun t => (t.tbActive, t.treeValid)) = some (false, true) ∧
    after .tbInit coded (fun t => (t.treeValid, t.ctValid)) = some (false, false) ∧
    after .gencode treed (·.ctValid) = some true ∧ after (.upkSet 0#24) State.reset (·.curValid) = some true ∧
    after .iclr decoding (·.curValid) = some false ∧ after .compress State.reset (·.nothing) = some true ∧
    after .compress { withInput [97] with nothing := true } (·.nothing) = some false := by decide

end Sys2Proof.Tests
end

section
/-! SUPPORT. The statements about the step and the invariant (10_state.md R20, R22, R44): a step by the word at the head of
the command port, and what each of its cases does to the invariant. -/

namespace Sys2Proof.Machine

open Sys2Proof

/-! ## The invariant at reset and along a step -/

/-- Settles O53: the reset state is a state with its block reset, and the reference capacities are within R9's bounds. -/
theorem invariantAtReset : Obligations.InvariantAtReset :=
  inv_resetBlock (s := State.reset) (by decide)

/-! ## A step by the word at the port -/

theorem step_idle {s : State} (h : s.cmds = []) : step s = .next s := by
  simp [step, takeCommand, h]

theorem step_of_decode_ok {s : State} {w : Word} {ws : List Word} {i : Instr} (hc : s.cmds = w :: ws)
    (hd : decode w = .ok i) : step s = exec i { s with cmds := ws } := by
  simp [step, takeCommand, hc, hd]

theorem step_of_decode_error {s : State} {w : Word} {ws : List Word} {r : Reject} (hc : s.cmds = w :: ws)
    (hd : decode w = .error r) : step s = runIllegal w { s with cmds := ws } := by
  simp [step, takeCommand, hc, hd]

/-- Issuing a word of 32 bits puts that very word at the head of the port. -/
theorem withFetchWord_toNat (s : State) (w : Word) : s.withFetchWord 32 w.toNat = putCommand w s := by
  simp [State.withFetchWord, tableWord, Nat.mod_eq_of_lt w.isLt]

/-- Settles O6, by what a step is when the word at the head of the port decodes. -/
theorem stepRunsDecodedCommand : Obligations.StepRunsDecodedCommand := by
  refine ⟨fun s w ws i hc hd => step_of_decode_ok hc hd, fun s i hd => ?_⟩
  rw [withFetchWord_toNat]
  exact step_of_decode_ok rfl hd

theorem runIllegal_keeps {w : Word} {s t : State} (h : s.Inv) (ht : runIllegal w s = .next t) : t.Inv := by
  cases he : s.err with
  | none =>
    simp only [runIllegal, runGated, he] at ht
    cases ht
    exact inv_errorEntry h.bounded _ _ (by decide)
  | some e =>
    simp only [runIllegal, runGated, he] at ht
    cases ht
    exact inv_respond h _ _

/-- Settles O54, by what the word at the head of the port is: none, the word of a command, or an illegal word. -/
theorem invariantKept : Obligations.InvariantKept := by
  intro s t h ht
  cases hc : s.cmds with
  | nil =>
    rw [step_idle hc] at ht
    cases ht
    exact h
  | cons w ws =>
    have hport : State.Inv { s with cmds := ws } := inv_ports h ws s.resps
    cases hd : decode w with
    | ok i => exact exec_keeps hport (step_of_decode_ok hc hd ▸ ht)
    | error r => exact runIllegal_keeps hport (step_of_decode_error hc hd ▸ ht)

end Sys2Proof.Machine
end

section
/-! SUPPORT. The status flags (10_state.md R40): what each completed command makes of them. -/

namespace Sys2Proof.Machine

open Sys2Proof

/-- The six stored status flags (10_state.md R40), in the order of `STATUS`. -/
structure Flags where
  ftValid : Bool
  tbActive : Bool
  treeValid : Bool
  ctValid : Bool
  curValid : Bool
  nothing : Bool

/-- The stored flags of a state. -/
def State.flags (s : State) : Flags := ⟨s.ftValid, s.tbActive, s.treeValid, s.ctValid, s.curValid, s.nothing⟩

theorem State.flags_eq_iff {s : State} {f : Flags} : s.flags = f ↔ s.ftValid = f.ftValid ∧ s.tbActive = f.tbActive ∧
    s.treeValid = f.treeValid ∧ s.ctValid = f.ctValid ∧ s.curValid = f.curValid ∧ s.nothing = f.nothing := by
  cases f
  simp [State.flags]

/-- What a command other than `RESET` that completes from `s` makes of the flags (R40). -/
inductive FlagStep (s : State) : Instr → Flags → Prop
  | same (i : Instr) : FlagStep s i s.flags
  | freq : FlagStep s .freq ⟨true, false, false, false, s.curValid, s.nothing⟩
  | tbInitOne : s.nsym = 1 → FlagStep s .tbInit { s.flags with tbActive := false, treeValid := true, ctValid := false }
  | tbInitMore : 2 ≤ s.nsym →
      FlagStep s .tbInit { s.flags with tbActive := true, treeValid := false, ctValid := false }
  | tbStepLast : FlagStep s .tbStep { s.flags with tbActive := false, treeValid := true }
  | build : FlagStep s .build { s.flags with tbActive := false, treeValid := true, ctValid := false }
  | gencode : FlagStep s .gencode { s.flags with ctValid := true }
  | setCursor (a : BitVec 24) : FlagStep s (.upkSet a) { s.flags with curValid := true }
  | iclr : FlagStep s .iclr { s.flags with curValid := false }
  | o2i : FlagStep s .o2i { s.flags with curValid := false }
  | hdrRd : FlagStep s .hdrRd ⟨true, false, false, false, true, s.nothing⟩
  | compressNothing : s.ibuf = [] → FlagStep s .compress ⟨true, false, false, false, s.curValid, true⟩
  | compressInput : s.ibuf ≠ [] → FlagStep s .compress ⟨true, false, true, true, s.curValid, false⟩
  | decompress : FlagStep s .decompress ⟨true, false, true, false, true, false⟩

theorem FlagStep.of_same {i : Instr} {s t : State} (h : t.flags = s.flags) : FlagStep s i t.flags := h ▸ .same i

theorem flags_tbInit {s : State} (hn : 1 ≤ s.nsym) : FlagStep s .tbInit (tbInitState s).flags := by
  by_cases h1 : s.nsym = 1
  · rw [tbInitState, if_pos h1]
    exact .tbInitOne h1
  · rw [tbInitState, if_neg h1]
    exact .tbInitMore (by omega)

theorem flags_compress {s t : State} (h : doCompress s = .ok t) : FlagStep s .compress t.flags := by
  rw [doCompress_frame h]
  by_cases h0 : s.ibuf = []
  · simpa [State.flags, h0] using FlagStep.compressNothing h0
  · simpa [State.flags, h0] using FlagStep.compressInput h0

/-- Every completed Operation but that of `RESET` changes the flags as R40 lists. -/
theorem operation_flags {i : Instr} (hi : i ≠ .reset) {s t : State} {v : Word} (h : operation i s = .ok (t, v)) :
    FlagStep s i t.flags := by
  cases i with
  | nop => cases h; exact .same _
  | reset => exact absurd rfl hi
  | rdReg r => rw [opRdReg_frame h]; exact .same _
  | ipush b => obtain ⟨-, -, h⟩ := Op.bind_ok.1 h; cases h; exact .of_same rfl
  | iclr => cases h; exact .iclr
  | ird a => rw [opIrd_frame h]; exact .same _
  | ord a => rw [opOrd_frame h]; exact .same _
  | oclr => cases h; exact .of_same rfl
  | o2i => obtain ⟨-, -, h⟩ := Op.bind_ok.1 h; cases h; exact .o2i
  | freq => cases h; exact .freq
  | ftRd b => rw [opFtRd_frame h]; exact .same _
  | build =>
    obtain ⟨u, hu, h⟩ := Op.bind_ok.1 h
    cases h
    obtain ⟨-, -, -, -, e⟩ := doBuild_ok hu
    rw [e]; exact .build
  | tbInit =>
    obtain ⟨u, hu, h⟩ := Op.bind_ok.1 h
    cases h
    obtain ⟨-, hn, rfl⟩ := doTbInit_ok hu
    exact flags_tbInit hn
  | tbStep =>
    obtain ⟨u, hu, h⟩ := Op.bind_ok.1 h
    cases h
    obtain ⟨-, _, _, _, _, _, _, rfl, ⟨rfl, rfl⟩ | ⟨rfl, rfl⟩⟩ := doTbStep_frame hu
    · exact .of_same rfl
    · exact .tbStepLast
  | pqRd k => rw [opPqRd_frame h]; exact .same _
  | ndRdLink n => rw [opNdRdLink_frame h]; exact .same _
  | ndRdFlo n => rw [opNdRdFlo_frame h]; exact .same _
  | ndRdFhi n => rw [opNdRdFhi_frame h]; exact .same _
  | gencode =>
    obtain ⟨u, hu, h⟩ := Op.bind_ok.1 h
    cases h
    obtain ⟨-, _, rfl⟩ := doGencode_frame hu
    exact .gencode
  | ctLen b => rw [opCtLen_frame h]; exact .same _
  | ctBits b w => rw [opCtBits_frame h]; exact .same _
  | pkBit b =>
    obtain ⟨u, hu, h⟩ := Op.bind_ok.1 h
    cases h
    obtain ⟨_, _, _, rfl⟩ := packBit_frame hu
    exact .of_same rfl
  | pkFlush =>
    obtain ⟨u, hu, h⟩ := Op.bind_ok.1 h
    cases h
    obtain ⟨_, _, _, rfl⟩ := doPkFlush_frame hu
    exact .of_same rfl
  | upkSet a => obtain ⟨-, -, h⟩ := Op.bind_ok.1 h; cases h; exact .setCursor a
  | upkBit =>
    obtain ⟨-, -, h⟩ := Op.bind_ok.1 h
    split at h <;> cases h <;> exact .of_same rfl
  | hdrWr =>
    obtain ⟨u, hu, h⟩ := Op.bind_ok.1 h
    cases h
    rw [doHdrWr_frame hu]; exact .of_same rfl
  | hdrRd =>
    obtain ⟨u, hu, h⟩ := Op.bind_ok.1 h
    cases h
    obtain ⟨_, rfl, -⟩ := doHdrRd_ok hu
    exact .hdrRd
  | encSym b =>
    obtain ⟨u, hu, h⟩ := Op.bind_ok.1 h
    cases h
    obtain ⟨_, _, _, rfl⟩ := doEncSym_frame hu
    exact .of_same rfl
  | decSym =>
    obtain ⟨_, _, _, rfl⟩ := opDecSym_frame h
    exact .of_same rfl
  | compress =>
    obtain ⟨u, hu, h⟩ := Op.bind_ok.1 h
    cases h
    exact flags_compress hu
  | decompress =>
    obtain ⟨u, hu, h⟩ := Op.bind_ok.1 h
    cases h
    rw [doDecompress_frame hu]; exact .decompress

/-- Settles O60: the flags afterwards are those of one of the cases of `FlagStep`, and in each case the flags that changed
list the command among their setters or clearers. -/
theorem flagChanges : Obligations.FlagChanges := by
  intro i s t he hi h ht
  obtain ⟨u, v, hop, rfl⟩ := exec_completed he h ht
  have hstep := operation_flags hi hop
  generalize hf : u.flags = f at hstep
  obtain ⟨hft, htb, htree, hct, hcur, hnothing⟩ := State.flags_eq_iff.1 hf
  simp only [State.respond_ftValid, State.respond_tbActive, State.respond_treeValid, State.respond_ctValid,
    State.respond_curValid, State.respond_nothing, hft, htb, htree, hct, hcur, hnothing]
  cases hstep <;> simp +contextual [State.flags, *]

end Sys2Proof.Machine
end

section
/-! SUPPORT. The register map (10_state.md R41): a field that fits its width reads back from its bits, and the invariant gives
the widths (R36). -/

namespace Sys2Proof.Machine

open Sys2Proof

/-! ## Register fields -/

theorem lowField_toNat {width n : Nat} (hw : width ≤ 32) (hn : n < 2 ^ width) : (lowField width n).toNat = n := by
  have h32 : n < 2 ^ 32 := hn.trans_le (Nat.pow_le_pow_right (by decide) hw)
  rw [lowField, Nat.mod_eq_of_lt hn, BitVec.toNat_ofNat, Nat.mod_eq_of_lt h32]

theorem flagBit_getLsbD (b : Bool) {k : Nat} (hk : k < 32) (j : Nat) : (flagBit b k).getLsbD j = (b && decide (j = k)) := by
  cases b with
  | false => simp [flagBit]
  | true =>
    simp only [flagBit, if_true, BitVec.getLsbD_shiftLeft, BitVec.getLsbD_one, Bool.true_and]
    by_cases hj : j = k
    · simp [hj, hk]
    · simp [hj]; omega

/-- A number of 40 bits is its low word and its high byte. -/
theorem lowField_halves {n : Nat} (hn : n < 2 ^ 40) :
    (lowField 8 (n / 2 ^ 32)).toNat < 256 ∧ (lowField 32 n).toNat + 2 ^ 32 * (lowField 8 (n / 2 ^ 32)).toNat = n := by
  have hhigh : (lowField 8 (n / 2 ^ 32)).toNat = n / 2 ^ 32 := lowField_toNat (by decide) (by omega)
  have hlow : (lowField 32 n).toNat = n % 2 ^ 32 := by simp [lowField]
  omega

theorem State.status_getLsbD (s : State) (k : Nat) : s.status.getLsbD k =
    (s.ftValid && decide (k = 0) || s.tbActive && decide (k = 1) || s.treeValid && decide (k = 2) ||
      s.ctValid && decide (k = 3) || s.curValid && decide (k = 4) || s.nothing && decide (k = 5) ||
      s.errorFlag && decide (k = 6)) := by
  simp [State.status, flagBit_getLsbD]

theorem State.pkState_toNat {s : State} (hn : s.nacc < 8) : s.pkState.toNat = s.acc.toNat + 256 * s.nacc := by
  have hnacc : (lowField 3 s.nacc).toNat = s.nacc := lowField_toNat (by decide) hn
  have hacc := s.acc.isLt
  have hshift : (lowField 3 s.nacc <<< 8).toNat = s.nacc <<< 8 := by
    rw [BitVec.toNat_shiftLeft, hnacc, Nat.mod_eq_of_lt]
    rw [Nat.shiftLeft_eq]; omega
  rw [State.pkState, BitVec.toNat_or, hshift, BitVec.toNat_setWidth, Nat.mod_eq_of_lt (by omega), Nat.or_comm,
    ← Nat.shiftLeft_add_eq_or_of_lt hacc, Nat.shiftLeft_eq]
  omega

theorem State.register_reserved (s : State) {r : Nat} (h : 18 < r) : s.register r = none := by
  obtain ⟨k, rfl⟩ := Nat.exists_eq_add_of_le' (Nat.succ_le_of_lt h)
  rfl

/-! ## The widths that the invariant gives (10_state.md R36) -/

theorem ArenaOk.queue_le {nodes : List Node} {inq : List Nat} (h : ArenaOk nodes inq) : inq.length ≤ nodes.length := by
  have hlen := h.owned.length_eq
  simp only [List.length_append, List.length_range] at hlen
  omega

/-- The cursor stays inside the input buffer, of at most 2^24 bytes (R37). -/
theorem State.Inv.cursor_le {s : State} (h : s.Inv) : s.rpos ≤ 2 ^ 24 ∧ s.bpos ≤ 2 ^ 27 := by
  obtain ⟨-, hcap, -, -⟩ := h.bounded
  have hin := h.input
  cases hc : s.curValid with
  | false =>
    obtain ⟨hr, hb, -⟩ := h.noCursor hc
    omega
  | true =>
    obtain ⟨hr, hb⟩ := h.cursor hc
    omega

/-- The fields whose width is no clause of the invariant fit all the same. -/
structure State.Fits (s : State) : Prop where
  ilen : s.ilen < 2 ^ 25
  olen : s.olen < 2 ^ 25
  nsym : s.nsym < 2 ^ 9
  nextId : s.nextId < 2 ^ 10
  pqLen : s.pqLen < 2 ^ 9
  rpos : s.rpos < 2 ^ 25
  bpos : s.bpos < 2 ^ 28
  emitted : s.emitted < 2 ^ 40
  ibufCap : s.cfg.ibufCap < 2 ^ 25
  obufCap : s.cfg.obufCap < 2 ^ 25

theorem State.Inv.fits {s : State} (h : s.Inv) : s.Fits := by
  obtain ⟨-, hi, -, ho⟩ := h.bounded
  obtain ⟨hr, hb⟩ := h.cursor_le
  have hil := h.input
  have hol := h.output
  have hns : s.nsym ≤ 256 := Table.length_le h.table
  have hid := h.arenaSize
  have hpq : s.pqLen ≤ s.nextId := h.arena.queue_le
  have hem := h.emittedBits
  constructor <;> omega

/-! ## The layout -/

/-- The status flags at bits 0 to 6 of `STATUS`. -/
theorem State.status_bits (s : State) : s.status.getLsbD 0 = s.ftValid ∧ s.status.getLsbD 1 = s.tbActive ∧
    s.status.getLsbD 2 = s.treeValid ∧ s.status.getLsbD 3 = s.ctValid ∧ s.status.getLsbD 4 = s.curValid ∧
    s.status.getLsbD 5 = s.nothing ∧ (s.status.getLsbD 6 = true ↔ s.err ≠ none) ∧
    ∀ k, 7 ≤ k → s.status.getLsbD k = false := by
  have herr : s.errorFlag = true ↔ s.err ≠ none := Option.isSome_iff_ne_none
  have hhigh : ∀ k, 7 ≤ k → ∀ j < 7, k ≠ j := by omega
  simp only [State.status_getLsbD]
  simp +contextual [herr, hhigh]

/-- Settles O20: each register's field fits its width (`State.Inv.fits`), so that reading it back gives the field. -/
theorem registerLayout : Obligations.RegisterLayout := by
  refine ⟨fun s h => ⟨fun r => (s.register r).getD 0#32, fun r hr => ?_, ?_⟩, fun s r => s.register_reserved, rfl,
    fun r h1 h2 => ?_⟩
  · interval_cases r <;> rfl
  · obtain ⟨hil, hol, hns, hid, hpq, hrp, hbp, hem, hic, hoc⟩ := h.fits
    obtain ⟨htl, htot⟩ := lowField_halves h.totals
    obtain ⟨hel, hemit⟩ := lowField_halves hem
    have herr : (zext32 s.errCode).toNat = s.errCode.toNat := BitVec.toNat_setWidth_of_le (by decide)
    exact ⟨rfl, s.status_bits, herr, rfl, lowField_toNat (by decide) hil, lowField_toNat (by decide) hol,
      lowField_toNat (by decide) hns, lowField_toNat (by decide) hid, lowField_toNat (by decide) hpq,
      lowField_toNat (by decide) h.roots, htl, htot, lowField_toNat (by decide) hrp, lowField_toNat (by decide) hbp,
      hel, hemit, State.pkState_toNat h.packer.1, lowField_toNat (by decide) hic, lowField_toNat (by decide) hoc⟩
  · interval_cases r <;> rfl

end Sys2Proof.Machine
end

section
/-! SUPPORT. The reads (20_memory.md R80): a read's Operation leaves the state alone and looks at no response given before, so
that the response it appends does not change what it answers when it is issued again. -/

namespace Sys2Proof.Machine

open Sys2Proof

/-! ## Repeatable Operations -/

/-- An Operation that, when it completes, would have done and answered the same after one more response. -/
def Repeatable (op : State → Op (State × Word)) : Prop :=
  ∀ s t v, op s = .ok (t, v) → ∀ e d, op (s.respond e d) = .ok (t.respond e d, v)

/-- A part of the state, or of what is computed from it, that no response changes. -/
def IgnoresResponses {α : Type} (f : State → α) : Prop := ∀ s e d, f (s.respond e d) = f s

theorem repeatable_answer {f : State → Word} (hf : IgnoresResponses f) : Repeatable (fun s => .ok (s, f s)) := by
  intro s t v h e d
  cases h
  simp only [hf s e d]

theorem repeatable_bind {α : Type} {x : State → Op α} {k : α → State → Op (State × Word)} (hx : IgnoresResponses x)
    (hk : ∀ a, Repeatable (k a)) : Repeatable (fun s => x s >>= fun a => k a s) := by
  intro s t v h e d
  obtain ⟨a, ha, h⟩ := Op.bind_ok.1 h
  exact Op.bind_ok.2 ⟨a, (hx s e d).trans ha, hk a s t v h e d⟩

/-- An Operation that answers with a value of the state where there is one, and stops where there is none. -/
theorem repeatable_option {α : Type} {o : State → Option α} {op : State → Op (State × Word)} (ho : IgnoresResponses o)
    (f : α → Word) (stop : Stop) (hsome : ∀ s a, o s = some a → op s = .ok (s, f a))
    (hnone : ∀ s, o s = none → op s = .error stop) : Repeatable op := by
  intro s t v h e d
  cases ha : o s with
  | none => cases (hnone s ha).symm.trans h
  | some a =>
    cases (hsome s a ha).symm.trans h
    exact hsome _ a ((ho s e d).trans ha)

theorem repeatable_ite {c : State → Bool} {op : State → Op (State × Word)} (hc : IgnoresResponses c) (hop : Repeatable op)
    (stop : Stop) : Repeatable (fun s => if c s then op s else .error stop) := by
  intro s t v h e d
  cases hs : c s with
  | false => simp [hs] at h
  | true => simpa [hc s e d, hs] using hop s t v (by simpa [hs] using h) e d

/-! ## The ten reads -/

theorem opRdReg_repeatable (r : BitVec 8) : Repeatable (opRdReg r) :=
  repeatable_bind (fun _ _ _ => rfl) fun _ =>
    repeatable_option (o := fun s => s.register (operand r)) (fun _ _ _ => rfl) id (.raise .illegalCommand)
      (fun s _ h => by simp [h]) (fun s h => by simp [h])

theorem opIrd_repeatable (a : BitVec 24) : Repeatable (opIrd a) :=
  repeatable_bind (fun _ _ _ => rfl) fun _ =>
    repeatable_option (o := fun s => Buffer.read s.ibuf (operand a)) (fun _ _ _ => rfl) zext32 (.raise .illegalCommand)
      (fun s _ h => by simp [h]) (fun s h => by simp [h])

theorem opOrd_repeatable (a : BitVec 24) : Repeatable (opOrd a) :=
  repeatable_bind (fun _ _ _ => rfl) fun _ =>
    repeatable_option (o := fun s => Buffer.read s.obuf (operand a)) (fun _ _ _ => rfl) zext32 (.raise .illegalCommand)
      (fun s _ h => by simp [h]) (fun s h => by simp [h])

theorem opFtRd_repeatable (b : BitVec 8) : Repeatable (opFtRd b) :=
  repeatable_bind (fun _ _ _ => rfl) fun _ => repeatable_answer fun _ _ _ => rfl

theorem opPqRd_repeatable (k : BitVec 8) : Repeatable (opPqRd k) :=
  repeatable_bind (fun _ _ _ => rfl) fun _ => repeatable_ite (fun _ _ _ => rfl)
    (repeatable_option (o := fun s => memberOfRank s.nodes s.inq (operand k)) (fun _ _ _ => rfl) word (.fault .unwrittenNode)
      (fun s _ h => by simp [h]) (fun s h => by simp [h])) _

/-- The reads of one node of the arena, whatever they answer of it. -/
theorem repeatable_node (n : BitVec 9) (f : Node → Word) :
    Repeatable (fun s => require (nodeInRange n s) .illegalCommand >>= fun _ =>
      nodeAt s.nodes (operand n) >>= fun x => .ok (s, f x)) :=
  repeatable_bind (fun _ _ _ => rfl) fun _ =>
    repeatable_bind (fun _ _ _ => rfl) fun _ => repeatable_answer fun _ _ _ => rfl

theorem opNdRdLink_repeatable (n : BitVec 9) : Repeatable (opNdRdLink n) := repeatable_node n _

theorem opNdRdFlo_repeatable (n : BitVec 9) : Repeatable (opNdRdFlo n) := repeatable_node n _

theorem opNdRdFhi_repeatable (n : BitVec 9) : Repeatable (opNdRdFhi n) := repeatable_node n _

theorem opCtLen_repeatable (b : BitVec 8) : Repeatable (opCtLen b) :=
  repeatable_bind (fun _ _ _ => rfl) fun _ => repeatable_answer fun _ _ _ => rfl

theorem opCtBits_repeatable (b : BitVec 8) (w : BitVec 3) : Repeatable (opCtBits b w) :=
  repeatable_bind (fun _ _ _ => rfl) fun _ => repeatable_answer fun _ _ _ => rfl

/-! ## Reads as commands -/

/-- How a command ends outside the error state when its Operation leaves the state as it is and is repeatable (R80, R106). -/
theorem exec_read {i : Instr} {s t : State} (hframe : ∀ u v, operation i s = .ok (u, v) → u = s)
    (hagain : Repeatable (operation i)) (he : s.err = none) (h : exec i s = .next t) :
    (∃ v, t = s.respond false v ∧ exec i t = .next (t.respond false v)) ∨ ∃ e, t = errorEntry e (encode i) s := by
  rcases exec_next he h with ⟨u, v, hop, rfl⟩ | ⟨e, -, rfl⟩
  · obtain rfl := hframe u v hop
    exact .inl ⟨v, rfl, exec_of_ok he (hagain u u v hop false v)⟩
  · exact .inr ⟨e, rfl⟩

/-- Settles O56: the Operation of each of the ten reads leaves the state as it is and is repeatable. -/
theorem readsChangeNothing : Obligations.ReadsChangeNothing := by
  intro i s t he h hi
  rcases hi with ⟨r, rfl⟩ | ⟨a, rfl⟩ | ⟨a, rfl⟩ | ⟨b, rfl⟩ | ⟨k, rfl⟩ | ⟨n, rfl⟩ | ⟨n, rfl⟩ | ⟨n, rfl⟩ | ⟨b, rfl⟩ | ⟨b, w, rfl⟩
  · exact exec_read (fun _ _ => opRdReg_frame) (opRdReg_repeatable r) he h
  · exact exec_read (fun _ _ => opIrd_frame) (opIrd_repeatable a) he h
  · exact exec_read (fun _ _ => opOrd_frame) (opOrd_repeatable a) he h
  · exact exec_read (fun _ _ => opFtRd_frame) (opFtRd_repeatable b) he h
  · exact exec_read (fun _ _ => opPqRd_frame) (opPqRd_repeatable k) he h
  · exact exec_read (fun _ _ => opNdRdLink_frame) (opNdRdLink_repeatable n) he h
  · exact exec_read (fun _ _ => opNdRdFlo_frame) (opNdRdFlo_repeatable n) he h
  · exact exec_read (fun _ _ => opNdRdFhi_frame) (opNdRdFhi_repeatable n) he h
  · exact exec_read (fun _ _ => opCtLen_frame) (opCtLen_repeatable b) he h
  · exact exec_read (fun _ _ => opCtBits_frame) (opCtBits_repeatable b w) he h

end Sys2Proof.Machine
end

section
/-! SUPPORT. The statements about command words (30_encoding.md R100 to R105, R112): the decoder against the encoder and
against the rows of the opcode map. -/

namespace Sys2Proof

/-! ## From command to word and back -/

/-- Settles O1: a command's word carries its opcode, which picks its arm of the decoder, and its argument, which the arm's
format reads back. -/
theorem decodeEncode : Obligations.DecodeEncode := by
  intro i
  cases i with
  | nop | reset | iclr | oclr | o2i | freq | build | tbInit | tbStep | gencode | pkFlush | upkBit | hdrWr | hdrRd | decSym
  | compress | decompress => simp [encode, decode, decodeC0_zero]
  | pkBit b => simp [encode, decode, decodeC1_append]
  | rdReg x | ipush x | ftRd x | pqRd x | ctLen x | encSym x => simp [encode, decode, decodeC8_append]
  | ndRdLink n | ndRdFlo n | ndRdFhi n => simp [encode, decode, decodeC9_append]
  | ctBits s w => simp [encode, decode, decodeC11_append]
  | ird a | ord a | upkSet a => simp [encode, decode]

/-- Settles O3: the decoder evaluated at each of the words. -/
theorem specWords : Obligations.SpecWords := by
  unfold Obligations.SpecWords
  decide

/-! ## What a row selects -/

theorem Format.opcodeOf_mask (f : Format) : opcodeOf f.mask = BitVec.allOnes 8 := by
  cases f <;> rfl

/-- Every mask keeps the whole opcode, so a row selects only words of its own opcode. -/
theorem Row.opcode_of_selects {r : Row} {w : Word} (h : r.selects w = true) : opcodeOf r.pattern = opcodeOf w := by
  have hp : w &&& r.format.mask = r.pattern := by simpa [Row.selects] using h
  have hm := r.format.opcodeOf_mask
  unfold opcodeOf at hm ⊢
  rw [← hp, BitVec.extractLsb'_and, hm, BitVec.and_allOnes]

theorem opcodes_nodup : (opcodeMap.map fun r => opcodeOf r.pattern).Nodup := by decide

/-- A word is selected by the one row with its opcode or by none. -/
theorem filter_selects {r : Row} {w : Word} (hr : r ∈ opcodeMap) (ho : opcodeOf r.pattern = opcodeOf w) :
    opcodeMap.filter (·.selects w) = if r.selects w then [r] else [] := by
  have honly : ∀ q ∈ opcodeMap, q.selects w = true → q = r := fun q hq hs =>
    List.inj_on_of_nodup_map opcodes_nodup hq hr ((Row.opcode_of_selects hs).trans ho.symm)
  split
  case isTrue hs =>
    have hcount : opcodeMap.count r = 1 := List.count_eq_one_of_mem opcodes_nodup.of_map hr
    have hcongr : opcodeMap.filter (·.selects w) = opcodeMap.filter (· == r) :=
      List.filter_congr fun q hq => by
        by_cases hqr : q = r
        · simp [hqr, hs]
        · rw [Bool.eq_false_iff.2 (mt (honly q hq) hqr), beq_false_of_ne hqr]
    rw [hcongr, List.filter_beq, hcount, List.replicate_one]
  case isFalse hs =>
    refine List.filter_eq_nil_iff.2 fun q hq hsel => hs ?_
    rwa [← honly q hq hsel]

/-- If a mask that keeps the bits from `k` on leaves only the opcode of a word, the word's reserved bits are 0. -/
theorem reserved_of_masked {n k : Nat} (h : n + k = 24) {o : BitVec 8} {a : BitVec 24} {m : Word}
    (hm : ∀ i < 32, m.getLsbD i = decide (k ≤ i)) (hw : assemble o a &&& m = assemble o 0#24) :
    a.extractLsb' k n = 0#n := by
  apply BitVec.eq_of_getLsbD_eq
  intro i hi
  have hlow : k + i < 24 := by omega
  have hbit := congrArg (BitVec.getLsbD · (k + i)) hw
  simp only [assemble, BitVec.getLsbD_and, BitVec.getLsbD_append, hlow, hm (k + i) (by omega)] at hbit
  simpa [hi, hlow] using hbit

/-! ## What the decoder makes of the words with a row's opcode -/

/-- R112 on the words with the row's opcode: those the row selects are the words of its commands, and the others have a
reserved bit set. -/
def Row.Decodes (r : Row) : Prop := ∀ w, opcodeOf r.pattern = opcodeOf w →
  (r.selects w = true ∧ ∃ i, decode w = .ok i ∧ encode i = w ∧ i.mnemonic = r.mnemonic) ∨
  (r.selects w = false ∧ decode w = .error .reservedBits)

section
variable {m : String} {o : BitVec 8}

/-- The arm of the decoder that belongs to a row: its format accepts an argument, which is then a command's, or rejects it
for its bits from `k` on. -/
theorem Row.decodes_of {f : Format} {d : BitVec 24 → Except Reject Instr} {n k : Nat} (h : n + k = 24)
    (hmask : ∀ i < 32, f.mask.getLsbD i = decide (k ≤ i)) (hd : ∀ a, decode (assemble o a) = d a)
    (hok : ∀ a i, d a = .ok i → assemble o a &&& f.mask = assemble o 0#24 ∧ encode i = assemble o a ∧ i.mnemonic = m)
    (herr : ∀ a e, d a = .error e → a.extractLsb' k n ≠ 0#n ∧ e = .reservedBits) :
    Row.Decodes ⟨m, f, assemble o 0#24⟩ := by
  intro w ho
  obtain ⟨a, rfl⟩ : ∃ a, w = assemble o a := ⟨argOf w, (eq_assemble_iff w o _).2 ⟨by simpa using ho.symm, rfl⟩⟩
  cases hda : d a with
  | ok i =>
    obtain ⟨hs, he, hm⟩ := hok a i hda
    exact .inl ⟨by simp [Row.selects, hs], i, (hd a).trans hda, he, hm⟩
  | error e =>
    obtain ⟨hres, rfl⟩ := herr a e hda
    exact .inr ⟨by simpa [Row.selects] using mt (reserved_of_masked h hmask) hres, (hd a).trans hda⟩

/-- What every format rejects, it rejects for its reserved bits. -/
theorem reject_of_ite {c : Prop} [Decidable c] {i : Instr} {e : Reject}
    (h : (if c then Except.ok i else .error .reservedBits) = .error e) : ¬ c ∧ e = .reservedBits := by
  split at h <;> cases h
  exact ⟨‹_›, rfl⟩

theorem Row.decodes_c0 {i : Instr} (he : encode i = assemble o 0#24) (hm : i.mnemonic = m)
    (hd : ∀ a, decode (assemble o a) = decodeC0 a i) : Row.Decodes ⟨m, .c0, assemble o 0#24⟩ :=
  Row.decodes_of (n := 24) (k := 0) rfl (by decide) hd
    (fun _ _ h => by obtain ⟨rfl, rfl⟩ := decodeC0_ok h; exact ⟨masked_c0 o, he, hm⟩)
    (fun a _ h => by simpa using reject_of_ite h)

theorem Row.decodes_c1 {f : BitVec 1 → Instr} (he : ∀ b, encode (f b) = assemble o (0#23 ++ b))
    (hm : ∀ b, (f b).mnemonic = m) (hd : ∀ a, decode (assemble o a) = decodeC1 a f) :
    Row.Decodes ⟨m, .c1, assemble o 0#24⟩ :=
  Row.decodes_of rfl (by decide) hd
    (fun _ _ h => by obtain ⟨b, rfl, rfl⟩ := decodeC1_ok h; exact ⟨masked_c1 o b, he b, hm b⟩)
    (fun _ _ h => reject_of_ite h)

theorem Row.decodes_c8 {f : BitVec 8 → Instr} (he : ∀ b, encode (f b) = assemble o (0#16 ++ b))
    (hm : ∀ b, (f b).mnemonic = m) (hd : ∀ a, decode (assemble o a) = decodeC8 a f) :
    Row.Decodes ⟨m, .c8, assemble o 0#24⟩ :=
  Row.decodes_of rfl (by decide) hd
    (fun _ _ h => by obtain ⟨b, rfl, rfl⟩ := decodeC8_ok h; exact ⟨masked_c8 o b, he b, hm b⟩)
    (fun _ _ h => reject_of_ite h)

theorem Row.decodes_c9 {f : BitVec 9 → Instr} (he : ∀ b, encode (f b) = assemble o (0#15 ++ b))
    (hm : ∀ b, (f b).mnemonic = m) (hd : ∀ a, decode (assemble o a) = decodeC9 a f) :
    Row.Decodes ⟨m, .c9, assemble o 0#24⟩ :=
  Row.decodes_of rfl (by decide) hd
    (fun _ _ h => by obtain ⟨b, rfl, rfl⟩ := decodeC9_ok h; exact ⟨masked_c9 o b, he b, hm b⟩)
    (fun _ _ h => reject_of_ite h)

theorem Row.decodes_c11 {f : BitVec 8 → BitVec 3 → Instr} (he : ∀ s w, encode (f s w) = assemble o (0#13 ++ w ++ s))
    (hm : ∀ s w, (f s w).mnemonic = m) (hd : ∀ a, decode (assemble o a) = decodeC11 a f) :
    Row.Decodes ⟨m, .c11, assemble o 0#24⟩ :=
  Row.decodes_of rfl (by decide) hd
    (fun _ _ h => by obtain ⟨s, w, rfl, rfl⟩ := decodeC11_ok h; exact ⟨masked_c11 o s w, he s w, hm s w⟩)
    (fun _ _ h => reject_of_ite h)

theorem Row.decodes_c24 {f : BitVec 24 → Instr} (he : ∀ a, encode (f a) = assemble o a) (hm : ∀ a, (f a).mnemonic = m)
    (hd : ∀ a, decode (assemble o a) = .ok (f a)) : Row.Decodes ⟨m, .c24, assemble o 0#24⟩ :=
  Row.decodes_of (n := 0) (k := 24) rfl (by decide) hd (fun a _ h => by cases h; exact ⟨masked_c24 o a, he a, hm a⟩) nofun

end

/-- Each row of R104 against its arm of the decoder. -/
theorem rows_decode : ∀ r ∈ opcodeMap, r.Decodes := by
  simp only [opcodeMap, opcodeMapLow, opcodeMapMid, opcodeMapHigh, List.cons_append, List.nil_append, List.forall_mem_cons]
  refine ⟨Row.decodes_c0 (o := 0x00#8) (i := .nop) rfl rfl ?_,
    Row.decodes_c0 (o := 0x01#8) (i := .reset) rfl rfl ?_,
    Row.decodes_c8 (o := 0x02#8) (f := .rdReg) (fun _ => rfl) (fun _ => rfl) ?_,
    Row.decodes_c8 (o := 0x03#8) (f := .ipush) (fun _ => rfl) (fun _ => rfl) ?_,
    Row.decodes_c0 (o := 0x04#8) (i := .iclr) rfl rfl ?_,
    Row.decodes_c24 (o := 0x05#8) (f := .ird) (fun _ => rfl) (fun _ => rfl) ?_,
    Row.decodes_c24 (o := 0x06#8) (f := .ord) (fun _ => rfl) (fun _ => rfl) ?_,
    Row.decodes_c0 (o := 0x07#8) (i := .oclr) rfl rfl ?_,
    Row.decodes_c0 (o := 0x08#8) (i := .o2i) rfl rfl ?_,
    Row.decodes_c0 (o := 0x10#8) (i := .freq) rfl rfl ?_,
    Row.decodes_c8 (o := 0x11#8) (f := .ftRd) (fun _ => rfl) (fun _ => rfl) ?_,
    Row.decodes_c0 (o := 0x20#8) (i := .build) rfl rfl ?_,
    Row.decodes_c0 (o := 0x21#8) (i := .tbInit) rfl rfl ?_,
    Row.decodes_c0 (o := 0x22#8) (i := .tbStep) rfl rfl ?_,
    Row.decodes_c8 (o := 0x23#8) (f := .pqRd) (fun _ => rfl) (fun _ => rfl) ?_,
    Row.decodes_c9 (o := 0x24#8) (f := .ndRdLink) (fun _ => rfl) (fun _ => rfl) ?_,
    Row.decodes_c9 (o := 0x25#8) (f := .ndRdFlo) (fun _ => rfl) (fun _ => rfl) ?_,
    Row.decodes_c9 (o := 0x26#8) (f := .ndRdFhi) (fun _ => rfl) (fun _ => rfl) ?_,
    Row.decodes_c0 (o := 0x30#8) (i := .gencode) rfl rfl ?_,
    Row.decodes_c8 (o := 0x31#8) (f := .ctLen) (fun _ => rfl) (fun _ => rfl) ?_,
    Row.decodes_c11 (o := 0x32#8) (f := .ctBits) (fun _ _ => rfl) (fun _ _ => rfl) ?_,
    Row.decodes_c1 (o := 0x40#8) (f := .pkBit) (fun _ => rfl) (fun _ => rfl) ?_,
    Row.decodes_c0 (o := 0x41#8) (i := .pkFlush) rfl rfl ?_,
    Row.decodes_c24 (o := 0x42#8) (f := .upkSet) (fun _ => rfl) (fun _ => rfl) ?_,
    Row.decodes_c0 (o := 0x43#8) (i := .upkBit) rfl rfl ?_,
    Row.decodes_c0 (o := 0x50#8) (i := .hdrWr) rfl rfl ?_,
    Row.decodes_c0 (o := 0x51#8) (i := .hdrRd) rfl rfl ?_,
    Row.decodes_c8 (o := 0x60#8) (f := .encSym) (fun _ => rfl) (fun _ => rfl) ?_,
    Row.decodes_c0 (o := 0x61#8) (i := .decSym) rfl rfl ?_,
    Row.decodes_c0 (o := 0x62#8) (i := .compress) rfl rfl ?_,
    Row.decodes_c0 (o := 0x63#8) (i := .decompress) rfl rfl ?_,
    List.forall_mem_nil _⟩
  all_goals
    intro a
    simp [decode]

/-- R112 step (1): a word whose opcode no row has. -/
theorem decode_of_no_row {w : Word} (h : ∀ r ∈ opcodeMap, opcodeOf r.pattern ≠ opcodeOf w) :
    decode w = .error .undefinedOpcode := by
  have hno : (opcodeOf w).toNat ∉ opcodeMap.map fun r => (opcodeOf r.pattern).toNat := by
    rintro hmem
    obtain ⟨r, hr, hrw⟩ := List.mem_map.1 hmem
    exact h r hr (BitVec.eq_of_toNat_eq hrw)
  unfold decode
  split
  case h_32 => rfl
  all_goals
    rename_i ho
    exact absurd (by rw [ho]; decide) hno

/-- Settles O2, by whether a row has the word's opcode: if one has, it alone can select the word, and what the decoder makes
of the word is `rows_decode`; if none has, none selects it. -/
theorem wordsAndRows : Obligations.WordsAndRows := by
  intro w
  by_cases hrow : ∃ r ∈ opcodeMap, opcodeOf r.pattern = opcodeOf w
  · obtain ⟨r, hr, ho⟩ := hrow
    have hrows := filter_selects hr ho
    rcases rows_decode r hr w ho with ⟨hs, i, hd, he, hm⟩ | ⟨hs, hd⟩
    · refine ⟨fun j hj => ?_, fun e he => nomatch hd.symm.trans he⟩
      cases hd.symm.trans hj
      exact ⟨he, r, by simpa [hs] using hrows, hm.symm⟩
    · refine ⟨fun j hj => (nomatch hd.symm.trans hj), fun e he => ?_⟩
      cases hd.symm.trans he
      exact ⟨by simpa [hs] using hrows, nofun, fun hno => absurd ho (hno r hr)⟩
  · have hno : ∀ r ∈ opcodeMap, opcodeOf r.pattern ≠ opcodeOf w := fun r hr ho => hrow ⟨r, hr, ho⟩
    have hd := decode_of_no_row hno
    refine ⟨fun j hj => (nomatch hd.symm.trans hj), fun e he => ?_⟩
    cases hd.symm.trans he
    exact ⟨List.filter_eq_nil_iff.2 fun r hr hs => hno r hr (Row.opcode_of_selects hs), fun _ => hno, fun _ => rfl⟩

end Sys2Proof
end

section
/-! SUPPORT. The statements about one step and its response (30_encoding.md R105 to R107, R112; 60_exceptions.md R271): an
illegal word, and what every step appends to the response port. -/

namespace Sys2Proof.Machine

open Sys2Proof

/-! ## Illegal words -/

/-- Settles O7: the step of a word that does not decode is `runIllegal`, gated like any command; with no word it is idle. -/
theorem illegalWords : Obligations.IllegalWords := by
  refine ⟨fun s w ws r hc hd => ?_, fun s hc => step_idle hc⟩
  rw [step_of_decode_error hc hd]
  refine ⟨fun he => ?_, fun e he => ?_⟩
  · simp [runIllegal, runGated, he, conclude]
  · simp [runIllegal, runGated, he, ignored, State.errCode]

/-! ## How a step ends -/

/-- The step from `s` that answers with an error: error entry, or the recorded error again (R106, R107). -/
def Refused (w : Word) (s t : State) : Prop := (∃ e, t = errorEntry e w s) ∨ (s.err ≠ none ∧ t = ignored s)

theorem runGated_next {w : Word} {op : State → Op (State × Word)} {s t : State} (h : runGated w op s = .next t) :
    (s.err = none ∧ ∃ u v, op s = .ok (u, v) ∧ t = u.respond false v) ∨ Refused w s t := by
  cases he : s.err with
  | none =>
    simp only [runGated, he] at h
    rcases conclude_next h with hok | ⟨e, -, ht⟩
    · exact .inl ⟨rfl, hok⟩
    · exact .inr (.inl ⟨e, ht⟩)
  | some e =>
    simp only [runGated, he] at h
    cases h
    exact .inr (.inr ⟨by simp [he], rfl⟩)

/-- How any command ends, in the error state or outside it. -/
theorem exec_ends {i : Instr} {s t : State} (h : exec i s = .next t) :
    ((s.err = none ∨ runsInErrorState i = true) ∧ ∃ u v, operation i s = .ok (u, v) ∧ t = u.respond false v) ∨
      Refused (encode i) s t := by
  rw [exec_eq] at h
  split at h
  case isTrue hr =>
    rcases conclude_next h with hok | ⟨e, -, ht⟩
    · exact .inl ⟨.inr hr, hok⟩
    · exact .inr (.inl ⟨e, ht⟩)
  case isFalse => exact (runGated_next h).imp_left fun ⟨he, hok⟩ => ⟨.inl he, hok⟩

/-- One response is added, the ports and parameters are otherwise as they were; `keeps` is what a response without an error
may rest on when an error stays recorded (R106, R107). -/
def Answers (keeps : Prop) (s t : State) : Prop :=
  t.cmds = s.cmds ∧ t.cfg = s.cfg ∧
    ∃ r : Response, t.resps = s.resps ++ [r] ∧ (r.err = true → t.err ≠ none ∧ r.data = zext32 t.errCode) ∧
      (r.err = false → t.err = none ∨ (t.err = s.err ∧ keeps))

theorem Refused.answers {w : Word} {s t : State} (keeps : Prop) (h : Refused w s t) : Answers keeps s t := by
  rcases h with ⟨e, rfl⟩ | ⟨he, rfl⟩
  · exact ⟨rfl, rfl, _, rfl, fun _ => ⟨nofun, rfl⟩, nofun⟩
  · exact ⟨rfl, rfl, _, rfl, fun _ => ⟨he, rfl⟩, nofun⟩

theorem exec_answers {i : Instr} {s t : State} (h : exec i s = .next t) :
    Answers (i = .nop ∨ ∃ n, i = .rdReg n) s t := by
  rcases exec_ends h with ⟨hruns, u, v, hop, rfl⟩ | href
  · by_cases hi : i = .reset
    · subst hi
      cases hop
      exact ⟨rfl, rfl, _, rfl, nofun, fun _ => .inl rfl⟩
    · obtain ⟨hcfg, hcmds, hresps, herr, -⟩ := operation_outside hi hop
      refine ⟨hcmds, hcfg, ⟨false, v⟩, by simp [hresps], nofun, fun _ => ?_⟩
      rcases hruns with he | hr
      · exact .inl (herr.trans he)
      · refine .inr ⟨herr, ?_⟩
        cases i <;> simp_all [runsInErrorState]
  · exact href.answers _

/-- Settles O8: the word taken, the step is a command's, which answers once (`exec_answers`), or that of an illegal word,
which is refused. -/
theorem oneResponse : Obligations.OneResponse := by
  intro s t w ws hc h
  cases hd : decode w with
  | ok i =>
    obtain ⟨hcmds, hcfg, r, hresps, herr, hok⟩ := exec_answers (step_of_decode_ok hc hd ▸ h)
    exact ⟨hcmds, hcfg, r, hresps, herr, fun hr => (hok hr).imp_right fun ⟨he, hi⟩ => ⟨he, i, rfl, hi⟩⟩
  | error e =>
    rcases runGated_next (step_of_decode_error hc hd ▸ h) with ⟨-, u, v, hop, -⟩ | href
    · cases hop
    · exact href.answers _

end Sys2Proof.Machine
end

section
/-! SUPPORT. The statements about the assembler (30_encoding.md R110, R111): the examples, and the pseudo-instructions from
their text to their words. -/

namespace Sys2Proof

/-- Settles O4: the assembler evaluated at each of the lines. -/
theorem assemblerExamples : Obligations.AssemblerExamples := by
  unfold Obligations.AssemblerExamples
  decide

/-! ## Pushed bytes -/

theorem encode_ipush (b : Byte) : encode (.ipush b) = 0x03000000#32 ||| zext32 b := by
  apply BitVec.eq_of_toNat_eq
  rw [encode, assemble, BitVec.toNat_append, BitVec.toNat_append, BitVec.toNat_or, BitVec.toNat_setWidth_of_le (by decide)]
  simp

theorem number_field (b : Byte) : (AsmOperand.number b.toNat).field 8 = some b := by
  simp [AsmOperand.field, AsmOperand.value, b.isLt]

theorem character_field {c : Char} (h : c.toNat < 128) :
    (AsmOperand.character c).field 8 = some (BitVec.ofNat 8 c.toNat) := by
  have h8 : c.toNat < 256 := by omega
  simp [AsmOperand.field, AsmOperand.value, asciiValue, h, h8]

theorem assembleLine_ipushb (bytes : List Byte) :
    assembleLine (.ipushb (bytes.map fun b => .number b.toNat)) =
      some (bytes.map fun b => 0x03000000#32 ||| zext32 b) := by
  simp [assembleLine, assemblePushes_map _ id bytes (fun b _ => number_field b), encode_ipush]

theorem assembleLine_ipushs {text : List Char} (h : ∀ c ∈ text, c.toNat < 128) :
    assembleLine (.ipushs text) = some (text.map fun c => 0x03000000#32 ||| word c.toNat) := by
  have hword : ∀ c ∈ text, zext32 (BitVec.ofNat 8 c.toNat) = word c.toNat := by
    intro c hc
    have h8 : c.toNat < 256 := (h c hc).trans (by decide)
    apply BitVec.eq_of_toNat_eq
    simp [Nat.mod_eq_of_lt h8]
  simp +contextual [assembleLine, assemblePushes_map _ _ text (fun c hc => character_field (h c hc)), encode_ipush, hword]

/-! ## Lines of text -/

/-- A hexadecimal digit as the statement writes it. -/
def hexDigit (d : Nat) : Char := (Nat.digitChar d).toUpper

theorem hexDigit_spec : ∀ d < 16, Plain (hexDigit d) ∧ digitValue 16 (hexDigit d) = some d := by
  unfold Plain
  decide

/-- A byte as `0x` and two hexadecimal digits. -/
def hexByte (b : Byte) : List Char := ['0', 'x', hexDigit (b.toNat / 16), hexDigit (b.toNat % 16)]

theorem hexByte_plain (b : Byte) : ∀ c ∈ hexByte b, Plain c := by
  obtain ⟨hhigh, -⟩ := hexDigit_spec (b.toNat / 16) (by omega)
  obtain ⟨hlow, -⟩ := hexDigit_spec (b.toNat % 16) (by omega)
  have hstart : Plain '0' ∧ Plain 'x' := by unfold Plain; decide
  simp [hexByte, hhigh, hlow, hstart]

theorem tokenOperand_hexByte (b : Byte) : tokenOperand 16 (.chars (hexByte b)) = some (.number b.toNat) := by
  obtain ⟨-, hhigh⟩ := hexDigit_spec (b.toNat / 16) (by omega)
  obtain ⟨-, hlow⟩ := hexDigit_spec (b.toNat % 16) (by omega)
  simp [tokenOperand, hexByte, numberValue, digitsValue, hhigh, hlow, Nat.div_add_mod]

theorem spaceOperands_hexBytes (bytes : List Byte) :
    spaceOperands (bytes.map fun b => .chars (hexByte b)) = some (bytes.map fun b => .number b.toNat) := by
  induction bytes with
  | nil => rfl
  | cons b bytes ih => simp [spaceOperands, tokenOperand_hexByte, ih]

theorem scanLine_ipushb (bytes : List Byte) :
    scanLine ("IPUSHB".toList ++ bytes.flatMap fun b => ' ' :: hexByte b) .between [] =
      some (.chars "IPUSHB".toList :: bytes.map fun b => .chars (hexByte b)) := by
  have hchunks := scanLine_chunks (bytes.map hexByte) (by simpa [hexByte] using fun b _ => hexByte_plain b) "IPUSHB".toList []
  rw [List.flatMap_map, List.map_cons, List.map_map] at hchunks
  exact hchunks

theorem assembleText_ipushb (bytes : List Byte) :
    assembleText ("IPUSHB".toList ++ bytes.flatMap fun b => ' ' :: hexByte b) =
      some (bytes.map fun b => 0x03000000#32 ||| zext32 b) := by
  rw [assembleText, scanLine_ipushb]
  simp [parseLine, spaceOperands_hexBytes, assembleLine_ipushb]

theorem assembleText_ipushs {text : List Char} (h : ∀ c ∈ text, c.toNat < 128 ∧ c ≠ asmDoubleQuote) :
    assembleText ("IPUSHS ".toList ++ asmDoubleQuote :: (text ++ [asmDoubleQuote])) =
      some (text.map fun c => 0x03000000#32 ||| word c.toNat) := by
  have hscan : scanLine ("IPUSHS ".toList ++ asmDoubleQuote :: (text ++ [asmDoubleQuote])) .between [] =
      some [.chars "IPUSHS".toList, .text text] :=
    scanLine_text text (fun c hc => (h c hc).2) [] [.chars "IPUSHS".toList]
  rw [assembleText, hscan]
  exact assembleLine_ipushs fun c hc => (h c hc).1

/-- Settles O5: the two pushes of a parsed line and of a line's text by the lemmas above, the rest by evaluation. -/
theorem pseudoInstructions : Obligations.PseudoInstructions :=
  ⟨assembleLine_ipushb, fun _ => assembleLine_ipushs, fun _ => assembleText_ipushs, fun bytes _ => assembleText_ipushb bytes,
    by decide, by decide, by decide, by decide, by decide, by decide⟩

end Sys2Proof
end

section
/-! SUPPORT. The statements about the system and buffer commands (40_system_buffer.md R131 to R139): the word of each, the
words it leaves illegal, and the whole next state. -/

namespace Sys2Proof

/-! ## The words of a command -/

/-- A command has one word only (R104). -/
theorem decode_ok_iff {w : Word} {i : Instr} : decode w = .ok i ↔ w = encode i := by
  constructor
  · intro h
    exact ((wordsAndRows w).1 i h).1.symm
  · rintro rfl
    exact decodeEncode i

/-- A word is its opcode's word with the argument set in it. -/
theorem assemble_eq_or (o : BitVec 8) (a : BitVec 24) : assemble o a = assemble o 0#24 ||| a.setWidth 32 := by
  apply BitVec.eq_of_getLsbD_eq
  intro k hk
  simp only [assemble, BitVec.getLsbD_or, BitVec.getLsbD_append, BitVec.getLsbD_setWidth, BitVec.getLsbD_zero]
  by_cases h : k < 24
  · simp [h, hk]
  · simp [h, BitVec.getLsbD_of_ge a k (by omega)]

/-- Format C0 accepts the word of the opcode alone. -/
theorem decodeC0_word {w : Word} {o : BitVec 8} (ho : opcodeOf w = o) (i : Instr) :
    decodeC0 (argOf w) i = if w = assemble o 0#24 then .ok i else .error .reservedBits := by
  simp [decodeC0, eq_assemble_iff, ho]

/-- Format C8 accepts the words with bits 23:8 clear. -/
theorem decodeC8_word (w : Word) (f : BitVec 8 → Instr) : decodeC8 (argOf w) f =
    if w.extractLsb' 8 16 = 0#16 then .ok (f (w.extractLsb' 0 8)) else .error .reservedBits := by
  have hhigh : (argOf w).extractLsb' 8 16 = w.extractLsb' 8 16 := BitVec.extractLsb'_extractLsb'_of_le (by decide)
  have hlow : (argOf w).extractLsb' 0 8 = w.extractLsb' 0 8 := BitVec.extractLsb'_extractLsb'_of_le (by decide)
  rw [decodeC8, hhigh, hlow]

end Sys2Proof

namespace Sys2Proof.Machine

open Sys2Proof

/-! ## A requirement at the head of an Operation -/

theorem require_bind_true {α : Type} {c : Bool} {e : ErrCode} {f : Unit → Op α} (h : c = true) :
    (require c e >>= f) = f () := by
  rw [require_true h, Op.ok_bind]

theorem require_bind_false {α : Type} {c : Bool} {e : ErrCode} {f : Unit → Op α} (h : c = false) :
    (require c e >>= f) = raise e := by
  rw [require_false h, Op.error_bind]

/-! ## `NOP` and `RESET` -/

/-- Settles O17: format C0 on opcode 0x00, the step of an illegal word, and `NOP` by evaluation. -/
theorem nopDoesNothing : Obligations.NopDoesNothing := by
  refine ⟨fun w ho => ?_, fun s => rfl⟩
  have hd : decode w = if w = 0x00000000#32 then .ok .nop else .error .reservedBits := by
    rw [decode, opcodeOf, ho]
    exact decodeC0_word ho .nop
  refine ⟨hd, fun s ws hw hc he => ?_⟩
  exact (illegalWords.1 s w ws .reservedBits hc (hd.trans (if_neg hw))).1 he

theorem State.atReset_isReset (cfg : Config) (cmds : List Word) (resps : List Response) :
    (State.atReset cfg cmds resps).IsReset where
  lengths := ⟨rfl, rfl⟩
  table := ⟨fun _ => ⟨rfl, rfl⟩, rfl⟩
  tree := ⟨rfl, rfl, fun _ => List.not_mem_nil, rfl, rfl⟩
  codes := ⟨fun _ => rfl, rfl⟩
  packer := ⟨rfl, rfl⟩
  cursor := ⟨rfl, rfl, rfl⟩
  error := ⟨rfl, rfl⟩
  flags := ⟨rfl, rfl, rfl, rfl, rfl, rfl⟩

/-- Settles O18: format C0 on opcode 0x01 and the step of an illegal word; `RESET` leaves the block as `State.atReset` has
it, and so does hardware reset. -/
theorem resetState : Obligations.ResetState := by
  refine ⟨fun w ho => ?_, fun s => ?_, State.atReset_isReset _ _ _, rfl, rfl, rfl, rfl⟩
  · have hd : decode w = if w = 0x01000000#32 then .ok .reset else .error .reservedBits := by
      rw [decode, opcodeOf, ho]
      exact decodeC0_word ho .reset
    exact ⟨hd, fun s ws hw hc => illegalWords.1 s w ws .reservedBits hc (hd.trans (if_neg hw))⟩
  · exact ⟨errorReturn s, rfl, State.atReset_isReset _ _ _, rfl, rfl, rfl⟩

/-! ## `RD_REG` -/

theorem State.register_of_le (s : State) {r : Nat} (h : r ≤ 18) : ∃ v, s.register r = some v := by
  interval_cases r <;> exact ⟨_, rfl⟩

theorem execRdReg_of_le {r : BitVec 8} {s : State} {v : Word} (hr : r.toNat ≤ 18) (hv : s.register r.toNat = some v) :
    exec (.rdReg r) s = .next (s.respond false v) := by
  have hin : registerInRange r = true := decide_eq_true hr
  have hop : opRdReg r s = .ok (s, v) := by simp [opRdReg, require_bind_true hin, operand, hv]
  rw [exec_eq, runsInErrorState, if_pos hin, runAlways, operation, hop, conclude]

/-- Settles O19: format C8 on opcode 0x02 and the step of an illegal word; in range the register has a value and the command
runs in any state, out of range it is gated. -/
theorem readRegister : Obligations.ReadRegister := by
  refine ⟨fun w ho => ?_, fun r s => ⟨fun hr => ?_, fun hr he => ?_, fun e hr he => ?_⟩⟩
  · have hd : decode w =
        if w.extractLsb' 8 16 = 0#16 then .ok (.rdReg (w.extractLsb' 0 8)) else .error .reservedBits := by
      rw [decode, opcodeOf, ho]
      exact decodeC8_word w .rdReg
    exact ⟨hd, fun s ws hw hc => illegalWords.1 s w ws .reservedBits hc (hd.trans (if_neg hw))⟩
  · obtain ⟨v, hv⟩ := s.register_of_le hr
    exact ⟨v, hv, execRdReg_of_le hr hv⟩
  · exact exec_of_raise he (require_bind_false (decide_eq_false (Nat.not_le.2 hr)))
  · exact exec_gated he (decide_eq_false (Nat.not_le.2 hr))

/-! ## The input buffer and the output buffer -/

/-- Settles O21, by whether `IBUF` has room. -/
theorem inputPush : Obligations.InputPush := by
  refine fun b => ⟨fun w => by rw [decode_ok_iff, encode_ipush], fun s he => ⟨fun hroom => ?_, fun hfull => ?_⟩⟩
  · refine exec_of_ok he ((require_bind_true (decide_eq_true hroom)).trans ?_)
    simp [State.ilen]
  · exact exec_of_raise he (require_bind_false (decide_eq_false (Nat.not_lt.2 hfull)))

/-- Settles O22: neither command requires anything. -/
theorem clearBuffers : Obligations.ClearBuffers :=
  ⟨fun _ => decode_ok_iff, fun _ => decode_ok_iff, fun _ he => ⟨exec_of_ok he rfl, exec_of_ok he rfl⟩⟩

theorem opIrd_of_getElem? {a : BitVec 24} {s : State} {b : Byte} (h : s.ibuf[a.toNat]? = some b) :
    opIrd a s = .ok (s, zext32 b) := by
  have hin : irdInRange a s = true := decide_eq_true (List.getElem?_eq_some_iff.1 h).1
  rw [opIrd, require_bind_true hin, Buffer.read, operand, h]

theorem opOrd_of_getElem? {a : BitVec 24} {s : State} {b : Byte} (h : s.obuf[a.toNat]? = some b) :
    opOrd a s = .ok (s, zext32 b) := by
  have hin : ordInRange a s = true := decide_eq_true (List.getElem?_eq_some_iff.1 h).1
  rw [opOrd, require_bind_true hin, Buffer.read, operand, h]

/-- Settles O23, by whether the index is below the buffer's length. -/
theorem readBuffers : Obligations.ReadBuffers := by
  refine fun a => ⟨fun w => ?_, fun w => ?_, fun s he => ⟨fun h => ?_, fun h => ?_, fun h => ?_, fun h => ?_⟩⟩
  · rw [decode_ok_iff, encode, assemble_eq_or]; rfl
  · rw [decode_ok_iff, encode, assemble_eq_or]; rfl
  · have hb := List.getElem?_eq_getElem (l := s.ibuf) h
    exact ⟨_, hb, exec_of_ok he (opIrd_of_getElem? hb)⟩
  · exact exec_of_raise he (require_bind_false (decide_eq_false (Nat.not_lt.2 h)))
  · have hb := List.getElem?_eq_getElem (l := s.obuf) h
    exact ⟨_, hb, exec_of_ok he (opOrd_of_getElem? hb)⟩
  · exact exec_of_raise he (require_bind_false (decide_eq_false (Nat.not_lt.2 h)))

/-- Settles O24, by whether the output fits the input buffer. -/
theorem outputToInput : Obligations.OutputToInput := by
  refine ⟨fun w => decode_ok_iff, fun s he => ⟨fun hfits => ?_, fun hover => ?_⟩⟩
  · exact exec_of_ok he (require_bind_true (decide_eq_true hfits))
  · exact exec_of_raise he (require_bind_false (decide_eq_false (Nat.not_le.2 hover)))

end Sys2Proof.Machine
end

section
/-! SUPPORT. The statements about every command of a family (40_system_buffer.md R130; 70_reset_and_hazards.md R304): that a
step completes, and which fields a completed command changes. -/

namespace Sys2Proof.Machine

open Sys2Proof

/-! ## Every step completes -/

theorem runIllegal_total (w : Word) (s : State) : ∃ t, runIllegal w s = .next t := by
  cases he : s.err with
  | none => exact ⟨_, by rw [runIllegal, runGated, he]; rfl⟩
  | some e => exact ⟨_, by rw [runIllegal, runGated, he]⟩

/-- Settles O55, by what the word at the head of the port is: none, the word of a command, which faults in no state of the
invariant (`exec_total`), or an illegal word. -/
theorem stepsComplete : Obligations.StepsComplete := by
  intro s h
  cases hc : s.cmds with
  | nil => exact ⟨s, step_idle hc⟩
  | cons w ws =>
    cases hd : decode w with
    | ok i => simpa only [step_of_decode_ok hc hd] using exec_total (inv_ports h ws s.resps)
    | error r => simpa only [step_of_decode_error hc hd] using runIllegal_total w _

/-! ## Frames: the input, the cursor -/

/-- What is appended to a buffer changes no index outside the new part. -/
theorem Buffer.read_append_outside (buf more : List Byte) {a : Nat} (h : a < buf.length ∨ (buf ++ more).length ≤ a) :
    Buffer.read (buf ++ more) a = Buffer.read buf a := by
  rcases h with hlt | hge
  · exact Buffer.read_append_left buf more hlt
  · have hbuf : buf.length ≤ a := (List.sublist_append_left buf more).length_le.trans hge
    rw [(Buffer.read_eq_none_iff _ a).2 hge, (Buffer.read_eq_none_iff _ a).2 hbuf]

/-- Settles O57: the state each Operation answers with when it completes. -/
theorem bufferFrame : Obligations.BufferFrame := by
  refine fun s t he ht => ⟨fun b h => ?_, fun h => ?_, fun h => ?_, fun h => ?_, fun n h => ?_, fun h => ?_⟩ <;>
    obtain ⟨u, v, hop, rfl⟩ := exec_completed he h ht
  · obtain ⟨-, -, hop⟩ := Op.bind_ok.1 hop
    cases hop
    refine ⟨rfl, fun a ha => Buffer.read_append_outside s.ibuf [b] ?_⟩
    rw [State.ilen] at ha
    rw [List.length_append, List.length_singleton]
    omega
  · cases hop; rfl
  · cases hop; rfl
  · obtain ⟨-, -, hop⟩ := Op.bind_ok.1 hop
    cases hop
    exact ⟨rfl, fun a => ⟨rfl, rfl⟩⟩
  · obtain ⟨-, -, hop⟩ := Op.bind_ok.1 hop
    cases hop; rfl
  · obtain ⟨-, -, hop⟩ := Op.bind_ok.1 hop
    split at hop <;> cases hop <;> rfl

/-! ## Frames: the output -/

/-- `PK_BIT`, `PK_FLUSH` and `ENC_SYM` append to the output and change the packer (R202, R203, R240). -/
theorem packed_of_operation {i : Instr} (hi : (∃ b, i = .pkBit b) ∨ i = .pkFlush ∨ ∃ b, i = .encSym b) {s t : State}
    {v : Word} (h : operation i s = .ok (t, v)) : Packed s t := by
  rcases hi with ⟨b, rfl⟩ | rfl | ⟨b, rfl⟩ <;> obtain ⟨u, hu, h⟩ := Op.bind_ok.1 h <;> cases h
  · exact packBit_frame hu
  · exact doPkFlush_frame hu
  · exact doEncSym_frame hu

theorem opHdrWr_frame {s t : State} {v : Word} (h : opHdrWr s = .ok (t, v)) :
    t = { s with obuf := s.obuf ++ headerBytes s.cfg.byteOrder s.ft } := by
  obtain ⟨u, hu, h⟩ := Op.bind_ok.1 h
  cases h
  exact doHdrWr_frame hu

/-- A command that stores to the output appends to it (20_memory.md R76). -/
theorem obuf_of_operation {i : Instr} (hi : (∃ b, i = .pkBit b) ∨ i = .pkFlush ∨ (∃ b, i = .encSym b) ∨ i = .hdrWr ∨
    i = .decSym) {s t : State} {v : Word} (h : operation i s = .ok (t, v)) : ∃ more, t.obuf = s.obuf ++ more := by
  have hpacked : Packed s t → ∃ more, t.obuf = s.obuf ++ more := by
    rintro ⟨more, acc, nacc, rfl⟩
    exact ⟨more, rfl⟩
  rcases hi with hi | hi | hi | rfl | rfl
  · exact hpacked (packed_of_operation (.inl hi) h)
  · exact hpacked (packed_of_operation (.inr (.inl hi)) h)
  · exact hpacked (packed_of_operation (.inr (.inr hi)) h)
  · exact ⟨_, congrArg State.obuf (opHdrWr_frame h)⟩
  · obtain ⟨more, bpos, emitted, rfl⟩ := opDecSym_frame h
    exact ⟨more, rfl⟩

/-- Settles O58: the frames of the five Operations; the output is the old one with bytes appended. -/
theorem outputFrame : Obligations.OutputFrame := by
  intro i s t he h ht
  obtain ⟨u, v, hop, rfl⟩ := exec_completed he h ht
  refine ⟨fun hi => ?_, ?_, ?_, fun hi => ?_⟩
  · obtain ⟨more, acc, nacc, rfl⟩ := packed_of_operation hi hop
    rfl
  · rintro rfl
    obtain rfl := opHdrWr_frame hop
    rfl
  · rintro rfl
    obtain ⟨more, bpos, emitted, rfl⟩ := opDecSym_frame hop
    rfl
  · obtain ⟨more, hmore⟩ := obuf_of_operation hi hop
    rw [State.olen, State.olen, State.respond_obuf, hmore]
    exact ⟨by simp, fun a => Buffer.read_append_outside s.obuf more⟩

/-! ## Frames: the stages and the sequencers -/

theorem opFreq_frame {s t : State} {v : Word} (h : opFreq s = .ok (t, v)) : t =
    { s with ft := t.ft, ftValid := t.ftValid, tbActive := t.tbActive, treeValid := t.treeValid,
             ctValid := t.ctValid } := by
  cases h
  rfl

/-- The three commands of the Tree Builder change the arena, the queue, the root and the flags of its stage and the next
(R164 to R166). -/
theorem treeBuilder_frame {i : Instr} (hi : i = .tbInit ∨ i = .tbStep ∨ i = .build) {s t : State} {v : Word}
    (h : operation i s = .ok (t, v)) : t =
    { s with nodes := t.nodes, inq := t.inq, root := t.root, total := t.total, tbActive := t.tbActive,
             treeValid := t.treeValid, ctValid := t.ctValid } := by
  rcases hi with rfl | rfl | rfl <;> obtain ⟨u, hu, h⟩ := Op.bind_ok.1 h <;> cases h
  · obtain ⟨-, -, rfl⟩ := doTbInit_ok hu
    rw [tbInitState_frame]
  · obtain ⟨-, _, _, _, _, _, _, rfl, -⟩ := doTbStep_frame hu
    rfl
  · obtain ⟨-, -, -, -, e⟩ := doBuild_ok hu
    rw [e]

theorem opGencode_frame {s t : State} {v : Word} (h : opGencode s = .ok (t, v)) :
    t = { s with ct := t.ct, ctValid := t.ctValid } := by
  obtain ⟨u, hu, h⟩ := Op.bind_ok.1 h
  cases h
  obtain ⟨-, _, rfl⟩ := doGencode_frame hu
  rfl

theorem opHdrRd_frame {s t : State} {v : Word} (h : opHdrRd s = .ok (t, v)) : t =
    { s with ft := t.ft, ftValid := t.ftValid, tbActive := t.tbActive, treeValid := t.treeValid, ctValid := t.ctValid,
             rpos := t.rpos, bpos := t.bpos, emitted := t.emitted, curValid := t.curValid } := by
  obtain ⟨u, hu, h⟩ := Op.bind_ok.1 h
  cases h
  obtain ⟨_, rfl, -⟩ := doHdrRd_ok hu
  rfl

/-- The six stage commands leave both buffers. -/
theorem stage_keeps_buffers {i : Instr} (hi : i = .freq ∨ i = .tbInit ∨ i = .tbStep ∨ i = .build ∨ i = .gencode ∨
    i = .hdrRd) {s t : State} {v : Word} (h : operation i s = .ok (t, v)) : t.ibuf = s.ibuf ∧ t.obuf = s.obuf := by
  have htree : i = .tbInit ∨ i = .tbStep ∨ i = .build → t.ibuf = s.ibuf ∧ t.obuf = s.obuf := fun hi => by
    rw [treeBuilder_frame hi h]; exact ⟨rfl, rfl⟩
  rcases hi with rfl | hi | hi | hi | rfl | rfl
  · rw [opFreq_frame h]; exact ⟨rfl, rfl⟩
  · exact htree (.inl hi)
  · exact htree (.inr (.inl hi))
  · exact htree (.inr (.inr hi))
  · rw [opGencode_frame h]; exact ⟨rfl, rfl⟩
  · rw [opHdrRd_frame h]; exact ⟨rfl, rfl⟩

/-- Settles O59: the response aside, the frames of the Operations. -/
theorem stageFrame : Obligations.StageFrame := by
  intro i s t he h ht
  obtain ⟨u, v, hop, rfl⟩ := exec_completed he h ht
  refine ⟨?_, fun hi => ?_, ?_, ?_, ?_, ?_, fun hi a => ?_⟩
  · rintro rfl
    rw [opFreq_frame hop]; rfl
  · rw [treeBuilder_frame hi hop]; rfl
  · rintro rfl
    rw [opGencode_frame hop]; rfl
  · rintro rfl
    rw [opHdrRd_frame hop]; rfl
  · rintro rfl
    obtain ⟨w, hw, hop⟩ := Op.bind_ok.1 hop
    cases hop
    rw [doCompress_frame hw]
    rfl
  · rintro rfl
    obtain ⟨w, hw, hop⟩ := Op.bind_ok.1 hop
    cases hop
    rw [doDecompress_frame hw]
    rfl
  · obtain ⟨hibuf, hobuf⟩ := stage_keeps_buffers hi hop
    rw [State.respond_ibuf, State.respond_obuf, hibuf, hobuf]
    exact ⟨rfl, rfl⟩

end Sys2Proof.Machine
end

section
/-! SUPPORT. The Frequency Model's two commands (41_frequency_model.md R150 to R152): the size of the table of exact counts,
and the fields of the response of `FT_RD`. -/

namespace Sys2Proof.Machine

open Sys2Proof

/-! ## `FREQ` -/

/-- `NSYM` after `FREQ` is the number of byte values that occur (R151). -/
theorem countBytes_length (bytes : List Byte) :
    (countBytes bytes).length = (List.range 256).countP (fun k => decide (1 ≤ bytes.count (BitVec.ofNat 8 k))) := by
  have hlisted : ∀ s : Byte, (if bytes.count s = 0 then none else some (s, bytes.count s)).isSome =
      decide (1 ≤ bytes.count s) := by
    intro s
    split
    · next hzero => simp [hzero]
    · next hpos => simp [Nat.one_le_iff_ne_zero.2 hpos]
  rw [countBytes, List.length_filterMap_eq_countP, allSymbols, List.countP_map]
  exact List.countP_congr fun k _ => by rw [Function.comp_apply, hlisted]

theorem countBytes_find_iff (bytes : List Byte) (b : Byte) (c : Nat) :
    (countBytes bytes).find b = some c ↔ c = bytes.count b ∧ 1 ≤ c := by
  rw [Table.find_iff_mem (countBytes_wf bytes), mem_countBytes, Nat.one_le_iff_ne_zero]
  exact ⟨fun ⟨hpos, hc⟩ => ⟨hc, hc ▸ hpos⟩, fun ⟨hc, hpos⟩ => ⟨hc ▸ hpos, hc⟩⟩

/-- Settles O25 with the table `countBytes`: `FREQ` requires nothing. -/
theorem frequencyCount : Obligations.FrequencyCount :=
  ⟨fun _ => decode_ok_iff, fun s he => ⟨countBytes s.ibuf, countBytes_wf _, countBytes_find_iff _, countBytes_length _,
    exec_of_ok he rfl⟩⟩

/-! ## `FT_RD` -/

/-- A word of format C8 is the opcode's word with the symbol in bits 7:0 (30_encoding.md R103). -/
theorem assemble_symbol (o b : BitVec 8) : assemble o (0#16 ++ b) = assemble o 0#24 ||| zext32 b := by
  have hsymbol : (0#16 ++ b).setWidth 32 = zext32 b :=
    BitVec.eq_of_toNat_eq (by rw [BitVec.toNat_setWidth, BitVec.toNat_append]; simp)
  rw [assemble_eq_or, hsymbol]

theorem lowField_eq_word {n : Nat} (h : n < 2 ^ 31) : lowField 31 n = word n := by
  rw [lowField, Nat.mod_eq_of_lt h]

/-- A count of 31 bits leaves bit 31 to the presence flag (R152). -/
theorem tableEntryWord_fields (present : Bool) {count : Nat} (h : count < 2 ^ 31) :
    (tableEntryWord present count).getLsbD 31 = present ∧
      ((tableEntryWord present count).extractLsb' 0 31).toNat = count := by
  obtain ⟨hbit, hlow⟩ := word_of_count h
  have hflag : (flagBit present 31).extractLsb' 0 31 = 0#31 := by cases present <;> rfl
  rw [tableEntryWord, lowField_eq_word h]
  constructor
  · rw [BitVec.getLsbD_or, flagBit_getLsbD present (by decide), hbit]
    simp
  · rw [BitVec.extractLsb'_or, hflag, BitVec.zero_or, hlow]

/-- The invariant bounds the count of every symbol, absent ones included (10_state.md R26, R36). -/
theorem State.Inv.ftf_lt {s : State} (h : s.Inv) (b : Byte) : s.ftf b < 2 ^ 31 := by
  rw [State.ftf]
  cases hf : s.ft.find b with
  | none => decide
  | some c => exact h.counts (b, c) (Table.mem_of_find hf)

/-- Settles O26, by whether there is a table. -/
theorem frequencyRead : Obligations.FrequencyRead := by
  refine fun b => ⟨fun w => ?_, fun s hinv he => ⟨fun hvalid => ?_, fun hinvalid => ?_⟩⟩
  · rw [decode_ok_iff, encode, assemble_symbol]; rfl
  · exact ⟨_, exec_of_ok he (require_bind_true hvalid), tableEntryWord_fields (s.ftv b) (hinv.ftf_lt b)⟩
  · exact exec_of_raise he (require_bind_false hinvalid)

end Sys2Proof.Machine
end

section
/-! SUPPORT. The statements about the Tree Builder (42_tree_builder.md R161 to R172): what each command answers in each of its
cases, and the shape of a finished tree in terms of the arena's entries. -/

namespace Sys2Proof.Machine

open Sys2Proof

/-! ## `TB_INIT` -/

theorem tbInitState_nsym (s : State) : (tbInitState s).nsym = s.nsym := by
  rw [tbInitState_frame]; rfl

theorem tbInitState_pqLen (s : State) : (tbInitState s).pqLen = s.nsym := by
  rw [tbInitState_frame]; exact List.length_range

/-- `TB_INIT` completes on a table with an entry and responds with `NSYM` (R164). -/
theorem exec_tbInit_of_table {s : State} (he : s.err = none) (hv : s.ftValid = true) (hn : 1 ≤ s.nsym) :
    exec .tbInit s = .next ((tbInitState s).respond false (word s.nsym)) := by
  refine exec_of_ok he ?_
  rw [operation, opTbInit, doTbInit_eq hv hn, Op.ok_bind, tbInitState_nsym]

/-- Settles O27, by whether there is a table and how many entries it has. -/
theorem buildStart : Obligations.BuildStart := by
  refine ⟨fun w => decode_ok_iff, fun s hinv => Table.wf_iff_pairwise.1 hinv.table,
    fun s he => ⟨fun hv => ?_, fun hv hn => ?_, fun b f hv hft => ?_, fun hv hn => ?_⟩⟩
  · exact exec_of_raise he (by rw [operation, opTbInit, doTbInit_noTable hv, Op.error_bind])
  · exact exec_of_raise he (by rw [operation, opTbInit, doTbInit_empty hv hn, Op.error_bind])
  · have hone : s.nsym = 1 := by rw [State.nsym, hft, List.length_singleton]
    rw [exec_tbInit_of_table he hv hone.ge]
    simp [tbInitState, hone, hft, leavesOf, freqAt, Node.freq, State.completeBuild]
  · have hmore : s.nsym ≠ 1 := by omega
    rw [exec_tbInit_of_table he hv (by omega)]
    simp [tbInitState, hmore, leavesOf]

/-! ## `TB_STEP` -/

/-- The two minima in R161's own words: by frequency, then by id. -/
theorem TwoMinima.order {s : State} {a b : Nat} (h : TwoMinima s a b) (hnd : s.inq.Nodup) :
    a ∈ s.inq ∧ b ∈ s.inq ∧ a ≠ b ∧
      (∀ j ∈ s.inq, j ≠ a → freqAt s.nodes a < freqAt s.nodes j ∨ (freqAt s.nodes a = freqAt s.nodes j ∧ a < j)) ∧
      (∀ j ∈ s.inq, j ≠ a → j ≠ b →
        freqAt s.nodes b < freqAt s.nodes j ∨ (freqAt s.nodes b = freqAt s.nodes j ∧ b < j)) := by
  obtain ⟨hba, hb⟩ := hnd.mem_erase_iff.1 h.second
  exact ⟨h.first, hb, hba.symm, fun j hj hja => (comesBefore_iff _ _ _).1 (h.least j hj hja),
    fun j hj hja hjb => (comesBefore_iff _ _ _).1 (h.next j (hnd.mem_erase_iff.2 ⟨hja, hj⟩) hjb)⟩

/-- Taking two members out of a queue leaves the members that are neither. -/
theorem erase_erase_eq_filter {inq : List Nat} (hnd : inq.Nodup) (a b : Nat) :
    (inq.erase a).erase b = inq.filter (fun j => j ≠ a ∧ j ≠ b) := by
  rw [(hnd.erase a).erase_eq_filter, hnd.erase_eq_filter, List.filter_filter]
  refine List.filter_congr fun j _ => ?_
  simp [bne, beq_eq_decide, Bool.and_comm]

/-- The response of `TB_STEP` says whether the queue is down to the new node (R165). -/
theorem exec_tbStep_of_minima {s : State} {a b : Nat} (he : s.err = none) (hact : s.tbActive = true)
    (hback : queueBacked s.nodes s.inq = true) (hm : TwoMinima s a b) :
    exec .tbStep s = .next ((mergeState s a b).respond false
      (if s.pqLen = 2 then 0x80000000#32 ||| word s.nextId else word s.nextId)) := by
  refine exec_of_ok he ?_
  have hpos : 1 ≤ s.pqLen - 1 := by
    have := List.length_erase_of_mem hm.first
    have := List.length_pos_of_mem hm.second
    rw [State.pqLen]
    omega
  have hlast : s.pqLen - 1 = 1 ↔ s.pqLen = 2 := by omega
  rw [operation, opTbStep, doTbStep_eq hact hback hm, Op.ok_bind, mergeState_pqLen hm]
  simp only [hlast]

/-- The merge of the last two members completes the build (R165). -/
theorem mergeState_last {s : State} {a b : Nat} (hm : TwoMinima s a b) (h2 : s.pqLen = 2) : mergeState s a b =
    { s with nodes := s.nodes ++ [.internal (freqAt s.nodes a + freqAt s.nodes b) a b], inq := [s.nextId],
             root := s.nextId, total := freqAt s.nodes a + freqAt s.nodes b, treeValid := true, tbActive := false } := by
  have hrest : (s.inq.erase a).erase b = [] := by
    rw [State.pqLen] at h2
    rw [← List.length_eq_zero_iff, List.length_erase_of_mem hm.second, List.length_erase_of_mem hm.first, h2]
  simp [mergeState, hrest, pqInsert, State.pqLen, State.completeBuild]

/-- Any other merge leaves the build in progress. -/
theorem mergeState_more {s : State} {a b : Nat} (hm : TwoMinima s a b) (h2 : s.pqLen ≠ 2) : mergeState s a b =
    { s with nodes := s.nodes ++ [.internal (freqAt s.nodes a + freqAt s.nodes b) a b],
             inq := (s.inq.erase a).erase b ++ [s.nextId] } := by
  have hlen := mergeState_pqLen hm
  rw [State.pqLen, mergeState_inq] at hlen
  have hmore : (pqInsert ((s.inq.erase a).erase b) s.nextId).length ≠ 1 := by omega
  exact if_neg hmore

/-- Settles O28: the two minima are there in a state of the invariant, and what the merge does depends on whether they are
the whole queue. -/
theorem buildStep : Obligations.BuildStep := by
  refine ⟨fun w => decode_ok_iff, fun s hinv he => ⟨fun hact => ?_, fun hact => ?_⟩⟩
  · exact exec_of_raise he (by rw [operation, opTbStep, doTbStep_inactive hact, Op.error_bind])
  · have hb := hinv.inProgress hact
    have hnd := hb.arena.nodup
    obtain ⟨a, b, hm⟩ := twoMinima_exist hb.arena (hb.active.1 hact)
    obtain ⟨ha, hbq, hne, hleast, hnext⟩ := hm.order hnd
    have hexec := exec_tbStep_of_minima he hact hb.arena.queueBacked hm
    refine ⟨a, b, ha, hbq, hne, hleast, hnext, fun h2 => ?_, fun h2 => ?_⟩
    · rw [hexec, mergeState_last hm h2, if_pos h2]
    · rw [hexec, mergeState_more hm h2, if_neg h2, erase_erase_eq_filter hnd]

/-! ## `BUILD` and the commands it is equal to -/

/-- `BUILD` completes on a table with an entry, with a finished tree of it (R166). -/
theorem exec_build_of_table {s : State} (he : s.err = none) (hv : s.ftValid = true) (hn : 1 ≤ s.nsym) :
    ∃ t, doBuild s = .ok t ∧ exec .build s = .next (t.respond false (word t.root)) ∧ Finished t ∧
      t = { s with nodes := t.nodes, inq := t.inq, root := t.root, total := t.total, treeValid := true,
                   tbActive := false, ctValid := false } := by
  obtain ⟨t, ht, hb, h1, hframe⟩ := doBuild_completes hv hn
  exact ⟨t, ht, exec_of_ok he (by rw [operation, opBuild, ht, Op.ok_bind]), hb.finish h1, hframe⟩

theorem exec_build_noTable {s : State} (he : s.err = none) (hv : s.ftValid = false) :
    exec .build s = .next (errorEntry .sequenceError (encode .build) s) :=
  exec_of_raise he (by rw [operation, opBuild, doBuild_noTable hv, Op.error_bind])

theorem exec_build_empty {s : State} (he : s.err = none) (hv : s.ftValid = true) (hn : s.nsym = 0) :
    exec .build s = .next (errorEntry .invalidInput (encode .build) s) :=
  exec_of_raise he (by rw [operation, opBuild, doBuild_empty hv hn, Op.error_bind])

theorem Building.respond {s : State} (h : Building s) (e : Bool) (d : Word) : Building (s.respond e d) :=
  ⟨h.arena, h.belongs, h.table, h.size, h.queued, h.sum, h.active, h.valid, h.finished⟩

/-- `TB_INIT` and then `NSYM − 1` times `TB_STEP` leave what the Operation of `BUILD` leaves, but for the responses (R166). -/
theorem run_tbInit_tbSteps {s t : State} (he : s.err = none) (ht : doBuild s = .ok t) :
    ∃ r, runCommands (.tbInit :: List.replicate (s.nsym - 1) .tbStep) s = some { t with resps := r } := by
  obtain ⟨u, hu, hloop⟩ := Op.bind_ok.1 ht
  obtain ⟨hv, hn, rfl⟩ := doTbInit_ok hu
  have hb := building_tbInit hv hn
  have hloop' := buildLoop_resps _ _ t ((tbInitState s).resps ++ [⟨false, word s.nsym⟩]) hb hloop
  rw [tbInitState_nsym] at hloop'
  rw [runCommands_cons (exec_tbInit_of_table he hv hn)]
  have herr : (tbInitState s).err = none := by rw [tbInitState_frame]; exact he
  have hqueue : (tbInitState s).pqLen = s.nsym - 1 + 1 := by rw [tbInitState_pqLen]; omega
  obtain ⟨r, hr⟩ := run_tbStep _ ((tbInitState s).respond false (word s.nsym)) _ herr (hb.respond _ _) hqueue hloop'
  exact ⟨r, hr⟩

/-- Settles O29, by whether there is a table and whether it has an entry. -/
theorem buildEqualsSteps : Obligations.BuildEqualsSteps := by
  refine ⟨fun w => decode_ok_iff, fun s he => ⟨exec_build_noTable he, exec_build_empty he, fun hv hn => ?_⟩⟩
  obtain ⟨t, ht, hexec, -, hframe⟩ := exec_build_of_table he hv hn
  obtain ⟨r, hrun⟩ := run_tbInit_tbSteps he ht
  exact ⟨t, _, hexec, hrun, rfl, by rw [hframe], by rw [hframe], by rw [hframe]⟩

/-! ## The shape of a finished tree (R171) -/

/-- The entries of the table are the first nodes (R171 (a)). -/
theorem ArenaOf.leaf_of_entry {t : Table Nat} {nodes : List Node} (h : ArenaOf t nodes) {k : Nat} {b : Byte} {f : Nat}
    (hk : t[k]? = some (b, f)) : nodes[k]? = some (.leaf b f) := by
  have hlt : k < t.length := (List.getElem?_eq_some_iff.1 hk).1
  rw [← List.getElem?_take_of_lt hlt, h.leaves, leavesOf, List.getElem?_map, hk]
  rfl

/-- Every node behind the leaves is an Internal. -/
theorem ArenaOf.internal_behind {t : Table Nat} {nodes : List Node} (h : ArenaOf t nodes) {k : Nat} (hk : t.length ≤ k)
    (hlt : k < nodes.length) : ∃ f l r, nodes[k]? = some (.internal f l r) := by
  have hleaf : isLeafAt nodes k = false := by rw [arenaOf_isLeafAt h hlt]; exact decide_eq_false (Nat.not_lt.2 hk)
  rw [List.getElem?_eq_getElem hlt]
  cases hn : nodes[k] with
  | leaf b f => simp [isLeafAt, hlt, hn] at hleaf
  | internal f l r => exact ⟨f, l, r, rfl⟩

/-- Every node but the root is the child of exactly one Internal, and the root of none (10_state.md R31). -/
theorem Finished.count_children {s : State} (h : Finished s) (j : Nat) :
    (s.nodes.flatMap Node.children).count j = if j < s.root then 1 else 0 := by
  have hroot := h.root
  have hlt := h.root_lt
  rw [State.nextId] at hroot hlt
  have hcount := h.arena.owned.count_eq j
  rw [List.count_append, List.count_range, List.count_singleton'] at hcount
  split_ifs at hcount ⊢ <;> omega

/-- Settles O30: a finished tree is a forest over its table with one root. -/
theorem builtTree : Obligations.BuiltTree := by
  intro s he hv hn
  obtain ⟨t, -, hexec, hfin, hframe⟩ := exec_build_of_table he hv hn
  have hft : t.ft = s.ft := by rw [hframe]
  have hnsym : t.nsym = s.nsym := congrArg List.length hft
  have hsize := hfin.size
  have hroot := hfin.root
  refine ⟨t, hexec, hnsym ▸ hsize, by omega, hfin.queue, fun k b f hk => ?_, fun k hk hlt => ?_, hfin.count_children,
    hfin.total, ?_, hframe⟩
  · exact hfin.belongs.leaf_of_entry (hft ▸ hk)
  · obtain ⟨f, l, r, hnode⟩ := hfin.belongs.internal_behind (hnsym.trans_le hk) hlt
    obtain ⟨hl, hr, hne⟩ := hfin.arena.descends k f l r hnode
    exact ⟨f, l, r, hnode, hl, hr, hne, hfin.arena.sums k f l r hnode⟩
  · rw [hfin.sum, hft]; rfl

/-- Settles O31, by whether the table has an entry: two completed builds agree (`doBuild_same`), and two failed ones leave
the same error. -/
theorem treeOfTable : Obligations.TreeOfTable := by
  intro s s' t t' he he' hv hv' hft h h'
  have hnsym : s.nsym = s'.nsym := congrArg List.length hft
  by_cases hn : s.nsym = 0
  · rw [exec_build_empty he hv hn] at h
    rw [exec_build_empty he' hv' (hnsym ▸ hn)] at h'
    cases h; cases h'
    exact ⟨rfl, rfl, nofun, rfl⟩
  · obtain ⟨u, hu, hexec, -, hframe⟩ := exec_build_of_table he hv (Nat.one_le_iff_ne_zero.2 hn)
    obtain ⟨u', hu', hexec', -, hframe'⟩ := exec_build_of_table he' hv' (Nat.one_le_iff_ne_zero.2 (hnsym ▸ hn))
    rw [hexec] at h
    rw [hexec'] at h'
    cases h; cases h'
    obtain ⟨hnodes, hinq, hroot, htotal⟩ := doBuild_same hft hu hu'
    exact ⟨hnodes, hinq, fun _ => ⟨hroot, htotal⟩, by rw [hframe, hframe']; exact he.trans he'.symm⟩

/-! ## `PQ_RD` -/

/-- A rank counts the members that come before in R161's order. -/
theorem rankOf_eq_length_filter (nodes : List Node) (inq : List Nat) (m : Nat) : rankOf nodes inq m =
    (inq.filter fun j => freqAt nodes j < freqAt nodes m ∨ (freqAt nodes j = freqAt nodes m ∧ j < m)).length := by
  rw [rankOf, List.countP_eq_length_filter]
  refine congrArg List.length (List.filter_congr fun j _ => ?_)
  rw [Bool.eq_iff_iff, comesBefore_iff, decide_eq_true_iff]

/-- Settles O32: below the length every rank has its member, in a queue backed by the arena. -/
theorem queueRead : Obligations.QueueRead := by
  refine fun k => ⟨fun w => ?_, fun s hinv he => ⟨fun hk => ?_, fun hk => ?_⟩⟩
  · rw [decode_ok_iff, encode, assemble_symbol]; rfl
  · obtain ⟨m, hmember, hm, hrank⟩ := memberOfRank_exists s.nodes hinv.arena.nodup hk
    refine ⟨m, hm, exec_of_ok he ((require_bind_true (decide_eq_true hk)).trans ?_), ?_⟩
    · rw [if_pos hinv.arena.queueBacked, operand, hmember]
    · rw [← rankOf_eq_length_filter, hrank]
  · exact exec_of_raise he (require_bind_false (decide_eq_false (Nat.not_lt.2 hk)))

/-! ## `ND_RD_LINK`, `ND_RD_FLO` and `ND_RD_FHI` -/

/-- A word of format C9 is the opcode's word with the index in bits 8:0 (30_encoding.md R103). -/
theorem assemble_index (o : BitVec 8) (n : BitVec 9) : assemble o (0#15 ++ n) = assemble o 0#24 ||| n.setWidth 32 := by
  have hindex : (0#15 ++ n).setWidth 32 = n.setWidth 32 :=
    BitVec.eq_of_toNat_eq (by rw [BitVec.toNat_setWidth, BitVec.toNat_append]; simp)
  rw [assemble_eq_or, hindex]

theorem decode_index_iff (o : BitVec 8) {n : BitVec 9} {i : Instr} (hi : encode i = assemble o (0#15 ++ n)) {w : Word} :
    decode w = .ok i ↔ w = (assemble o 0#24 ||| n.setWidth 32) := by
  rw [decode_ok_iff, hi, assemble_index]

/-- The three reads of a node answer with a word of that node. -/
theorem readNode_of_getElem? {n : BitVec 9} {s : State} {x : Node} (hx : s.nodes[n.toNat]? = some x) (f : Node → Word) :
    (require (nodeInRange n s) .illegalCommand >>= fun _ => nodeAt s.nodes (operand n) >>= fun y => Except.ok (s, f y) :
      Op (State × Word)) = .ok (s, f x) := by
  have hin : nodeInRange n s = true := decide_eq_true (List.getElem?_eq_some_iff.1 hx).1
  rw [require_bind_true hin, operand, nodeAt_of_getElem? hx, Op.ok_bind]

/-- Bit 31, the left child in bits 24:16 and the right child in bits 8:0 do not overlap (R168). -/
theorem linkWord_internal_toNat {f l r : Nat} (hl : l < 2 ^ 9) (hr : r < 2 ^ 9) :
    (linkWord (.internal f l r)).toNat = 2 ^ 31 + 2 ^ 16 * l + r := by
  have hleft : (lowField 9 l <<< 16).toNat = l <<< 16 := by
    rw [BitVec.toNat_shiftLeft, lowField_toNat (by decide) hl, Nat.mod_eq_of_lt]
    rw [Nat.shiftLeft_eq]; omega
  have hlow : l <<< 16 ||| r = l <<< 16 + r := (Nat.shiftLeft_add_eq_or_of_lt (hr.trans (by decide)) l).symm
  have hhigh : 1 <<< 31 ||| (l <<< 16 + r) = 1 <<< 31 + (l <<< 16 + r) :=
    (Nat.shiftLeft_add_eq_or_of_lt (by rw [Nat.shiftLeft_eq]; omega) 1).symm
  rw [linkWord, BitVec.toNat_or, BitVec.toNat_or, hleft, lowField_toNat (by decide) hr, Nat.or_assoc, hlow]
  refine hhigh.trans ?_
  rw [Nat.shiftLeft_eq, Nat.shiftLeft_eq]
  omega

/-- Settles O33: a node of the arena answers each read with a word of its own, an index behind the last raises. -/
theorem nodeReads : Obligations.NodeReads := by
  refine fun n => ⟨fun _ => decode_index_iff 0x24#8 rfl, fun _ => decode_index_iff 0x25#8 rfl,
    fun _ => decode_index_iff 0x26#8 rfl, fun s hinv he => ⟨fun b f hx => ?_, fun f l r hx => ?_, fun x hx => ?_,
      fun hn i hi => ?_, fun hn => ?_⟩⟩
  · exact exec_of_ok he (readNode_of_getElem? hx linkWord)
  · obtain ⟨hl, hr, -⟩ := hinv.arena.descends _ f l r hx
    have hindex := n.isLt
    have hl9 : l < 2 ^ 9 := by omega
    have hr9 : r < 2 ^ 9 := by omega
    exact ⟨_, exec_of_ok he (readNode_of_getElem? hx linkWord), linkWord_internal_toNat hl9 hr9, hl9, hr9⟩
  · obtain ⟨hhi, hsum⟩ := lowField_halves (hinv.freqs x (List.mem_of_getElem? hx))
    exact ⟨_, _, exec_of_ok he (readNode_of_getElem? hx fun x => lowField 32 x.freq),
      exec_of_ok he (readNode_of_getElem? hx fun x => lowField 8 (x.freq / 2 ^ 32)), hhi, hsum⟩
  · have hout : nodeInRange n s = false := decide_eq_false (Nat.not_lt.2 hn)
    rcases hi with rfl | rfl | rfl <;> exact exec_of_raise he (require_bind_false hout)
  · exact ⟨_, List.getElem?_eq_getElem hn⟩

end Sys2Proof.Machine
end

section
/-! SUPPORT. The statements about the Code Table Generator (43_code_table.md R191 to R195): what each command answers, and
the Code Table of a complete tree as the list of its paths. -/

namespace Sys2Proof.Machine

open Sys2Proof

/-! ## `GENCODE` -/

/-- Settles O34 with the table `codesOf`, by whether there is a complete tree. -/
theorem generateCodes : Obligations.GenerateCodes := by
  refine ⟨fun w => decode_ok_iff, fun s hinv he => ⟨fun hv => ?_, fun hv => ?_⟩⟩
  · exact exec_of_raise he (by rw [operation, opGencode, doGencode_noTree hv, Op.error_bind])
  · have hfin := hinv.finished hv
    refine ⟨codesOf s, codesOf_wf s, hfin.codes_find hinv.table, hfin.codes_present hinv.table, exec_of_ok he ?_⟩
    rw [operation, opGencode, hfin.gencode hv, Op.ok_bind]
    rfl

/-! ## The codes of a Code Table (R195) -/

/-- A valid Code Table is the one `GENCODE` makes of the complete tree at hand (10_state.md R40). -/
theorem State.Inv.codeTable {s : State} (h : s.Inv) (hc : s.ctValid = true) : Finished s ∧ s.ct = codesOf s := by
  obtain ⟨hv, hct⟩ := ((inv_iff s).1 h).1.coded hc
  exact ⟨h.finished hv, hct⟩

section
variable {s : State} (h : Finished s) (hw : Table.wf s.ft = true)
include h

/-- With at least two symbols no code is the one-bit code of a single Leaf. -/
theorem Finished.codes_eq_paths (h2 : 2 ≤ s.nsym) :
    (treeAt s.nodes s.root).codes s.cfg.singleCodeBit = (treeAt s.nodes s.root).paths := by
  obtain ⟨f, l, r, hroot⟩ := h.root_internal h2
  rw [treeAt_internal h.descends hroot, HTree.codes]

include hw

theorem Finished.codesOf_perm : (codesOf s).Perm ((treeAt s.nodes s.root).codes s.cfg.singleCodeBit) :=
  (List.perm_ext_iff_of_nodup (Table.keys_nodup (codesOf_wf s)).of_map (h.codes_nodup hw).of_map).2
    fun e => h.codes_mem hw e.1 e.2

/-- With at least two symbols the Code Table lists the paths of the tree (R195 (b)). -/
theorem Finished.codesOf_perm_paths (h2 : 2 ≤ s.nsym) : (codesOf s).Perm (treeAt s.nodes s.root).paths :=
  h.codes_eq_paths h2 ▸ h.codesOf_perm hw

theorem Finished.pathTo_of_code (h2 : 2 ≤ s.nsym) {b : Byte} {q : List Bool} (hq : (codesOf s).find b = some q) :
    PathTo s.nodes s.root q b :=
  (pathTo_iff h.descends q s.root b h.root_lt).2 ((h.codesOf_perm_paths hw h2).mem_iff.1 (Table.mem_of_find hq))

/-- The codes fill the code space as the paths of the tree do (R195 (d)). -/
theorem Finished.codes_complete (h2 : 2 ≤ s.nsym) :
    ((codesOf s).map (fun e => 2 ^ (255 - e.2.length))).sum = 2 ^ 255 := by
  have hperm := h.codesOf_perm_paths hw h2
  rw [(hperm.map _).sum_eq]
  exact HTree.paths_complete _ 255 fun e he => (h.code_length hw e (hperm.mem_iff.2 he)).2

/-- The one symbol's Leaf is the root, and its code the configured bit (R192). -/
theorem Finished.code_of_single (h1 : s.nsym = 1) {b : Byte} {q : List Bool} (hq : (codesOf s).find b = some q) :
    PathTo s.nodes s.root [] b ∧ q.length = 1 := by
  obtain ⟨c, f, hroot⟩ := h.root_leaf h1
  have hmem := (h.codes_mem hw b q).1 (Table.mem_of_find hq)
  rw [treeAt_leaf hroot, HTree.codes, List.mem_singleton] at hmem
  cases hmem
  exact ⟨⟨f, hroot⟩, rfl⟩

end

/-- Settles O35: the Code Table is that of a complete tree, whose root is an Internal for two symbols or more and a Leaf
for one. -/
theorem prefixFreeCodes : Obligations.PrefixFreeCodes := by
  intro s hinv hc
  obtain ⟨hfin, hct⟩ := hinv.codeTable hc
  rw [hct]
  exact ⟨hfin.codes_prefixFree hinv.table,
    fun h2 => ⟨fun _ _ => hfin.pathTo_of_code hinv.table h2, hfin.codes_complete hinv.table h2⟩,
    fun h1 _ _ => hfin.code_of_single hinv.table h1⟩

/-! ## `CT_LEN` and `CT_BITS` -/

/-- A word of format C11 is the opcode's word with the second operand in bits 10:8 and the symbol in bits 7:0
(30_encoding.md R103). -/
theorem assemble_symbol_index (o b : BitVec 8) (n : BitVec 3) :
    assemble o (0#13 ++ n ++ b) = assemble o 0#24 ||| (n.setWidth 32 <<< 8) ||| zext32 b := by
  have hfields : (0#13 ++ n ++ b).setWidth 32 = (n.setWidth 32 <<< 8) ||| zext32 b := by
    apply BitVec.eq_of_getLsbD_eq
    intro k hk
    simp only [BitVec.getLsbD_setWidth, BitVec.getLsbD_append, BitVec.getLsbD_or, BitVec.getLsbD_shiftLeft,
      BitVec.getLsbD_zero, hk]
    by_cases h8 : k < 8
    · simp [h8]
    · have hn : n.getLsbD (k - 8) = true → k - 8 < 3 := BitVec.lt_of_getLsbD
      simpa [h8, BitVec.getLsbD_of_ge b k (by omega), show k - 8 < 32 by omega] using hn
  rw [assemble_eq_or, hfields, BitVec.or_assoc]

theorem getLsbD_foldl_or (f : Nat → Word) (l : List Nat) (v : Word) (k : Nat) :
    (l.foldl (fun v j => v ||| f j) v).getLsbD k = (v.getLsbD k || l.any (fun j => (f j).getLsbD k)) := by
  induction l generalizing v with
  | nil => simp
  | cons j l ih => rw [List.foldl_cons, ih, BitVec.getLsbD_or, List.any_cons, Bool.or_assoc]

/-- Only code bit `32·n + j` reaches bit `31 − j` of the response (R194). -/
theorem codeWord_getLsbD (code : List Bool) (n : Nat) {j : Nat} (hj : j < 32) :
    (codeWord code n).getLsbD (31 - j) = (code[32 * n + j]?).getD false := by
  have hbit (i : Nat) : (flagBit ((code[32 * n + i]?).getD false) (31 - i)).getLsbD (31 - j) =
      ((code[32 * n + i]?).getD false && decide (31 - j = 31 - i)) := flagBit_getLsbD _ (by omega) _
  rw [codeWord, getLsbD_foldl_or, BitVec.getLsbD_zero, Bool.false_or, Bool.eq_iff_iff, List.any_eq_true]
  simp only [hbit, List.mem_range, Bool.and_eq_true, decide_eq_true_eq]
  constructor
  · rintro ⟨i, hi, hcode, hij⟩
    obtain rfl : i = j := by omega
    exact hcode
  · exact fun hcode => ⟨j, hj, hcode, rfl⟩

/-- The invariant bounds the code length of every symbol, those without a code included (10_state.md R36). -/
theorem State.Inv.ctl_le {s : State} (h : s.Inv) (b : Byte) : s.ctl b ≤ 255 := by
  rw [State.ctl, State.ctb]
  cases hf : s.ct.find b with
  | none => decide
  | some q => exact (h.codeLengths (b, q) (Table.mem_of_find hf)).2

/-- Settles O36, by whether there is a Code Table. -/
theorem codeReads : Obligations.CodeReads := by
  refine fun b n => ⟨fun w => ?_, fun w => ?_, fun s hinv he => ⟨fun hc => ?_, fun hc => ?_⟩⟩
  · rw [decode_ok_iff, encode, assemble_symbol]; rfl
  · rw [decode_ok_iff, encode, assemble_symbol_index]; rfl
  · have hlen : s.ctl b < 2 ^ 8 := Nat.lt_succ_of_le (hinv.ctl_le b)
    exact ⟨_, _, exec_of_ok he (require_bind_true hc), lowField_toNat (by decide) hlen,
      exec_of_ok he (require_bind_true hc), fun _ hj => codeWord_getLsbD _ _ hj⟩
  · exact ⟨exec_of_raise he (require_bind_false hc), exec_of_raise he (require_bind_false hc)⟩

end Sys2Proof.Machine
end

section
/-! SUPPORT. The statements about the Bit Packer and Unpacker (44_bit_packer.md R200 to R209): the whole next state of each
command, and a bit sequence that is packed, moved to the input and unpacked. -/

namespace Sys2Proof.Machine

open Sys2Proof

/-! ## `PK_BIT` and `PK_FLUSH` -/

/-- A word of format C1 is the opcode's word with the bit in bit 0 (30_encoding.md R103). -/
theorem assemble_bit (o : BitVec 8) (b : BitVec 1) : assemble o (0#23 ++ b) = assemble o 0#24 ||| b.setWidth 32 := by
  have hbit : (0#23 ++ b).setWidth 32 = b.setWidth 32 :=
    BitVec.eq_of_toNat_eq (by rw [BitVec.toNat_setWidth, BitVec.toNat_append]; simp)
  rw [assemble_eq_or, hbit]

/-- The bit that `PK_BIT` packs, as a byte (30_encoding.md R103). -/
theorem bitByte_operandBit (b : BitVec 1) : bitByte (operandBit b) = b.setWidth 8 := by
  obtain rfl | rfl := BitVec.eq_zero_or_eq_one b <;> rfl

theorem lowField_of_lt {width n : Nat} (h : n < 2 ^ width) : lowField width n = word n := by
  rw [lowField, Nat.mod_eq_of_lt h]

theorem packBit_of_lt (b : Bool) {s : State} (h : s.nacc < 7) :
    packBit b s = .ok { s with acc := s.acc ||| (bitByte b <<< (7 - s.nacc)), nacc := s.nacc + 1 } :=
  if_neg h.ne

theorem packBit_of_last (b : Bool) {s : State} (h : s.nacc = 7) (hroom : s.olen < s.cfg.obufCap) :
    packBit b s = .ok { s with obuf := s.obuf ++ [s.acc ||| bitByte b], acc := 0#8, nacc := 0 } := by
  simp only [packBit, h, if_true, outByte_of_room _ hroom, Op.ok_bind, Nat.sub_self, BitVec.shiftLeft_zero]

/-- Settles O37 (`packBit` is the model's own name), by whether the bit completes a byte and whether that byte fits. -/
theorem packBitCommand : Obligations.PackBit := by
  refine fun b => ⟨fun w => ?_, fun s he => ⟨fun hlt => ?_, fun h7 hroom => ?_, fun h7 hfull => ?_⟩⟩
  · rw [decode_ok_iff, encode, assemble_bit]; rfl
  · refine exec_of_ok he ?_
    rw [operation, opPkBit, packBit_of_lt _ hlt, Op.ok_bind, bitByte_operandBit, lowField_of_lt (Nat.lt_succ_of_le hlt)]
  · refine exec_of_ok he ?_
    rw [operation, opPkBit, packBit_of_last _ h7 hroom, Op.ok_bind, bitByte_operandBit, lowField_of_lt (Nat.two_pow_pos 3)]
  · exact exec_of_raise he (by rw [operation, opPkBit, packBit_of_full _ s h7 hfull, Op.error_bind])

theorem opPkFlush_of_empty {s : State} (h : s.nacc = 0) : opPkFlush s = .ok (s, word 0) := by
  rw [opPkFlush, doPkFlush, if_pos h, if_pos h, Op.ok_bind]

theorem opPkFlush_of_room {s : State} (h : s.nacc ≠ 0) (hroom : s.olen < s.cfg.obufCap) :
    opPkFlush s = .ok ({ s with obuf := s.obuf ++ [s.acc], acc := 0#8, nacc := 0 }, word (8 - s.nacc)) := by
  rw [opPkFlush, doPkFlush, if_neg h, if_neg h, outByte_of_room _ hroom, Op.ok_bind, Op.ok_bind]

theorem opPkFlush_of_full {s : State} (h : s.nacc ≠ 0) (hfull : s.cfg.obufCap ≤ s.olen) :
    opPkFlush s = raise .bufferOverflow := by
  rw [opPkFlush, doPkFlush, if_neg h, outByte_of_full _ hfull, Op.error_bind, Op.error_bind]

/-- Settles O38, by whether bits are waiting and whether their byte fits. -/
theorem packFlush : Obligations.PackFlush :=
  ⟨fun _ => decode_ok_iff, fun _ he => ⟨fun h0 => exec_of_ok he (opPkFlush_of_empty h0),
    fun h0 hroom => exec_of_ok he (opPkFlush_of_room h0 hroom),
    fun h0 hfull => exec_of_raise he (opPkFlush_of_full h0 hfull)⟩⟩

/-! ## `UPK_SET` and `UPK_BIT` -/

/-- Settles O40, by whether the index is at most the input's length. -/
theorem unpackSet : Obligations.UnpackSet := by
  refine fun a => ⟨fun w => ?_, fun s he => ⟨fun hle => ?_, fun hlt => ?_⟩⟩
  · rw [decode_ok_iff, encode, assemble_eq_or]; rfl
  · exact exec_of_ok he (require_bind_true (decide_eq_true hle))
  · exact exec_of_raise he (require_bind_false (decide_eq_false (Nat.not_le.2 hlt)))

theorem opUpkBit_of_end {s : State} (hc : s.curValid = true) (h0 : s.bitsLeft = 0) : opUpkBit s = .ok (s, eos) :=
  (require_bind_true hc).trans (if_pos h0)

theorem opUpkBit_of_left {s : State} (hc : s.curValid = true) (h0 : s.bitsLeft ≠ 0) :
    opUpkBit s = .ok ({ s with bpos := s.bpos + 1 }, flagBit (s.payloadBit s.bpos) 0) :=
  (require_bind_true hc).trans (if_neg h0)

theorem payloadBit_of_getElem? {s : State} {k : Nat} {b : Byte} (h : s.ibuf[s.rpos + k / 8]? = some b) :
    s.payloadBit k = b.getLsbD (7 - k % 8) := by
  rw [State.payloadBit, Buffer.read, h, Option.getD_some]

/-- Settles O41, by whether there is a cursor and whether the payload has a bit left, which is then a bit of an input
byte. -/
theorem unpackBit : Obligations.UnpackBit := by
  refine ⟨fun _ => decode_ok_iff, fun s hinv he => ⟨fun hc => ?_, fun hc hend => ?_, fun hc hleft => ?_⟩⟩
  · exact exec_of_raise he (require_bind_false hc)
  · exact exec_of_ok he (opUpkBit_of_end hc (by rw [State.bitsLeft, hend, Nat.sub_self]))
  · obtain ⟨hstart, hpos⟩ := hinv.cursor hc
    have hbyte : s.rpos + s.bpos / 8 < s.ibuf.length := by rw [State.ilen] at hstart hpos hleft; omega
    have hb := List.getElem?_eq_getElem hbyte
    have hbits : s.bitsLeft ≠ 0 := by rw [State.bitsLeft]; omega
    refine ⟨_, hb, exec_of_ok he ((opUpkBit_of_left hc hbits).trans ?_)⟩
    rw [payloadBit_of_getElem? hb]
    rfl

/-! ## A bit sequence packed and unpacked (R200, R204, R209) -/

theorem runCommands_snoc {is : List Instr} {i : Instr} {s t u : State} (h : runCommands is s = some t)
    (hi : exec i t = .next u) : runCommands (is ++ [i]) s = some u := by
  rw [runCommands_append, h, Option.bind_some, runCommands_cons hi, runCommands]

/-- `PK_BIT` of each bit of a sequence, then `PK_FLUSH`, is packing and flushing (R202, R203). -/
theorem run_pack_flush {q : List Bool} {s t : State} (he : s.err = none) (h : (packBits q s >>= doPkFlush) = .ok t) :
    ∃ r, runCommands (q.map (fun b => .pkBit (if b then 1#1 else 0#1)) ++ [.pkFlush]) s = some { t with resps := r } := by
  obtain ⟨u, hu, hflush⟩ := Op.bind_ok.1 h
  obtain ⟨r, hrun⟩ := run_pkBit q s u he hu
  have heu : u.err = none := by obtain ⟨_, _, _, rfl⟩ := packBits_frame hu; exact he
  have hop : opPkFlush { u with resps := r } =
      .ok ({ t with resps := r }, if u.nacc = 0 then word 0 else word (8 - u.nacc)) := by
    rw [opPkFlush, doPkFlush_resps, hflush]
    rfl
  have hstep := exec_of_ok (i := .pkFlush) (s := { u with resps := r }) heu hop
  exact ⟨_, runCommands_snoc hrun hstep⟩

/-- `O2I`, then `UPK_SET` 0, makes the output the payload, with the cursor at its start (R139, R205). -/
theorem run_o2i_upkSet {s : State} (he : s.err = none) (hfits : s.olen ≤ s.cfg.ibufCap) :
    ∃ r, runCommands [.o2i, .upkSet 0#24] s =
      some { s with ibuf := s.obuf, obuf := [], rpos := 0, bpos := 0, emitted := 0, curValid := true, resps := r } :=
  ⟨_, runCommands_snoc (is := [.o2i]) (runCommands_snoc (is := []) rfl ((outputToInput.2 s he).1 hfits))
    (((unpackSet 0#24).2 _ (by exact he)).1 (Nat.zero_le _))⟩

/-- `UPK_BIT` once more than there are bits in the payload gives the payload, then `EOS` (R206). -/
theorem run_upkBit_eos {s : State} (he : s.err = none) (hc : s.curValid = true) (h0 : s.bpos = 0) :
    ∃ u, runCommands (List.replicate s.payloadBits.length .upkBit ++ [.upkBit]) s = some u ∧
      u.resps = s.resps ++ s.payloadBits.map (fun b => ⟨false, if b then 1#32 else 0#32⟩) ++ [⟨false, eos⟩] := by
  have hbits := run_upkBit s.payloadBits s he hc (by rw [h0]; exact List.prefix_rfl)
  refine ⟨_, runCommands_snoc hbits (exec_of_ok he (opUpkBit_of_end hc ?_)), rfl⟩
  simp [State.bitsLeft, State.ilen, payloadBits_length, h0]

/-- Settles O39: the flushed output is the padded sequence in whole bytes, and becomes the payload. -/
theorem packThenUnpack : Obligations.PackThenUnpack := by
  intro s q he hout hacc hnacc hroom hfits
  obtain ⟨payload, hpack, hbits, hlen⟩ := pack_flush_of_room q s hacc hnacc (by simpa [State.olen, hout] using hroom)
  rw [hout, List.nil_append] at hpack
  obtain ⟨r, hrun⟩ := run_pack_flush he hpack
  obtain ⟨r', hmove⟩ := run_o2i_upkSet
    (s := { s with obuf := payload, acc := 0#8, nacc := 0, resps := r }) he (hlen.trans_le hfits)
  obtain ⟨u, hunpack, hresps⟩ := run_upkBit_eos (s := { s with
    ibuf := payload, obuf := [], acc := 0#8, nacc := 0, rpos := 0, bpos := 0, emitted := 0, curValid := true, resps := r' })
    he rfl rfl
  rw [State.payloadBits, List.drop_zero, hbits] at hunpack hresps
  refine ⟨_, u, ?_, ?_, hresps⟩
  · rw [← List.singleton_append, ← List.append_assoc, runCommands_append, hrun]
    exact hmove
  · rw [List.replicate_succ']
    rwa [padded, List.length_append, List.length_replicate] at hunpack

end Sys2Proof.Machine
end

section
/-! SUPPORT. The statements about the Container Codec (45_container.md R220 to R229): what `HDR_WR` and `HDR_RD` answer in each
of their cases, and the bytes of a header by offset. -/

namespace Sys2Proof.Machine

open Sys2Proof

/-! ## `HDR_WR` -/

/-- Settles O42, by whether there is a table, whether it is empty and whether its header fits. -/
theorem headerWrite : Obligations.HeaderWrite := by
  refine ⟨fun _ => decode_ok_iff, fun s he => ⟨fun hv => ?_, fun hv h0 => ?_, fun hv hn hroom => ?_,
    fun hv hn hcap hfull => ?_⟩⟩
  · exact exec_of_raise he (by rw [operation, opHdrWr, doHdrWr_noTable hv, Op.error_bind])
  · exact exec_of_raise he (by rw [operation, opHdrWr, doHdrWr_empty hv h0, Op.error_bind])
  · exact exec_of_ok he (by rw [operation, opHdrWr, doHdrWr_of_room hv hn hroom, Op.ok_bind]; rfl)
  · exact exec_of_raise he (by rw [operation, opHdrWr, doHdrWr_of_full hv hn hcap hfull, Op.error_bind])

/-! ## The bytes of a header -/

/-- The five bytes of pair `i` stand at `1 + 5i` of the header (R220, R222, R223). -/
theorem headerBytes_getElem?_pair (o : ByteOrder) {t : List (Byte × Nat)} {i j : Nat} {e : Byte × Nat} (h : t[i]? = some e)
    (hj : j < 5) : (headerBytes o t)[1 + 5 * i + j]? = (e.1 :: countBytesOf o e.2)[j]? := by
  rw [headerBytes, show 1 + 5 * i + j = 5 * i + j + 1 by omega, List.getElem?_cons_succ, pairBytes_getElem? o t i e h j hj]

/-- Settles O43: the size byte heads the header, and the bytes of a pair are its symbol and the four of its count. -/
theorem headerLayout : Obligations.HeaderLayout := by
  refine fun o t _ _ hcounts => ⟨headerBytes_length o t, rfl, fun i b f h => ⟨?_, fun j hj => ?_⟩⟩
  · exact headerBytes_getElem?_pair o h (j := 0) (by decide)
  · have hf : f < 2 ^ 32 := (hcounts (b, f) (List.mem_of_getElem? h)).trans (by decide)
    rw [show 2 + 5 * i + j = 1 + 5 * i + (j + 1) by omega, headerBytes_getElem?_pair o h (by omega), List.getElem?_cons_succ]
    exact countBytesOf_getElem? o hf hj

/-! ## `HDR_RD` -/

/-- Without a byte there is no header (R227 (1)). -/
theorem doHdrRd_of_empty {s : State} (h : s.ibuf = []) : doHdrRd s = raise .corruptContainer := by
  rw [doHdrRd, h]

/-- An input shorter than the header its first byte announces is refused (R227 (2)). -/
theorem doHdrRd_of_short {s : State} {n : Byte} {body : List Byte} (hb : s.ibuf = n :: body)
    (hshort : s.ilen < headerLength (pairsAnnounced n)) : doHdrRd s = raise .corruptContainer := by
  simp only [doHdrRd, hb]
  exact require_bind_false (decide_eq_false (Nat.not_le.2 hshort))

section
variable {s : State} {ps : List (Byte × Nat)} {payload : List Byte} (hn : 1 ≤ ps.length) (hn2 : ps.length ≤ 256)
  (hb : s.ibuf = headerBytes s.cfg.byteOrder ps ++ payload)
include hn hn2 hb

/-- A header with a count that has bit 31 set, a symbol listed twice or no payload behind it is
refused (R227 (3) to (5), R229). -/
theorem doHdrRd_refuses_pairs (hcounts : ∀ e ∈ ps, e.2 < 2 ^ 32)
    (hbad : (∃ e ∈ ps, 2 ^ 31 ≤ e.2) ∨ ¬ (ps.map (·.1)).Nodup ∨ payload = []) : doHdrRd s = raise .corruptContainer := by
  rw [doHdrRd_pairs hn hn2 hb]
  by_cases hpairs : (∃ e ∈ ps, 2 ^ 31 ≤ e.2) ∨ ¬ (ps.map (·.1)).Nodup
  · rw [parsePairs_bad _ ps [] payload hcounts (hpairs.imp_right .inl), Op.error_bind]
  · have hempty : payload = [] := (or_assoc.2 hbad).resolve_left hpairs
    simp only [not_or, not_exists, not_and, not_le, not_not] at hpairs
    obtain ⟨hsmall, hnd⟩ := hpairs
    rw [parsePairs_pairBytes _ ps [] payload hsmall hnd (fun _ _ => rfl), Op.ok_bind,
      require_bind_false (by simp [hempty])]

/-- Pairs with counts of 31 bits and different symbols become the table, in whatever order they come (R225, R227). -/
theorem doHdrRd_accepts_pairs (hcounts : ∀ e ∈ ps, e.2 < 2 ^ 31) (hnd : (ps.map (·.1)).Nodup) (hpay : payload ≠ []) :
    doHdrRd s = .ok ((s.withTable (tableOfPairs ps [])).setCursor (headerLength ps.length)) := by
  rw [doHdrRd_pairs hn hn2 hb, parsePairs_pairBytes _ ps [] payload hcounts hnd (fun _ _ => rfl), Op.ok_bind,
    require_bind_true (decide_eq_true hpay)]

end

/-- `HDR_RD` raises what its effect raises. -/
theorem exec_hdrRd_of_raise {s : State} {e : ErrCode} (he : s.err = none) (h : doHdrRd s = raise e) :
    exec .hdrRd s = .next (errorEntry e (encode .hdrRd) s) :=
  exec_of_raise he (by rw [operation, opHdrRd, h, Op.error_bind])

/-- Settles O44 with the table `tableOfPairs`: the checks of R227 in turn. -/
theorem headerRead : Obligations.HeaderRead := by
  refine ⟨fun _ => decode_ok_iff, fun s he => ⟨fun hempty => ?_, fun n body hb hshort => ?_,
    fun ps payload hn hn2 hcounts hb => ⟨fun hbad => ?_, fun hsmall hnd hpay => ?_⟩⟩⟩
  · exact exec_hdrRd_of_raise he (doHdrRd_of_empty hempty)
  · exact exec_hdrRd_of_raise he (doHdrRd_of_short hb hshort)
  · exact exec_hdrRd_of_raise he (doHdrRd_refuses_pairs hn hn2 hb hcounts hbad)
  · refine ⟨tableOfPairs ps [], tableOfPairs_wf ps [] rfl, tableOfPairs_perm hnd, exec_of_ok he ?_⟩
    rw [operation, opHdrRd, doHdrRd_accepts_pairs hn hn2 hb hsmall hnd hpay, Op.ok_bind]
    rfl

end Sys2Proof.Machine
end

section
/-! SUPPORT. The statements about `ENC_SYM` and `DEC_SYM` (46_orchestration.md R240 to R245): what each answers in each of its
cases. -/

namespace Sys2Proof.Machine

open Sys2Proof

/-! ## `ENC_SYM` -/

/-- `ENC_SYM` raises what its effect raises. -/
theorem exec_encSym_of_raise {b : BitVec 8} {s : State} {e : ErrCode} (he : s.err = none) (h : doEncSym b s = raise e) :
    exec (.encSym b) s = .next (errorEntry e (encode (.encSym b)) s) :=
  exec_of_raise he (by rw [operation, opEncSym, h, Op.error_bind])

/-- Settles O45, by whether there is a code table, whether the symbol has a code and whether the bytes it completes fit. -/
theorem encodeSymbol : Obligations.EncodeSymbol := by
  refine fun b => ⟨fun w => ?_, fun s hinv he => ⟨fun hc => ?_, fun hc hb => ?_, fun hc hb hroom => ?_,
    fun hc hb hfull => ?_⟩⟩
  · rw [decode_ok_iff, encode, assemble_symbol]; rfl
  · exact exec_encSym_of_raise he (doEncSym_sequence hc)
  · exact exec_encSym_of_raise he (doEncSym_absent hc hb)
  · obtain ⟨t, ht, hframe, hok, hbits, -⟩ := packBits_of_room (s.ctb b) s hinv.packer hroom
    obtain ⟨hlen, hnacc⟩ := packed_length hok.1 hbits
    refine ⟨t, exec_of_ok he ?_, hbits, hnacc, hlen, hok.2, hframe⟩
    rw [operation, opEncSym, doEncSym_eq hc hb, ht, Op.ok_bind, lowField_of_lt (Nat.lt_succ_of_le (hinv.ctl_le b))]
  · refine exec_encSym_of_raise he ?_
    rw [doEncSym_eq hc hb, packBits_of_full (s.ctb b) s hinv.packer hinv.output hfull]

/-! ## `DEC_SYM` -/

/-- Settles O46, by whether there is a tree and a cursor, whether `TOTAL` symbols are out, and which code comes next. -/
theorem decodeSymbol : Obligations.DecodeSymbol := by
  refine ⟨fun _ => decode_ok_iff, fun s hinv he => ⟨fun hno => exec_of_raise he (opDecSym_sequence hno), fun hv hc => ?_⟩⟩
  have hfin := hinv.finished hv
  refine ⟨fun hdone => exec_of_ok he (opDecSym_eos hv hc hdone), fun b q hlt hcode hnext => ?_, fun hlt hnone => ?_⟩
  · have htake := takeSymbol_of_code hfin.descends hfin.root_lt hcode hnext
    exact ⟨fun hroom => exec_of_ok he (opDecSym_of_take hv hc hlt htake hroom),
      fun hfull => exec_of_raise he (opDecSym_of_take_full hv hc hlt htake hfull)⟩
  · exact exec_of_raise he (opDecSym_of_corrupt hv hc hlt (takeSymbol_corrupt hfin.descends hfin.root_lt hnone))

end Sys2Proof.Machine
end

section
/-! SUPPORT. The statements about `DECOMPRESS` (46_orchestration.md R243, R245, R248): the symbols a payload encodes, and the
errors of a payload that goes on otherwise. -/

namespace Sys2Proof.Machine

open Sys2Proof

/-- `DECOMPRESS` raises what its effect raises. -/
theorem exec_decompress_of_raise {s : State} {e : ErrCode} (he : s.err = none) (h : doDecompress s = raise e) :
    exec .decompress s = .next (errorEntry e (encode .decompress) s) :=
  exec_of_raise he (by rw [operation, opDecompress, h, Op.error_bind])

/-- Settles O49: after the symbols `xs` the output holds `TOTAL` of them, so the loop stops. -/
theorem decompressOutput : Obligations.DecompressOutput := by
  refine ⟨fun _ => decode_ok_iff, fun s ps t payload xs rest he hib hn hn2 hcnt hpay hw hperm hpres hbits hlen hcap => ?_⟩
  obtain ⟨u, -, hu, htot, -, hd, -⟩ := doDecompress_symbols hib hn hn2 hcnt hpay hw hperm hpres hbits hlen.le hcap
  have hbitLen := congrArg List.length hbits
  rw [bitsOf_length, List.length_append] at hbitLen
  rw [← hlen] at htot
  rw [hu] at hd
  rw [decodeLoop_done (by simp [decodedAll, htot])] at hd
  refine ⟨_, exec_of_ok he (by rw [operation, opDecompress, hd, Op.ok_bind]; rfl), ?_⟩
  simp [decodedAll, htot, hbitLen]

/-- `HDR_RD` raises only by what its effect raises. -/
theorem doHdrRd_of_exec_corrupt {s : State} (he : s.err = none)
    (h : exec .hdrRd s = .next (errorEntry .corruptContainer (encode .hdrRd) s)) : doHdrRd s = raise .corruptContainer := by
  rcases doHdrRd_cases s with ⟨t, hok, -⟩ | hbad
  · have hop : operation .hdrRd s = .ok ((s.withTable t).setCursor (headerLength t.length), word (headerLength t.length)) := by
      rw [operation, opHdrRd, hok, Op.ok_bind]; rfl
    rw [exec_of_ok he hop] at h
    have herr := congrArg State.err (Host.Outcome.next.inj h)
    rw [State.respond_err, State.setCursor_err, State.withTable_err, he] at herr
    cases herr
  · exact hbad

/-- Settles O50: the loop comes to where the symbols `xs` are out, and there the next code decides. -/
theorem decompressErrors : Obligations.DecompressErrors := by
  refine ⟨fun s he h => exec_decompress_of_raise he (doDecompress_corrupt (doHdrRd_of_exec_corrupt he h)),
    fun s ps t payload xs rest he hib hn hn2 hcnt hpay hw hperm hpres hbits hlen hcap => ?_⟩
  obtain ⟨u, hfin, hu, htot, hcodes, hd, hpb⟩ :=
    doDecompress_symbols hib hn hn2 hcnt hpay hw hperm hpres hbits hlen.le hcap
  have hft : u.ft = t := by rw [hu]
  have hcode (b q) : u.treeCode b q ↔ (codeTableOf s.cfg t).find b = some q := by
    rw [hcodes]; exact (hfin.codes_find (hft ▸ hw) b q).symm
  generalize hk : (xs.flatMap fun x => ((codeTableOf s.cfg t).find x).getD []).length = k at hd
  have hrest : u.payloadBits.drop (u.bpos + k) = rest := by
    rw [hpb, hbits, show u.bpos = 0 by rw [hu], Nat.zero_add, ← hk, List.drop_left]
  have hv : (decodedAll u xs k).treeValid = true := by rw [hu]; rfl
  have hc : (decodedAll u xs k).curValid = true := by rw [hu]; rfl
  have hmore : (decodedAll u xs k).emitted < (decodedAll u xs k).total := by
    have hem : u.emitted = 0 := by rw [hu]
    simp only [decodedAll, hem, htot, Nat.zero_add]; exact hlen
  refine ⟨fun hnone => exec_decompress_of_raise he ?_, fun ⟨b, q, hq, hnext⟩ hfull => exec_decompress_of_raise he ?_⟩
  · have htake := takeSymbol_corrupt (s := decodedAll u xs k) hfin.descends hfin.root_lt fun b q hq =>
      hrest ▸ hnone b q ((hcode b q).1 hq)
    rw [hd, decodeLoop_raise hmore (opDecSym_of_corrupt hv hc hmore htake)]
  · have htake := takeSymbol_of_code (s := decodedAll u xs k) hfin.descends hfin.root_lt ((hcode b q).2 hq) (hrest ▸ hnext)
    have hcap' : (decodedAll u xs k).cfg.obufCap ≤ (decodedAll u xs k).olen := by
      rw [hu]; simp [decodedAll, State.olen, hfull]
    rw [hd, decodeLoop_raise hmore (opDecSym_of_take_full hv hc hmore htake hcap')]

end Sys2Proof.Machine
end

section
/-! SUPPORT. The statements about `COMPRESS` (46_orchestration.md R246, R247, R250): the container it leaves, that it does what
its commands do one after another, and that its output is a function of the input. -/

namespace Sys2Proof.Machine

open Sys2Proof

/-! ## The container of an input (R246, R247) -/

/-- A sum over an input, byte by byte, is one over its Frequency Table, weighted by the counts (R150). -/
theorem sum_map_countBytes (bytes : List Byte) (f : Byte → Nat) :
    ((countBytes bytes).map (fun e => e.2 * f e.1)).sum = (bytes.map f).sum := by
  have hsymbols : ((countBytes bytes).map (·.1)).toFinset = bytes.toFinset := by
    ext b
    rw [List.mem_toFinset, List.mem_toFinset, ← Table.isSome_find_iff, countBytes_find]
    simp [List.count_eq_zero]
  have hweights : (countBytes bytes).map (fun e => e.2 * f e.1) =
      ((countBytes bytes).map (·.1)).map (fun b => bytes.count b * f b) := by
    rw [List.map_map]
    refine List.map_congr_left fun ⟨b, c⟩ he => ?_
    rw [((mem_countBytes bytes b c).1 he).2, Function.comp_apply]
  rw [hweights, ← List.sum_toFinset _ (Table.keys_nodup (countBytes_wf bytes)), hsymbols, Finset.sum_list_map_count]
  simp

/-- `t` is what `COMPRESS` leaves of the input of `s`: its container, with the codes of the input as `payload`. -/
structure Compressed (s t : State) (payload : List Byte) : Prop where
  run : doCompress s = .ok t
  finished : Finished t
  table : t.ft = countBytes s.ibuf
  codes : t.ct = codesOf t
  codeTable : t.ct = codeTableOf s.cfg (countBytes s.ibuf)
  output : t.obuf = headerBytes s.cfg.byteOrder (countBytes s.ibuf) ++ payload
  payloadBits : bitsOf payload = padded (codeBits s.cfg s.ibuf)
  length : t.olen = containerLength s.cfg s.ibuf
  packer : t.acc = 0#8 ∧ t.nacc = 0

theorem compressed_of_room {s : State} (hne : s.ibuf ≠ []) (hroom : containerLength s.cfg s.ibuf ≤ s.cfg.obufCap) :
    ∃ t payload, Compressed s t payload := by
  obtain ⟨t, -, hfin, hframe, -, hcodes, hfit, -⟩ := doCompress_spec hne
  obtain ⟨payload, hrun, hbits, hlen⟩ := hfit hroom
  refine ⟨_, payload, hrun, hfin.congr rfl rfl rfl rfl rfl, by rw [hframe]; rfl, rfl, hcodes.symm, rfl, hbits, ?_,
    by rw [hframe]; exact ⟨rfl, rfl⟩⟩
  rw [State.olen, List.length_append, headerBytes_length, hlen, containerLength]

theorem Compressed.completes {s t : State} {payload : List Byte} (h : Compressed s t payload) (he : s.err = none) :
    exec .compress s = .next (t.respond false (word (containerLength s.cfg s.ibuf))) :=
  exec_of_ok he (by rw [operation, opCompress, h.run, Op.ok_bind, h.length])

theorem exec_compress_of_full {s : State} (he : s.err = none) (hne : s.ibuf ≠ [])
    (hfull : s.cfg.obufCap < containerLength s.cfg s.ibuf) :
    exec .compress s = .next (errorEntry .bufferOverflow (encode .compress) s) := by
  obtain ⟨-, -, -, -, -, -, -, hraise⟩ := doCompress_spec hne
  exact exec_of_raise he (by rw [operation, opCompress, hraise hfull, Op.error_bind])

theorem exec_compress_of_empty {s : State} (he : s.err = none) (hempty : s.ibuf = []) :
    exec .compress s = .next (State.respond
      { s with obuf := [], acc := 0#8, nacc := 0, ft := [], ftValid := true, tbActive := false, treeValid := false,
               ctValid := false, nothing := true } false 0#32) :=
  exec_of_ok he (by rw [operation, opCompress, doCompress_empty hempty]; rfl)

/-- Settles O47, by whether there is an input and whether its container fits. -/
theorem compressContainer : Obligations.CompressContainer := by
  refine ⟨fun _ => decode_ok_iff, fun s he => ⟨exec_compress_of_empty he, fun hne hroom => ?_, exec_compress_of_full he⟩⟩
  obtain ⟨t, payload, h⟩ := compressed_of_room hne hroom
  have hw : t.ft.wf = true := h.table ▸ countBytes_wf s.ibuf
  have hctb : s.ibuf.flatMap t.ctb = codeBits s.cfg s.ibuf := by rw [codeBits, ← h.codeTable]; rfl
  refine ⟨t, payload, h.completes he, hw, h.table ▸ countBytes_find_iff s.ibuf, h.codes ▸ h.finished.codes_find hw,
    h.table ▸ h.codeTable, h.table ▸ h.output, hctb ▸ h.payloadBits, h.length, ?_, ?_⟩
  · rw [h.table, sum_map_countBytes s.ibuf t.ctl, List.length_flatMap]
    rfl
  · obtain ⟨hacc, hnacc⟩ := h.packer
    simpa [hne, hacc, hnacc] using doCompress_frame h.run

/-! ## The output is a function of the input (R250) -/

theorem bitsOfByte_injective : Function.Injective bitsOfByte := by
  intro a b h
  refine BitVec.eq_of_getLsbD_eq fun i hi => ?_
  have hbit := congrArg (·[7 - i]?) h
  simpa [bitsOfByte, show 7 - i < 8 by omega, show 7 - (7 - i) = i by omega] using hbit

/-- Bytes are determined by their bits (R77). -/
theorem bitsOf_injective : Function.Injective bitsOf := by
  intro xs ys h
  induction xs generalizing ys with
  | nil => cases ys with
    | nil => rfl
    | cons y ys => simpa [bitsOf_length] using congrArg List.length h
  | cons x xs ih => cases ys with
    | nil => simpa [bitsOf_length] using congrArg List.length h
    | cons y ys =>
      obtain ⟨hhead, htail⟩ := List.append_inj h ((bitsOfByte_length x).trans (bitsOfByte_length y).symm)
      rw [bitsOfByte_injective hhead, ih htail]

/-- A completed `COMPRESS` of an input that is not empty has left its container. -/
theorem compressed_of_exec {s t : State} (he : s.err = none) (hne : s.ibuf ≠ []) (h : exec .compress s = .next t)
    (ht : t.err = none) : ∃ u payload, Compressed s u payload ∧ t.obuf = u.obuf := by
  by_cases hroom : containerLength s.cfg s.ibuf ≤ s.cfg.obufCap
  · obtain ⟨u, payload, hu⟩ := compressed_of_room hne hroom
    rw [hu.completes he] at h
    cases h
    exact ⟨u, payload, hu, rfl⟩
  · rw [exec_compress_of_full he hne (Nat.not_le.1 hroom)] at h
    cases h
    cases ht

theorem obuf_of_exec_compress_empty {s t : State} (he : s.err = none) (hempty : s.ibuf = [])
    (h : exec .compress s = .next t) : t.obuf = [] := by
  rw [exec_compress_of_empty he hempty] at h
  cases h
  rfl

/-- Settles O52, by whether there is an input: the header, the codes and the padded payload are functions of the input. -/
theorem compressDeterminism : Obligations.CompressDeterminism := by
  intro s s' t t' he he' hib hbo hbit h h' ht ht'
  by_cases hne : s.ibuf = []
  · rw [obuf_of_exec_compress_empty he hne h, obuf_of_exec_compress_empty he' (hib ▸ hne) h']
  · obtain ⟨u, payload, hu, hobuf⟩ := compressed_of_exec he hne h ht
    obtain ⟨u', payload', hu', hobuf'⟩ := compressed_of_exec he' (hib ▸ hne) h' ht'
    have hcodes : codeBits s.cfg s.ibuf = codeBits s'.cfg s'.ibuf := by
      rw [codeBits, codeBits, hib, codeTableOf_congr hbit]
    have hpayload : payload = payload' := bitsOf_injective (by rw [hu.payloadBits, hu'.payloadBits, hcodes])
    rw [hobuf, hobuf', hu.output, hu'.output, hbo, hib, hpayload]

end Sys2Proof.Machine
end

section
/-! SUPPORT. `COMPRESS` and the commands it performs, one after another (46_orchestration.md R246): no effect looks at the
responses given before, so each command goes on from where the one before ended. -/

namespace Sys2Proof.Machine

open Sys2Proof

/-! ## Effects do not look at the responses (log 1) -/

/-- An effect that completes does so whatever responses were given before. -/
def RespsFree (f : State → Op State) : Prop :=
  ∀ s t r, f s = .ok t → f { s with resps := r } = .ok { t with resps := r }

theorem respsFree_bind {f g : State → Op State} (hf : RespsFree f) (hg : RespsFree g) :
    RespsFree (fun s => f s >>= g) := by
  intro s t r h
  obtain ⟨u, hu, ht⟩ := Op.bind_ok.1 h
  exact Op.bind_ok.2 ⟨_, hf s u r hu, hg u t r ht⟩

/-- A test of what no response changes may come before an effect. -/
theorem respsFree_require {c : State → Bool} {e : ErrCode} {f : State → Op State}
    (hc : ∀ (s : State) r, c { s with resps := r } = c s) (hf : RespsFree f) :
    RespsFree (fun s => require (c s) e >>= fun _ => f s) := by
  intro s t r h
  obtain ⟨u, hu, ht⟩ := Op.bind_ok.1 h
  exact Op.bind_ok.2 ⟨u, by rw [hc]; exact hu, hf s t r ht⟩

theorem tbInitState_resps (s : State) (r : List Response) :
    tbInitState { s with resps := r } = { tbInitState s with resps := r } := by
  by_cases h : s.nsym = 1
  · rw [tbInitState, if_pos (show State.nsym { s with resps := r } = 1 from h), tbInitState, if_pos h]
    rfl
  · rw [tbInitState, if_neg (show State.nsym { s with resps := r } ≠ 1 from h), tbInitState, if_neg h]
    rfl

theorem doBuild_respsFree : RespsFree doBuild := by
  intro s t r h
  obtain ⟨u, hu, hloop⟩ := Op.bind_ok.1 h
  obtain ⟨hv, hn, rfl⟩ := doTbInit_ok hu
  refine Op.bind_ok.2 ⟨{ tbInitState s with resps := r }, ?_, buildLoop_resps _ _ _ r (building_tbInit hv hn) hloop⟩
  rw [← tbInitState_resps]
  exact doTbInit_eq (s := { s with resps := r }) hv hn

theorem doGencode_respsFree : RespsFree doGencode := by
  refine respsFree_require (fun _ _ => rfl) fun s t r h => ?_
  obtain ⟨x, hx, h⟩ := Op.bind_ok.1 h
  refine Op.bind_ok.2 ⟨x, hx, ?_⟩
  cases x with
  | leaf b f => cases h; rfl
  | internal f l r' =>
    obtain ⟨ct, hct, h⟩ := Op.bind_ok.1 h
    cases h
    exact Op.bind_ok.2 ⟨ct, hct, rfl⟩

theorem outByte_respsFree (b : Byte) : RespsFree (outByte b) := by
  intro s t r h
  obtain ⟨hroom, rfl⟩ := outByte_ok h
  exact outByte_of_room b hroom

theorem outBytes_respsFree : ∀ bs : List Byte, RespsFree (outBytes bs)
  | [] => fun s t r h => by cases h; rfl
  | b :: bs => respsFree_bind (outByte_respsFree b) (outBytes_respsFree bs)

theorem doHdrWr_respsFree : RespsFree doHdrWr :=
  respsFree_require (fun _ _ => rfl) (respsFree_require (fun _ _ => rfl)
    fun s t r h => outBytes_respsFree (headerBytes s.cfg.byteOrder s.ft) s t r h)

theorem packBits_respsFree (q : List Bool) : RespsFree (packBits q) := by
  intro s t r h
  rw [packBits_resps, h]
  rfl

theorem doEncSym_respsFree (b : Byte) : RespsFree (doEncSym b) :=
  respsFree_require (fun _ _ => rfl) (respsFree_require (fun _ _ => rfl)
    fun s t r h => packBits_respsFree (s.ctb b) s t r h)

theorem encodeAll_respsFree : ∀ bs : List Byte, RespsFree (encodeAll bs)
  | [] => fun s t r h => by cases h; rfl
  | b :: bs => respsFree_bind (doEncSym_respsFree b) (encodeAll_respsFree bs)

theorem doPkFlush_respsFree : RespsFree doPkFlush := by
  intro s t r h
  rw [doPkFlush_resps, h]
  rfl

/-! ## One command after another -/

/-- The commands `is` lead from `s` to `t`, but for the responses. -/
def Reaches (s : State) (is : List Instr) (t : State) : Prop :=
  t.err = none ∧ ∃ r, runCommands is s = some { t with resps := r }

/-- A command whose effect does not look at the responses goes on from where the commands before it ended. -/
theorem Reaches.snoc {s t u : State} {is : List Instr} (h : Reaches s is t) {f : State → Op State} (hf : RespsFree f)
    (hu : f t = .ok u) {i : Instr} {v : State → State → Word} (hi : i ≠ .reset)
    (hop : ∀ s, operation i s = (f s >>= fun t => .ok (t, v s t))) : Reaches s (is ++ [i]) u := by
  obtain ⟨he, r, hrun⟩ := h
  have hrunOp : operation i { t with resps := r } =
      .ok ({ u with resps := r }, v { t with resps := r } { u with resps := r }) := by
    rw [hop, hf t u r hu, Op.ok_bind]
  have hexec := exec_of_ok (s := { t with resps := r }) he hrunOp
  exact ⟨(operation_outside hi hrunOp).err.trans he, _, runCommands_snoc hrun hexec⟩

theorem Reaches.encSyms {s t u : State} {is : List Instr} (h : Reaches s is t) {bs : List Byte}
    (hu : encodeAll bs t = .ok u) : Reaches s (is ++ bs.map .encSym) u := by
  obtain ⟨he, r, hrun⟩ := h
  obtain ⟨r', hrun'⟩ := run_encSym bs { t with resps := r } { u with resps := r } he (encodeAll_respsFree bs t u r hu)
  obtain ⟨_, _, _, rfl⟩ := encodeAll_frame hu
  exact ⟨he, r', by rw [runCommands_append, hrun]; exact hrun'⟩

/-- The effects of `COMPRESS` in turn (R246). -/
theorem doCompress_effects {s v : State} (hne : s.ibuf ≠ []) (h : doCompress s = .ok v) : ∃ s3 s4 s5 s6,
    doBuild (compressStart s) = .ok s3 ∧ doGencode s3 = .ok s4 ∧ doHdrWr s4 = .ok s5 ∧ encodeAll s.ibuf s5 = .ok s6 ∧
      doPkFlush s6 = .ok v := by
  have hlen : (compressStart s).ilen ≠ 0 := fun h0 => hne (List.length_eq_zero_iff.1 h0)
  change (if (compressStart s).ilen = 0 then _ else _) = _ at h
  rw [if_neg hlen] at h
  obtain ⟨s3, h3, h⟩ := Op.bind_ok.1 h
  obtain ⟨s4, h4, h⟩ := Op.bind_ok.1 h
  obtain ⟨s5, h5, h⟩ := Op.bind_ok.1 h
  obtain ⟨s6, h6, h⟩ := Op.bind_ok.1 h
  obtain ⟨-, -, -, -, e3⟩ := doBuild_ok h3
  obtain ⟨-, ct, e4⟩ := doGencode_frame h4
  have hib : s5.ibuf = s.ibuf := by rw [doHdrWr_frame h5, e4, e3]; rfl
  exact ⟨s3, s4, s5, s6, h3, h4, h5, hib ▸ h6, h⟩

/-- Settles O48: each command performs the next effect of `COMPRESS`. -/
theorem compressEqualsCommands : Obligations.CompressEqualsCommands := by
  intro s he hne hroom
  obtain ⟨t, payload, h⟩ := compressed_of_room hne hroom
  obtain ⟨s3, s4, s5, s6, h3, h4, h5, h6, h7⟩ := doCompress_effects hne h.run
  have hstart : Reaches { s with nothing := false, obuf := [], acc := 0#8, nacc := 0 } [.freq] (compressStart s) :=
    ⟨he, _, runCommands_cons (exec_of_ok he rfl)⟩
  have hbuild := hstart.snoc doBuild_respsFree h3 (i := .build) nofun fun _ => rfl
  have hcodes := hbuild.snoc doGencode_respsFree h4 (i := .gencode) nofun fun _ => rfl
  have hheader := hcodes.snoc doHdrWr_respsFree h5 (i := .hdrWr) nofun fun _ => rfl
  obtain ⟨-, r, hrun⟩ := (hheader.encSyms h6).snoc doPkFlush_respsFree h7 (i := .pkFlush) nofun fun _ => rfl
  exact ⟨t, _, h.length ▸ h.completes he, hrun, rfl⟩

end Sys2Proof.Machine
end

section
/-! SUPPORT. The round trip through `COMPRESS` and `DECOMPRESS` (46_orchestration.md R249). -/

namespace Sys2Proof.Machine

open Sys2Proof

section
variable {s t : State} {payload : List Byte} (h : Compressed s t payload) (hne : s.ibuf ≠ [])
include h

theorem Compressed.outside : SameOutside s t :=
  operation_outside (i := .compress) nofun (by rw [operation, opCompress, h.run, Op.ok_bind])

/-- Every byte of the input has a code of at least one bit (R241, R192). -/
theorem Compressed.code_length {b : Byte} (hb : b ∈ s.ibuf) :
    1 ≤ (((codeTableOf s.cfg (countBytes s.ibuf)).find b).getD []).length := by
  have hw : t.ft.wf = true := h.table ▸ countBytes_wf s.ibuf
  have hlisted : t.ftv b = true := by
    rw [State.ftv, h.table, countBytes_find, if_neg (count_ne_zero_of_mem hb)]; rfl
  obtain ⟨q, hq⟩ := Option.isSome_iff_exists.1 ((h.finished.codes_present hw b).trans hlisted)
  rw [← h.codeTable, h.codes, hq]
  exact (h.finished.code_length hw _ (Table.mem_of_find hq)).1

include hne

theorem Compressed.payload_ne_nil : payload ≠ [] := by
  rintro rfl
  have hbits : codeBits s.cfg s.ibuf = [] := (List.append_eq_nil_iff.1 h.payloadBits.symm).1
  have hle : s.ibuf.length ≤ (codeBits s.cfg s.ibuf).length := length_le_codes fun _ => h.code_length
  rw [hbits] at hle
  exact hne (List.length_eq_zero_iff.1 (Nat.le_zero.1 hle))

/-- `DECOMPRESS` of what `COMPRESS` left gives the input back. -/
theorem Compressed.decompresses {v : State} (hlen : s.ilen < 2 ^ 31) (hcap : s.ilen ≤ s.cfg.obufCap) (he : v.err = none)
    (hcfg : v.cfg = s.cfg) (hib : v.ibuf = t.obuf) :
    ∃ u, exec .decompress v = .next u ∧ u.err = none ∧ u.obuf = s.ibuf := by
  have hw := countBytes_wf s.ibuf
  have hpresent : ∀ b ∈ s.ibuf, ((countBytes s.ibuf).find b).isSome = true := fun b hb => by
    rw [countBytes_find, if_neg (count_ne_zero_of_mem hb)]; rfl
  obtain ⟨u, hexec, hobuf, -, -, -, -, -, hframe⟩ := decompressOutput.2 v (countBytes s.ibuf) (countBytes s.ibuf) payload
    s.ibuf (List.replicate (padCount (codeBits s.cfg s.ibuf).length) false) he (by rw [hib, h.output, hcfg])
    (countBytes_ne_nil hne) (Table.length_le hw) (fun e he => (countBytes_le s.ibuf e he).trans_lt hlen)
    (h.payload_ne_nil hne) hw (List.Perm.refl _) hpresent (by rw [hcfg, h.payloadBits]; rfl)
    (countSum_countBytes s.ibuf).symm (hcfg ▸ hcap)
  exact ⟨_, hexec, by rw [hframe]; exact he, hobuf⟩

end

/-- `O2I` makes an output that fits the input (R139). -/
theorem exec_o2i_moves {s : State} (he : s.err = none) (hfits : s.olen ≤ s.cfg.ibufCap) :
    ∃ v, exec .o2i s = .next v ∧ v.ibuf = s.obuf ∧ v.err = none ∧ v.cfg = s.cfg :=
  ⟨_, (outputToInput.2 s he).1 hfits, rfl, he, rfl⟩

/-- `COMPRESS`, `O2I` and `DECOMPRESS` bring the input to the output (R249). -/
theorem run_compress_o2i_decompress {s : State} (he : s.err = none) (hne : s.ibuf ≠ []) (hlen : s.ilen < 2 ^ 31)
    (hcap : s.ilen ≤ s.cfg.obufCap) (hin : containerLength s.cfg s.ibuf ≤ s.cfg.ibufCap)
    (hout : containerLength s.cfg s.ibuf ≤ s.cfg.obufCap) :
    ∃ u, runCommands [.compress, .o2i, .decompress] s = some u ∧ u.err = none ∧ u.obuf = s.ibuf := by
  obtain ⟨t, payload, h⟩ := compressed_of_room hne hout
  have herr : t.err = none := h.outside.err.trans he
  have hfits : t.olen ≤ t.cfg.ibufCap := by rw [h.length, h.outside.cfg]; exact hin
  obtain ⟨v, hmove, hib, hv, hcfg⟩ := exec_o2i_moves (s := t.respond false (word (containerLength s.cfg s.ibuf))) herr hfits
  obtain ⟨u, hdec, hu, hobuf⟩ := h.decompresses hne hlen hcap hv (hcfg.trans h.outside.cfg) hib
  refine ⟨u, ?_, hu, hobuf⟩
  rw [runCommands_cons (h.completes he), runCommands_cons hmove, runCommands_cons hdec, runCommands]

/-- Settles O51: the pushed bytes are the input of the three commands that follow. -/
theorem roundTrip : Obligations.RoundTrip := by
  intro s B he hib hbnd hne hi ho hci hco
  obtain ⟨r, hpush⟩ := run_ipush B s he (by rw [State.ilen, hib]; simpa using hi)
  rw [hib, List.nil_append] at hpush
  obtain ⟨-, hcap, -, -⟩ := hbnd
  obtain ⟨u, hrun, hu, hobuf⟩ := run_compress_o2i_decompress (s := { s with ibuf := B, resps := r }) he hne
    ((hi.trans hcap).trans_lt (by decide)) ho hci hco
  refine ⟨u, ?_, hu, congrArg List.length hobuf, hobuf⟩
  rw [runCommands_append, hpush]
  exact hrun

end Sys2Proof.Machine
end

section
/-! SUPPORT. The statements about exceptions (60_exceptions.md R260 to R273): what error entry records and leaves, which command
raises which error, and what the error state lets through. -/

namespace Sys2Proof.Machine

open Sys2Proof

/-! ## Error entry (R269, R270) -/

/-- A completed Operation records no error, that of `RESET` included. -/
theorem operation_err {i : Instr} {s t : State} {v : Word} (he : s.err = none) (h : operation i s = .ok (t, v)) :
    t.err = none := by
  by_cases hi : i = .reset
  · subst hi
    cases h
    rfl
  · exact (operation_outside hi h).err.trans he

/-- An error recorded by a command is one its Operation raised, and error entry is all the command did. -/
theorem exec_raised {i : Instr} {s t : State} {e : ErrCode} (he : s.err = none) (h : exec i s = .next t)
    (ht : t.err = some e) : operation i s = raise e ∧ t = errorEntry e (encode i) s := by
  rcases exec_next he h with ⟨u, v, hop, rfl⟩ | ⟨e', hop, rfl⟩
  · cases (operation_err he hop).symm.trans ht
  · cases ht
    exact ⟨hop, rfl⟩

/-- An illegal word outside the error state records `ILLEGAL_COMMAND`, and error entry is all it does. -/
theorem step_illegal {s t : State} {w : Word} {ws : List Word} {r : Reject} (he : s.err = none) (hc : s.cmds = w :: ws)
    (hd : decode w = .error r) (h : step s = .next t) : t = errorEntry .illegalCommand w { s with cmds := ws } := by
  cases h.symm.trans ((illegalWords.1 s w ws r hc hd).1 he)
  rfl

/-- A step that records an error has entered it with the word it took. -/
theorem step_raised {s t : State} {w : Word} {ws : List Word} {e : ErrCode} (he : s.err = none) (hc : s.cmds = w :: ws)
    (h : step s = .next t) (ht : t.err = some e) : t = errorEntry e w { s with cmds := ws } := by
  cases hd : decode w with
  | ok i =>
    obtain ⟨-, rfl⟩ := exec_raised (s := { s with cmds := ws }) he (step_of_decode_ok hc hd ▸ h) ht
    rw [decode_ok_iff.1 hd]
  | error r =>
    cases step_illegal he hc hd h
    cases ht
    rfl

/-- Settles O9: error entry starts from the block reset, which keeps the parameters and the ports. -/
theorem failingCommandState : Obligations.FailingCommandState := by
  intro s t w ws e he hc h ht
  exact ⟨State.resetBlock { s with cmds := ws }, State.atReset_isReset _ _ _, rfl, rfl, rfl, step_raised he hc h ht⟩

/-! ## Which command raises which error (R261, R263, R264, R268) -/

/-- Settles O10: a command's recorded error is one its Operation raised (`operation_raise`); an illegal word records
`ILLEGAL_COMMAND`. -/
theorem errorCodes : Obligations.ErrorCodes := by
  refine ⟨rfl, fun i s t e he h ht => ?_, fun s t w ws r e he hc hd h ht => ?_⟩
  · have hmem := operation_raise (exec_raised he h ht).1
    exact ⟨hmem, fun hio => ioFailure_not_raisable i (hio ▸ hmem)⟩
  · cases step_illegal he hc hd h
    cases ht
    rfl

/-- `COMPRESS` records no error but `BUFFER_OVERFLOW` (R268). -/
theorem exec_compress_err {s t : State} {e : ErrCode} (he : s.err = none) (h : exec .compress s = .next t)
    (ht : t.err = some e) : e = .bufferOverflow :=
  List.mem_singleton.1 (errorCodes.2.1 .compress s t e he h ht).1

/-- Settles O15, by the three commands' own statements for the empty table, and what `COMPRESS` can record. -/
theorem invalidInput : Obligations.InvalidInput := by
  refine ⟨fun s he hv hn i hi => ?_, fun s t he h ht => nomatch exec_compress_err he h ht⟩
  rcases hi with rfl | rfl | rfl
  · exact (buildStart.2.2 s he).2.1 hv hn
  · exact exec_build_empty he hv hn
  · exact (headerWrite.2 s he).2.1 hv hn

/-- Settles O16, by the effect of `ENC_SYM` for a symbol without a code, and what `COMPRESS` can record. -/
theorem encodingError : Obligations.EncodingError :=
  ⟨fun _ _ he hc hb => exec_encSym_of_raise he (doEncSym_absent hc hb),
    fun _ _ he h ht => nomatch exec_compress_err he h ht⟩

/-! ## `SEQUENCE_ERROR` and `ILLEGAL_COMMAND` (R265, R266) -/

/-- Settles O13: each command requires its stage flag first. -/
theorem sequenceErrors : Obligations.SequenceErrors := by
  refine fun s he => ⟨fun hv i hi => ?_, fun hact => ?_, fun hv => ?_, fun hc i hi => ?_, fun hc => ?_, fun hno => ?_⟩
  · rcases hi with ⟨b, rfl⟩ | rfl | rfl | rfl
    · exact exec_of_raise he (require_bind_false hv)
    · exact (buildStart.2.2 s he).1 hv
    · exact exec_build_noTable he hv
    · exact (headerWrite.2 s he).1 hv
  · exact exec_of_raise he (by rw [operation, opTbStep, doTbStep_inactive hact, Op.error_bind])
  · exact exec_of_raise he (by rw [operation, opGencode, doGencode_noTree hv, Op.error_bind])
  · rcases hi with ⟨b, rfl⟩ | ⟨b, w, rfl⟩ | ⟨b, rfl⟩
    · exact exec_of_raise he (require_bind_false hc)
    · exact exec_of_raise he (require_bind_false hc)
    · exact exec_encSym_of_raise he (doEncSym_sequence hc)
  · exact exec_of_raise he (require_bind_false hc)
  · exact exec_of_raise he (opDecSym_sequence hno)

/-- The word of a command selects the command's row (R104). -/
theorem wellFormed_of_decode_ok {w : Word} {i : Instr} (h : decode w = .ok i) : w.wellFormed = true := by
  obtain ⟨-, r, hrow, -⟩ := (wordsAndRows w).1 i h
  have hr : r ∈ opcodeMap.filter (·.selects w) := hrow ▸ List.mem_singleton_self r
  exact List.any_eq_true.2 ⟨r, List.mem_filter.1 hr⟩

/-- Settles O14: a word that is not well-formed does not decode, and each of the commands requires its operand's range
first. -/
theorem illegalCommandCauses : Obligations.IllegalCommandCauses := by
  refine fun s he => ⟨fun w ws hc hw => ?_, fun r hr => (readRegister.2 r s).2.1 hr he,
    fun a ha => ((readBuffers a).2.2 s he).2.1 ha, fun a ha => ((readBuffers a).2.2 s he).2.2.2 ha, fun k hk => ?_,
    fun n hn i hi => ?_, fun a ha => ((unpackSet a).2 s he).2 ha⟩
  · cases hd : decode w with
    | ok i => cases hw.symm.trans (wellFormed_of_decode_ok hd)
    | error r => exact (illegalWords.1 s w ws r hc hd).1 he
  · exact exec_of_raise he (require_bind_false (decide_eq_false (Nat.not_lt.2 hk)))
  · have hout : nodeInRange n s = false := decide_eq_false (Nat.not_lt.2 hn)
    rcases hi with rfl | rfl | rfl <;> exact exec_of_raise he (require_bind_false hout)

/-! ## The error state (R271 to R273) -/

theorem runsInErrorState_iff (i : Instr) :
    runsInErrorState i = true ↔ i = .nop ∨ i = .reset ∨ ∃ r : BitVec 8, r.toNat ≤ 18 ∧ i = .rdReg r := by
  cases i with
  | rdReg r =>
    have hr : runsInErrorState (.rdReg r) = true ↔ r.toNat ≤ 18 := decide_eq_true_iff
    simp [hr]
  | _ => simp [runsInErrorState]

theorem encode_rdReg (r : BitVec 8) : encode (.rdReg r) = 0x02000000#32 ||| zext32 r := assemble_symbol 0x02#8 r

/-- A word that is none of those R271 lets through is gated, whether or not it decodes. -/
theorem step_gated {s : State} {e : ErrCode} {w : Word} {ws : List Word} (he : s.err = some e) (hc : s.cmds = w :: ws)
    (hnop : w ≠ encode .nop) (hreset : w ≠ encode .reset)
    (hreg : ∀ r : BitVec 8, r.toNat ≤ 18 → w ≠ encode (.rdReg r)) :
    step s = .next (State.respond { s with cmds := ws } true (zext32 e.code)) := by
  cases hd : decode w with
  | ok i =>
    rw [decode_ok_iff] at hd
    subst hd
    have hi : runsInErrorState i = false := by
      rw [Bool.eq_false_iff, ne_eq, runsInErrorState_iff]
      rintro (rfl | rfl | ⟨r, hr, rfl⟩)
      · exact hnop rfl
      · exact hreset rfl
      · exact hreg r hr rfl
    exact (step_of_decode_ok hc (decodeEncode i)).trans (exec_gated he hi)
  | error r => exact (illegalWords.1 s w ws r hc hd).2 e he

/-- Settles O11, by the word: the three commands' own statements hold in every state, and every other word is gated. -/
theorem errorStateGating : Obligations.ErrorStateGating := by
  intro s e w ws he hc
  refine ⟨fun hw => ?_, fun hw => ?_, fun r hr hw => ?_, fun hnop hreset hreg => ?_⟩
  · exact (step_of_decode_ok hc (decode_ok_iff (i := .nop).2 hw)).trans (nopDoesNothing.2 _)
  · obtain ⟨t, ht, hreset, hcfg, hcmds, hresps⟩ := resetState.2.1 { s with cmds := ws }
    exact ⟨t, (step_of_decode_ok hc (decode_ok_iff (i := .reset).2 hw)).trans ht, hreset, hcfg, hcmds, hresps⟩
  · obtain ⟨v, hv, hexec⟩ := (readRegister.2 r { s with cmds := ws }).1 hr
    exact ⟨v, hv, (step_of_decode_ok hc (decode_ok_iff.2 (hw.trans (encode_rdReg r).symm))).trans hexec⟩
  · exact step_gated he hc hnop hreset fun r hr => encode_rdReg r ▸ hreg r hr

/-- Settles O12, by the word at the port: with none the state stays, `RESET` leaves the reset state, and each other case of
`errorStateGating` only takes the word and responds. -/
theorem onlyResetLeavesErrorState : Obligations.OnlyResetLeavesErrorState := by
  intro s t e he h
  cases hc : s.cmds with
  | nil =>
    cases (step_idle hc).symm.trans h
    exact .inl ⟨he, rfl⟩
  | cons w ws =>
    obtain ⟨hnop, hreset, hreg, hother⟩ := errorStateGating s e w ws he hc
    have hkeeps : ∀ b v, step s = .next (State.respond { s with cmds := ws } b v) →
        t.err = some e ∧ t.errcmd = s.errcmd := by
      intro b v hstep
      cases hstep.symm.trans h
      exact ⟨he, rfl⟩
    by_cases h0 : w = 0x00000000#32
    · exact .inl (hkeeps _ _ (hnop h0))
    by_cases h1 : w = 0x01000000#32
    · obtain ⟨u, hstep, hu, -⟩ := hreset h1
      cases hstep.symm.trans h
      exact .inr ⟨ws, by rw [h1], u, rfl, hu⟩
    by_cases h2 : ∃ r : BitVec 8, r.toNat ≤ 18 ∧ w = (0x02000000#32 ||| zext32 r)
    · obtain ⟨r, hr, hw⟩ := h2
      obtain ⟨v, -, hstep⟩ := hreg r hr hw
      exact .inl (hkeeps _ _ hstep)
    · exact .inl (hkeeps _ _ (hother h0 h1 fun r hr hw => h2 ⟨r, hr, hw⟩))

end Sys2Proof.Machine
end
